-- ==== Sys2Proof/Word.lean ====
section
/-! DEFINITION. The word types of the block (00_scope R9): bytes, main-memory, VRAM and port addresses, palette
indices, and the 27-bit transaction word in the 32-bit container it is handed over in. -/

namespace Sys2Proof

/-- A data value of the bus, `u8` (R9). -/
abbrev Byte := BitVec 8

/-- A main-memory address, `u16` (R9, R59). -/
abbrev Addr := BitVec 16

/-- A VRAM address, `u14` (R9, R42). -/
abbrev VAddr := BitVec 14

/-- A decoded port number, the low byte of the port address (R115). -/
abbrev Port := BitVec 8

/-- A palette index, `u4` (R43). -/
abbrev Colour := BitVec 4

/-- A transaction word in a 32-bit container: the word of R84 is bits 26..0, bits 31..27 must be zero (log entry 2). -/
abbrev Word := BitVec 32

end Sys2Proof
end

