-- ==== Sys2Proof/Syntax.lean ====
section
/-! DEFINITION. The instructions of the block: one constructor of `Instr` per row of spec/opcode_table.json
(30_encoding R84 to R88), the operands R87 carries beside the word, and what the external CPU Core issues for
one Z80 instruction (60_exceptions R234, R236). -/

namespace Sys2Proof

/-- One bus transaction of the CPU Core, K = 0 to 4 (R83, R85). A port address is 16 bits wide on the bus. -/
inductive Txn
  | fetch   (a : Addr)
  | mread   (a : Addr)
  | mwrite  (a : Addr) (v : Byte)
  | ioread  (port : BitVec 16)
  | iowrite (port : BitVec 16) (v : Byte)
deriving DecidableEq, Repr, Inhabited

/-- What the CPU Core does for one whole Z80 instruction (R110, R216, R234, R236).

`runs ack opcode rest extra`: an optional interrupt acknowledge before the instruction, with the transactions the
Core issues in accepting the interrupt; then the opcode fetch every instruction starts with (R236); then its
other transactions in order; `extra` is the t-states the Core reports beyond its transactions (R110).

`fails ack begun extra`: the Core fails internally (R229), with nothing but an acknowledge issued (`begun = none`), or
inside an instruction of which it has issued the opcode fetch and some other transactions. Whether the Core reports
extra t-states for an instruction it fails in is not in the spec (R110), so the form admits any number (log entries 9
and 22). -/
inductive CpuInstr
  | runs  (ack : Option (List Txn)) (opcode : Addr) (rest : List Txn) (extra : Nat)
  | fails (ack : Option (List Txn)) (begun : Option (Addr × List Txn)) (extra : Nat)
deriving DecidableEq, Repr, Inhabited

/-- The operands that do not fit the 27-bit word and are carried beside it (R84, R87). A word uses only the ones
its row of R87 names. A backing image is a list of (offset, byte) pairs whose unlisted offsets hold 0x00. -/
structure Beside where
  /-- RASTER_ADVANCE: elapsed simulated time in nanoseconds, a rational. -/
  dns      : Rat := 0
  /-- GOV_ITERATION: the t-state target, a draw (R218). -/
  target   : Nat := 0
  /-- GOV_ITERATION: the instructions the CPU Core runs, first one first (log entry 5). -/
  cpu      : List CpuInstr := []
  /-- HOST_RAM_READ, HOST_RAM_WRITE: a : u16. -/
  ramAddr  : Addr := 0
  /-- HOST_VRAM_READ, HOST_VRAM_WRITE: a : u14. -/
  vramAddr : VAddr := 0
  /-- HOST_REG_READ, HOST_REG_WRITE: i in 0..7. -/
  regIx    : BitVec 3 := 0
  /-- HOST_FB_READ: row. -/
  row      : Nat := 0
  /-- HOST_FB_READ: column. -/
  col      : Nat := 0
  /-- CF_ATTACH: the image's contents. -/
  image    : List (Nat × Byte) := []
  /-- CF_ATTACH: the image's length in bytes. -/
  size     : Nat := 0
deriving DecidableEq, Repr

/-- The operations of spec/opcode_table.json, one constructor a row. Ignored bits of a word (the port address high
byte, the data byte of a row that uses none) are no operands (R84, R90). -/
inductive Instr
  -- bus memory transactions (40_bus_memory)
  | fetch  (a : Addr)
  | mread  (a : Addr)
  | mwrite (a : Addr) (v : Byte)
  -- CompactFlash task file (46_cf_taskfile)
  | cfDataRd
  | cfDataWr (v : Byte)
  | cfErrRd
  | cfFeatWr (v : Byte)
  | cfCountRd
  | cfCountWr (v : Byte)
  | cfLba0Rd
  | cfLba0Wr (v : Byte)
  | cfLba1Rd
  | cfLba1Wr (v : Byte)
  | cfLba2Rd
  | cfLba2Wr (v : Byte)
  | cfLba3Rd
  | cfLba3Wr (v : Byte)
  | cfStatusRd
  | cfCmdRead
  | cfCmdWrite
  | cfCmdOther (v : Byte)
  -- the paging port (41_io_dispatch)
  | pageOn
  | pageOff (v : Byte)
  | pageRd
  -- UART (45_uart)
  | uartACtrlRd
  | uartACtrlWr (v : Byte)
  | uartADataRd
  | uartADataWr (v : Byte)
  | uartBCtrlRd
  | uartBCtrlWr (v : Byte)
  | uartBDataRd
  | uartBDataWr (v : Byte)
  -- VDP ports of the free-running machine, 0x98 and 0x99 (42_vdp_ports)
  | vdpDataWr (v : Byte)
  | vdpDataRd
  | vdpCtrlWr (v : Byte)
  | vdpStatusRd
  -- VDP ports of the debugger variant, 0x40 and 0x41
  | vdpDataWrDbg (v : Byte)
  | vdpDataRdDbg
  | vdpCtrlWrDbg (v : Byte)
  | vdpStatusRdDbg
  -- every other port (41_io_dispatch R121, R122)
  | unmappedRead  (p : Port)
  | unmappedWrite (p : Port) (v : Byte)
  -- internal and host operations, K = 5 (R87)
  | rasterAdvance (dns : Rat)
  | redrawFrame
  | reset
  | govIteration (target : Nat) (cpu : List CpuInstr)
  | govStop
  | govStart
  | hostRamRead   (a : Addr)
  | hostRamWrite  (a : Addr) (v : Byte)
  | hostVramRead  (a : VAddr)
  | hostVramWrite (a : VAddr) (v : Byte)
  | hostRegRead   (i : BitVec 3)
  | hostRegWrite  (i : BitVec 3) (v : Byte)
  | hostFbRead    (r c : Nat)
  | uartRxPushA (v : Byte)
  | uartRxPushB (v : Byte)
  | cfAttach (image : List (Nat × Byte)) (size : Nat)
  | cfDetach
deriving DecidableEq, Repr

end Sys2Proof
end

