-- ==== Sys2Proof/Config.lean ====
section
/-! DEFINITION. What the host fixes at configuration (00_scope R7) and the values the spec leaves free
(the draws of R7, 93_implementation_defined section 1). A `Config` is plain data held in the state and changed by
no step; a free value is a constant without a body, applied to the state's draw counter. -/

namespace Sys2Proof

/-- The two configurations of the bus (R123). -/
inductive Variant
  | machine
  | debugger
deriving DecidableEq, Repr, Inhabited

/-- VIDEO_STD (R7, R142). -/
inductive VideoStd
  | ntsc
  | pal
deriving DecidableEq, Repr, Inhabited

/-- WRITE_UNDER_ROM (R7, R62). -/
inductive WriteUnderRom
  | ram
  | discard
deriving DecidableEq, Repr, Inhabited

/-- VDP_IRQ_MODE, an OPEN parameter (R7, R145). -/
inductive IrqMode
  | off
  | levelFAndIe
deriving DecidableEq, Repr, Inhabited

/-- DEBUGGER_ADVANCES_VIDEO, an OPEN parameter (R7, R220). -/
inductive DebuggerVideo
  | never
  | perInstruction
deriving DecidableEq, Repr, Inhabited

/-- The parameters of R7 that may vary. The fixed ones are the constants below. -/
structure Config where
  variant            : Variant
  /-- ROM_LEN, at most 16384 (R8). -/
  romLen             : Nat
  videoStd           : VideoStd
  /-- CLOCK_PERIOD_NS, an exact rational (R112). -/
  clockPeriodNs      : Rat
  vdpDataPort        : Port
  vdpCtrlPort        : Port
  writeUnderRom      : WriteUnderRom
  /-- VDP_LATCH_RESET_ON_READ (R134). -/
  latchResetOnRead   : Bool
  irqMode            : IrqMode
  /-- SPRITE_Y_OFFSET (R166). -/
  spriteYOffset      : Nat
  vramClearedOnReset : Bool
  pagedClearedOnReset : Bool
  debuggerVideo      : DebuggerVideo
  /-- CF_IO_FAULTS: false is `none`, true is `any` (R207). -/
  cfIoFaults         : Bool
  /-- CPU_EXTRA_TSTATES: false is the reference 0, true lets an instruction report extra t-states (R110). -/
  cpuReportsExtra    : Bool
  /-- The program's entry address in the debugger variant (R22). SourceMap, which gives it, is outside the spec
  (log entry 23). -/
  entryAddr          : Addr
deriving DecidableEq, Repr

/-! ### Free values (log entries 5 to 8 and 23) -/

/-- VDP_IRQ_MODE has no reference value (R7): `State.reset` holds this one. -/
opaque Config.openIrqMode : IrqMode

/-- DEBUGGER_ADVANCES_VIDEO has no reference value (R7): `State.reset` holds this one. -/
opaque Config.openDebuggerVideo : DebuggerVideo

/-- The address SourceMap gives as the program's entry in the debugger variant (R22, R246). The spec gives no reference
value, so the reference configurations hold this one (DESIGN CHOICE, log entry 23). -/
opaque Config.openEntryAddr : Addr

/-- ROM_IMAGE, free (R7): the byte of the ROM at an address the state's ROM does not list. -/
opaque Config.romImage : Nat → Byte

/-- The draw `unmapped_read` (R121, R234), by draw number. -/
opaque Config.unmappedRead : Nat → Byte

/-- The draw `status_low` (R133): status bits 6..0, by draw number. -/
opaque Config.statusLow : Nat → BitVec 7

/-- The draw `cf_eof_read` (R208), by draw number. -/
opaque Config.cfEofRead : Nat → Byte

/-- The draw `io_fails` of CF_IO_FAULTS = any (R207, R208), by draw number. -/
opaque Config.ioFails : Nat → Bool

/-- What the CPU Core does for an instruction that an iteration's operands do not list (R216, R236), by draw
number. -/
opaque Config.cpuInstr : Nat → CpuInstr

/-! ### Fixed parameters (R7) -/

/-- VRAM_SIZE. -/
def vramSize : Nat := 16384
/-- RAM_SIZE. -/
def ramSize : Nat := 65536
/-- T_FETCH. -/
def tFetch : Nat := 4
/-- T_MEM. -/
def tMem : Nat := 3
/-- T_IO. -/
def tIo : Nat := 4
/-- CF_SECTOR. -/
def cfSector : Nat := 512
/-- VISIBLE_ROWS, the framebuffer's height FB_H. -/
def visibleRows : Nat := 240
/-- FB_W. -/
def fbWidth : Nat := 320
/-- PAGE_PORT. -/
def pagePort : Port := 0x38

/-- ROW_NS (R142). -/
def VideoStd.rowNs : VideoStd → Rat
  | .ntsc => 63500
  | .pal  => 64000

/-- TOTAL_ROWS (R142). -/
def VideoStd.totalRows : VideoStd → Nat
  | .ntsc => 262
  | .pal  => 312

/-- The reference configuration of the free-running Machine (R7). Parameters without a reference value hold open
constants (log entries 8 and 23). -/
def Config.reference : Config where
  variant := .machine
  romLen := 16384
  videoStd := .ntsc
  clockPeriodNs := { num := 78125, den := 576, den_nz := by decide, reduced := by decide }
  vdpDataPort := 0x98
  vdpCtrlPort := 0x99
  writeUnderRom := .ram
  latchResetOnRead := false
  irqMode := Config.openIrqMode
  spriteYOffset := 1
  vramClearedOnReset := false
  pagedClearedOnReset := true
  debuggerVideo := Config.openDebuggerVideo
  cfIoFaults := false
  cpuReportsExtra := false
  entryAddr := Config.openEntryAddr

/-- The reference configuration of the debugger variant: its VDP default ports are 0x40 and 0x41 (R123).
Its entry address is the open `Config.openEntryAddr`: R22 and R246 name SourceMap as its source and give no value
(DESIGN CHOICE, log entry 23). -/
def Config.referenceDebugger : Config :=
  { Config.reference with variant := .debugger, vdpDataPort := 0x40, vdpCtrlPort := 0x41 }

end Sys2Proof
end

