-- ==== Sys2Proof/Machine/Mem.lean ====
section
/-! DEFINITION. Byte storage: a list of (address, byte) cells in one canonical form, addresses strictly rising and
no cell holding 0x00, which is what an unlisted address reads as (R23, R28: every byte 0x00 at power-on; R208: the
bytes a growing image gains are 0x00). Main RAM, VRAM and the CF image are three of them. -/

namespace Sys2Proof.Machine

/-- A byte store: the listed cells; every other address holds 0x00. -/
abbrev Mem := List Host.Cell

/-- What an unlisted address reads as. -/
def Mem.unlisted : Byte := 0

/-- The byte at address `a`. -/
def Mem.read : Mem → Nat → Byte
  | [], _ => Mem.unlisted
  | (b, w) :: rest, a => if a = b then w else Mem.read rest a

/-- The store without a cell at address `a`. -/
def Mem.erase : Mem → Nat → Mem
  | [], _ => []
  | (b, w) :: rest, a => if a = b then rest else (b, w) :: Mem.erase rest a

/-- The store with the cell `(a, v)` at its place in the order. -/
def Mem.insert : Mem → Nat → Byte → Mem
  | [], a, v => [(a, v)]
  | (b, w) :: rest, a, v =>
    if a < b then (a, v) :: (b, w) :: rest
    else if a = b then (a, v) :: rest
    else (b, w) :: Mem.insert rest a v

/-- The store after byte `v` is written at address `a`; writing the unlisted value removes the cell. -/
def Mem.write (m : Mem) (a : Nat) (v : Byte) : Mem :=
  if v = Mem.unlisted then Mem.erase m a else Mem.insert m a v

/-- Addresses strictly rise and lie in `lo .. hi - 1`, and no cell holds the unlisted value. -/
def Mem.canonFrom (hi : Nat) : Nat → Mem → Bool
  | _, [] => true
  | lo, (b, w) :: rest =>
    decide (lo ≤ b) && decide (b < hi) && decide (w ≠ Mem.unlisted) && Mem.canonFrom hi (b + 1) rest

/-- The canonical form of a store of `size` bytes. -/
def Mem.wf (m : Mem) (size : Nat) : Bool := Mem.canonFrom size 0 m

/-- The store of `size` bytes that holds the given cells (a cell outside it is dropped). -/
def Mem.ofCells (size : Nat) (cells : List Host.Cell) : Mem :=
  cells.foldr (fun c m => if c.1 < size then Mem.write m c.1 c.2 else m) []

end Sys2Proof.Machine
end

