-- ==== Sys2Proof/WellFormed.lean ====
section
/-! DEFINITION. Which instructions are well formed: the operands a row of the opcode table admits (30_encoding R88,
the most specific row first) and the operands of R87 that have a law (R11: a time is not negative; R51: an image's
bytes lie below its size). -/

namespace Sys2Proof

/-- The ports that have an IOREAD row of their own in spec/opcode_table.json. -/
def readPorts : List Port :=
  [0x10, 0x11, 0x12, 0x13, 0x14, 0x15, 0x16, 0x17, 0x38, 0x80, 0x81, 0x82, 0x83, 0x98, 0x99, 0x40, 0x41]

/-- The ports that have an IOWRITE row of their own in spec/opcode_table.json. -/
def writePorts : List Port :=
  [0x10, 0x11, 0x12, 0x13, 0x14, 0x15, 0x16, 0x17, 0x38, 0x80, 0x81, 0x82, 0x83, 0x98, 0x99, 0x40, 0x41]

/-- The well-formed instructions. HOST_FB_READ out of range is well formed: its meaning refuses it by name (R227). -/
def Instr.wf : Instr → Bool
  | .fetch _ => true
  | .mread _ => true
  | .mwrite _ _ => true
  | .cfDataRd => true
  | .cfDataWr _ => true
  | .cfErrRd => true
  | .cfFeatWr _ => true
  | .cfCountRd => true
  | .cfCountWr _ => true
  | .cfLba0Rd => true
  | .cfLba0Wr _ => true
  | .cfLba1Rd => true
  | .cfLba1Wr _ => true
  | .cfLba2Rd => true
  | .cfLba2Wr _ => true
  | .cfLba3Rd => true
  | .cfLba3Wr _ => true
  | .cfStatusRd => true
  | .cfCmdRead => true
  | .cfCmdWrite => true
  | .cfCmdOther v => decide (v ≠ 0x20) && decide (v ≠ 0x30)
  | .pageOn => true
  | .pageOff v => decide (v ≠ 0x01)
  | .pageRd => true
  | .uartACtrlRd => true
  | .uartACtrlWr _ => true
  | .uartADataRd => true
  | .uartADataWr _ => true
  | .uartBCtrlRd => true
  | .uartBCtrlWr _ => true
  | .uartBDataRd => true
  | .uartBDataWr _ => true
  | .vdpDataWr _ => true
  | .vdpDataRd => true
  | .vdpCtrlWr _ => true
  | .vdpStatusRd => true
  | .vdpDataWrDbg _ => true
  | .vdpDataRdDbg => true
  | .vdpCtrlWrDbg _ => true
  | .vdpStatusRdDbg => true
  | .unmappedRead p => decide (p ∉ readPorts)
  | .unmappedWrite p _ => decide (p ∉ writePorts)
  | .rasterAdvance dns => decide (0 ≤ dns.num)
  | .redrawFrame => true
  | .reset => true
  | .govIteration _ _ => true
  | .govStop => true
  | .govStart => true
  | .hostRamRead _ => true
  | .hostRamWrite _ _ => true
  | .hostVramRead _ => true
  | .hostVramWrite _ _ => true
  | .hostRegRead _ => true
  | .hostRegWrite _ _ => true
  | .hostFbRead _ _ => true
  | .uartRxPushA _ => true
  | .uartRxPushB _ => true
  | .cfAttach image size => Machine.Mem.wf image size
  | .cfDetach => true

end Sys2Proof
end

