-- ==== Sys2Proof/Decode.lean ====
section
/-! DEFINITION. Decoding a transaction word with the operands beside it (30_encoding R84 to R90), total on every
word and rejecting by name, and the encoder written from the same tables. -/

namespace Sys2Proof

/-- Why a word is no instruction. -/
inductive Reject
  /-- Bits 31..27 of the container are not zero: not a 27-bit word (R84; log entry 2). -/
  | wideWord
  /-- K = 6 or 7 (R90). -/
  | reservedKind
  /-- K = 5 with an op code that R87 does not list (R90). -/
  | reservedOpCode
deriving DecidableEq, Repr

/-! ### Fields of the word (R84) -/

/-- Bits 31..27 of the container. -/
def wordPad (w : Word) : BitVec 5 := w.extractLsb' 27 5
/-- K, bits 26..24. -/
def wordKind (w : Word) : BitVec 3 := w.extractLsb' 24 3
/-- A, bits 23..8. -/
def wordAddr (w : Word) : Addr := w.extractLsb' 8 16
/-- D, bits 7..0. -/
def wordData (w : Word) : Byte := w.extractLsb' 0 8
/-- The decoded port, A[7:0]; A[15:8] is ignored (R89, R115). -/
def wordPort (w : Word) : Port := w.extractLsb' 8 8

/-- The word with the fields K, A and D. -/
def mkWord (k : BitVec 3) (a : Addr) (d : Byte) : Word :=
  (k.setWidth 32 <<< 24) ||| (a.setWidth 32 <<< 8) ||| d.setWidth 32

/-- The address field of a port transaction, its high byte zero. -/
def portAddr (p : Port) : Addr := p.setWidth 16

/-! ### Decoding -/

/-- The IOREAD row of a port (R86). -/
def decodeRead (p : Port) : Instr :=
  if p = 0x10 then .cfDataRd
  else if p = 0x11 then .cfErrRd
  else if p = 0x12 then .cfCountRd
  else if p = 0x13 then .cfLba0Rd
  else if p = 0x14 then .cfLba1Rd
  else if p = 0x15 then .cfLba2Rd
  else if p = 0x16 then .cfLba3Rd
  else if p = 0x17 then .cfStatusRd
  else if p = 0x38 then .pageRd
  else if p = 0x80 then .uartACtrlRd
  else if p = 0x81 then .uartADataRd
  else if p = 0x82 then .uartBCtrlRd
  else if p = 0x83 then .uartBDataRd
  else if p = 0x98 then .vdpDataRd
  else if p = 0x99 then .vdpStatusRd
  else if p = 0x40 then .vdpDataRdDbg
  else if p = 0x41 then .vdpStatusRdDbg
  else .unmappedRead p

/-- The IOWRITE row of a port and data byte, the row with the widest mask first (R86, R88). -/
def decodeWrite (p : Port) (v : Byte) : Instr :=
  if p = 0x10 then .cfDataWr v
  else if p = 0x11 then .cfFeatWr v
  else if p = 0x12 then .cfCountWr v
  else if p = 0x13 then .cfLba0Wr v
  else if p = 0x14 then .cfLba1Wr v
  else if p = 0x15 then .cfLba2Wr v
  else if p = 0x16 then .cfLba3Wr v
  else if p = 0x17 then
    if v = 0x20 then .cfCmdRead else if v = 0x30 then .cfCmdWrite else .cfCmdOther v
  else if p = 0x38 then
    if v = 0x01 then .pageOn else .pageOff v
  else if p = 0x80 then .uartACtrlWr v
  else if p = 0x81 then .uartADataWr v
  else if p = 0x82 then .uartBCtrlWr v
  else if p = 0x83 then .uartBDataWr v
  else if p = 0x98 then .vdpDataWr v
  else if p = 0x99 then .vdpCtrlWr v
  else if p = 0x40 then .vdpDataWrDbg v
  else if p = 0x41 then .vdpCtrlWrDbg v
  else .unmappedWrite p v

/-- The K = 5 row of an op code, with its operands beside the word (R87). -/
def decodeOp (a : Addr) (v : Byte) (b : Beside) : Except Reject Instr :=
  if a = 0x0001 then .ok (.rasterAdvance b.dns)
  else if a = 0x0002 then .ok .redrawFrame
  else if a = 0x0003 then .ok .reset
  else if a = 0x0004 then .ok (.govIteration b.target b.cpu)
  else if a = 0x0005 then .ok .govStop
  else if a = 0x0006 then .ok .govStart
  else if a = 0x0010 then .ok (.hostRamRead b.ramAddr)
  else if a = 0x0011 then .ok (.hostRamWrite b.ramAddr v)
  else if a = 0x0012 then .ok (.hostVramRead b.vramAddr)
  else if a = 0x0013 then .ok (.hostVramWrite b.vramAddr v)
  else if a = 0x0014 then .ok (.hostRegRead b.regIx)
  else if a = 0x0015 then .ok (.hostRegWrite b.regIx v)
  else if a = 0x0016 then .ok (.hostFbRead b.row b.col)
  else if a = 0x0020 then .ok (.uartRxPushA v)
  else if a = 0x0021 then .ok (.uartRxPushB v)
  else if a = 0x0030 then .ok (.cfAttach b.image b.size)
  else if a = 0x0031 then .ok .cfDetach
  else .error .reservedOpCode

/-- `Decode(w)` of R88. -/
def decode (w : Word) (b : Beside) : Except Reject Instr :=
  if wordPad w ≠ 0 then .error .wideWord
  else if wordKind w = 0 then .ok (.fetch (wordAddr w))
  else if wordKind w = 1 then .ok (.mread (wordAddr w))
  else if wordKind w = 2 then .ok (.mwrite (wordAddr w) (wordData w))
  else if wordKind w = 3 then .ok (decodeRead (wordPort w))
  else if wordKind w = 4 then .ok (decodeWrite (wordPort w) (wordData w))
  else if wordKind w = 5 then decodeOp (wordAddr w) (wordData w) b
  else .error .reservedKind

/-- The instruction of a row's bits, every operand beside the word zero or empty. -/
def decodeTableWord (nbits w : Nat) : Option Instr :=
  if w % 2 ^ nbits < 2 ^ 32 then (decode (BitVec.ofNat 32 (w % 2 ^ nbits)) {}).toOption else none

/-! ### Encoding -/

/-- The word of an IOREAD (K = 3). -/
def readWord (p : Port) : Word × Beside := (mkWord 3 (portAddr p) 0, {})
/-- The word of an IOWRITE (K = 4). -/
def writeWord (p : Port) (v : Byte) : Word × Beside := (mkWord 4 (portAddr p) v, {})
/-- The word of an internal or host operation (K = 5). -/
def opWord (a : Addr) (v : Byte) (b : Beside) : Word × Beside := (mkWord 5 a v, b)

/-- The word of an instruction and the operands beside it; ignored bits are zero. -/
def encode : Instr → Word × Beside
  | .fetch a => (mkWord 0 a 0, {})
  | .mread a => (mkWord 1 a 0, {})
  | .mwrite a v => (mkWord 2 a v, {})
  | .cfDataRd => readWord 0x10
  | .cfDataWr v => writeWord 0x10 v
  | .cfErrRd => readWord 0x11
  | .cfFeatWr v => writeWord 0x11 v
  | .cfCountRd => readWord 0x12
  | .cfCountWr v => writeWord 0x12 v
  | .cfLba0Rd => readWord 0x13
  | .cfLba0Wr v => writeWord 0x13 v
  | .cfLba1Rd => readWord 0x14
  | .cfLba1Wr v => writeWord 0x14 v
  | .cfLba2Rd => readWord 0x15
  | .cfLba2Wr v => writeWord 0x15 v
  | .cfLba3Rd => readWord 0x16
  | .cfLba3Wr v => writeWord 0x16 v
  | .cfStatusRd => readWord 0x17
  | .cfCmdRead => writeWord 0x17 0x20
  | .cfCmdWrite => writeWord 0x17 0x30
  | .cfCmdOther v => writeWord 0x17 v
  | .pageOn => writeWord 0x38 0x01
  | .pageOff v => writeWord 0x38 v
  | .pageRd => readWord 0x38
  | .uartACtrlRd => readWord 0x80
  | .uartACtrlWr v => writeWord 0x80 v
  | .uartADataRd => readWord 0x81
  | .uartADataWr v => writeWord 0x81 v
  | .uartBCtrlRd => readWord 0x82
  | .uartBCtrlWr v => writeWord 0x82 v
  | .uartBDataRd => readWord 0x83
  | .uartBDataWr v => writeWord 0x83 v
  | .vdpDataWr v => writeWord 0x98 v
  | .vdpDataRd => readWord 0x98
  | .vdpCtrlWr v => writeWord 0x99 v
  | .vdpStatusRd => readWord 0x99
  | .vdpDataWrDbg v => writeWord 0x40 v
  | .vdpDataRdDbg => readWord 0x40
  | .vdpCtrlWrDbg v => writeWord 0x41 v
  | .vdpStatusRdDbg => readWord 0x41
  | .unmappedRead p => readWord p
  | .unmappedWrite p v => writeWord p v
  | .rasterAdvance dns => opWord 0x0001 0 { dns := dns }
  | .redrawFrame => opWord 0x0002 0 {}
  | .reset => opWord 0x0003 0 {}
  | .govIteration target cpu => opWord 0x0004 0 { target := target, cpu := cpu }
  | .govStop => opWord 0x0005 0 {}
  | .govStart => opWord 0x0006 0 {}
  | .hostRamRead a => opWord 0x0010 0 { ramAddr := a }
  | .hostRamWrite a v => opWord 0x0011 v { ramAddr := a }
  | .hostVramRead a => opWord 0x0012 0 { vramAddr := a }
  | .hostVramWrite a v => opWord 0x0013 v { vramAddr := a }
  | .hostRegRead i => opWord 0x0014 0 { regIx := i }
  | .hostRegWrite i v => opWord 0x0015 v { regIx := i }
  | .hostFbRead r c => opWord 0x0016 0 { row := r, col := c }
  | .uartRxPushA v => opWord 0x0020 v {}
  | .uartRxPushB v => opWord 0x0021 v {}
  | .cfAttach image size => opWord 0x0030 0 { image := image, size := size }
  | .cfDetach => opWord 0x0031 0 {}

end Sys2Proof
end

