-- ==== Sys2Proof/Machine/State.lean ====
section
/-! DEFINITION. The state of the block (10_state R20 to R57), the reasons a step stops (60_exceptions, R90, R216,
R220, R227, R229, R240), and the state at power-on. -/

namespace Sys2Proof.Machine

/-- Why the machine is stuck (R229, R231). -/
inductive Fault
  /-- An internal failure of the external CPU Core (R229). Recorded in `State.fault` by the step in which the Core
  fails; raised as an outcome by every CPU transaction requested after it. Safe: the spec gives no further step. -/
  | cpuCoreFailure
deriving DecidableEq, Repr, Inhabited

/-- Why a request is not admitted (`refuse` in 93_implementation_defined). Every one is safe: the spec gives the
request no effect. -/
inductive Refusal
  /-- Raised by `exec` alone, for an instruction without a meaning: none is left. Safe. -/
  | notModelled (mnemonic : String)
  /-- Raised by the step: the word's container holds more than 27 bits (R84; log entry 2). Safe. -/
  | wideWord
  /-- Raised by the step: K = 6 or 7 (R90). Safe. -/
  | reservedKind
  /-- Raised by the step: K = 5 with an unlisted op code (R90). Safe. -/
  | reservedOpCode
  /-- Raised by the step: operands that break their law (a negative time, an image with bytes past its size; log
  entry 3). Safe. -/
  | illFormedOperands
  /-- Raised by the step: the configuration is not admitted (R8). Safe. -/
  | inadmissibleConfig
  /-- Raised by the step: a K = 5 operation that does not hold the bus lock (R73, R138). Safe. -/
  | lockNotHeld
  /-- Raised by GOV_ITERATION when no governor runs (R216). Safe. -/
  | governorNotRunning
  /-- Raised by GOV_START, GOV_ITERATION and GOV_STOP in the debugger variant (R220). Safe. -/
  | noGovernorInDebugger
  /-- Raised by RASTER_ADVANCE in the debugger variant with DEBUGGER_ADVANCES_VIDEO = never, where it is never
  issued (R220). Safe. -/
  | rasterNeverAdvances
  /-- Raised by HOST_FB_READ with a coordinate out of range (R227). Safe. -/
  | pixelOutOfRange
  /-- Raised by every K = 5 operation but the host reads and GOV_ITERATION once `fault` is set (R229). Safe. -/
  | stuckAfterFault
  /-- Raised by the step: a debugger call while another is in flight (R240). Safe. -/
  | concurrentDebuggerCall
  /-- Raised by the step: a debugger call in the free-running machine, where the governor alone runs instructions
  (R215). Safe. -/
  | noDebuggerInMachine
  /-- Raised by the step: an interrupt acknowledge while the VDP requests no interrupt (R232, R234). Safe. -/
  | noInterruptRequest
deriving DecidableEq, Repr

/-- A UART channel (R45). -/
inductive Channel
  | a
  | b
deriving DecidableEq, Repr, Inhabited

/-- `cf_mode`, the pending sector transfer (R49). -/
inductive CfMode
  | idle
  | read
  | write
deriving DecidableEq, Repr, Inhabited

/-- An entry of the output event history (R55). -/
inductive Event
  | vsync
  | uartTx (ch : Channel) (v : Byte)
deriving DecidableEq, Repr

/-- A value a step returns to the agent that asked for it: a byte to the CPU Core, a byte or a pixel to the host. -/
inductive Reply
  | bus   (v : Byte)
  | host  (v : Byte)
  | pixel (c : Colour)
deriving DecidableEq, Repr

/-- A step an agent asks of the block (R14, R240). -/
inductive Request
  /-- A transaction word with the operands beside it; `locked` says that the agent holds the bus lock (R73). -/
  | word (w : Word) (beside : Beside) (locked : Bool)
  /-- The debugger variant's call that executes one CPU instruction (R220); `inFlight` says that another debugger
  call has not returned (R240). -/
  | debuggerInstr (c : CpuInstr) (inFlight : Bool)
  /-- The CPU Core's interrupt acknowledge cycle (R234). -/
  | intAck
deriving DecidableEq, Repr

/-- The block's state. -/
structure State where
  /-- The configuration (R7); no step changes it. -/
  cfg       : Config
  /-- Main RAM, 65536 bytes (R23). -/
  ram       : Mem
  /-- The ROM's listed bytes; a byte it does not list is `Config.romImage` (R24; log entry 7). -/
  rom       : List Host.Cell
  /-- The ROM/RAM selector; true means ROM disabled (R25). -/
  paged     : Bool
  /-- The t-state counter (R26). -/
  tstates   : Nat
  /-- VRAM, 16384 bytes (R28). -/
  vram      : Mem
  /-- The mode registers R0 to R7 (R29). -/
  reg       : Vector Byte 8
  /-- The scanline counter (R38). -/
  line      : Nat
  /-- Simulated time not yet consumed by whole rows, in ns (R39). -/
  accNs     : Rat
  /-- The VDP status byte; bit 7 is F (R40). -/
  status    : Byte
  /-- The control port holds a first byte (R41). -/
  latchFull : Bool
  /-- The buffered first byte (R41). -/
  latchByte : Byte
  /-- The VRAM pointer (R42). -/
  ptr       : VAddr
  /-- The framebuffer, row-major (R43). -/
  fb        : Vector (Vector Colour 320) 240
  /-- Bytes delivered to UART channel A and not yet read, oldest first (R45). -/
  rxqA      : List Byte
  /-- Bytes delivered to UART channel B and not yet read, oldest first (R45). -/
  rxqB      : List Byte
  /-- The CF features register (R48). -/
  cfFeat    : Byte
  /-- The CF sector count register (R48). -/
  cfCount   : Byte
  /-- The CF LBA registers LBA0 to LBA3 (R48). -/
  cfLba     : Vector Byte 4
  /-- The pending transfer (R49). -/
  cfMode    : CfMode
  /-- Data bytes already moved in the transfer (R50). -/
  cfPos     : Nat
  /-- The byte offset the command sought (R50). -/
  cfBase    : Nat
  /-- A backing image is attached (R51). -/
  cfPresent : Bool
  /-- The image's length in bytes (R51). -/
  cfSize    : Nat
  /-- The image's contents (R51). -/
  cfImage   : Mem
  /-- The t-state count at the governor's last checkpoint (R54). -/
  govMark   : Nat
  /-- The governor thread exists (R54). -/
  govRunning : Bool
  /-- The output event history, oldest first (R55). -/
  events    : List Event
  /-- The recorded fault (R56, R229). -/
  fault     : Option Fault
  /-- MODEL'S OWN: the values steps have returned, oldest first (log entry 4). -/
  replies   : List Reply
  /-- MODEL'S OWN: how many free values have been drawn (log entry 6). -/
  draws     : Nat
  /-- MODEL'S OWN: the steps the agents ask for, next one first (log entry 1). -/
  pending   : List Request
deriving DecidableEq, Repr

/-- The block at power-on (R57, R244), in the reference Machine configuration. Power-on is the spec's own start of
an instance; the operation RESET on it changes nothing it lists. -/
def State.reset : State where
  cfg := Config.reference
  ram := []
  rom := []
  paged := false
  tstates := 0
  vram := []
  reg := Vector.replicate 8 0
  line := 0
  accNs := 0
  status := 0
  latchFull := false
  latchByte := 0
  ptr := 0
  fb := Vector.replicate 240 (Vector.replicate 320 0)
  rxqA := []
  rxqB := []
  cfFeat := 0
  cfCount := 0
  cfLba := Vector.replicate 4 0
  cfMode := .idle
  cfPos := 0
  cfBase := 0
  cfPresent := false
  cfSize := 0
  cfImage := []
  govMark := 0
  govRunning := false
  events := []
  fault := none
  replies := []
  draws := 0
  pending := []

/-- What a meaning and a step answer. -/
abbrev Result := Host.Outcome State Fault Refusal

end Sys2Proof.Machine
end

