-- ==== Sys2Proof/Machine/Operands.lean ====
section
/-! DEFINITION. Which configurations are admitted (00_scope R8), and the operand forms of the block: the port map
(30_encoding R86, 41_io_dispatch R115), the VDP register fields (10_state R30 to R37, 30_encoding R93 to R99), the
control-port pair (R93), the LBA (R52) and the ROM byte an address selects (R60). -/

namespace Sys2Proof

/-! ### Admission -/

/-- Every port of the map that is not configurable: the CF task file, the paging port, the UARTs (R86). -/
def fixedPorts : List Port :=
  [0x10, 0x11, 0x12, 0x13, 0x14, 0x15, 0x16, 0x17, 0x38, 0x80, 0x81, 0x82, 0x83]

/-- R8: the ports are pairwise distinct (the fixed ones are), ROM_LEN is at most 16384; and the clock period is a
non-negative time (R11). -/
def Config.admissible (c : Config) : Bool :=
  decide (c.vdpDataPort ≠ c.vdpCtrlPort) && decide (c.vdpDataPort ∉ fixedPorts)
    && decide (c.vdpCtrlPort ∉ fixedPorts) && decide (c.romLen ≤ 16384) && decide (0 ≤ c.clockPeriodNs.num)

end Sys2Proof

namespace Sys2Proof.Machine

/-! ### The port map -/

/-- The unit and register a port selects (R86). -/
inductive PortUnit
  | cfData
  | cfErrFeat
  | cfCount
  | cfLba (i : Fin 4)
  | cfStatusCmd
  | page
  | uartCtrl (ch : Channel)
  | uartData (ch : Channel)
  | vdpData
  | vdpCtrl
  | unmapped
deriving DecidableEq, Repr

/-- `ch(p)` of R183. -/
def uartChannel (p : Port) : Channel := if p.getLsbD 1 then .b else .a

/-- The unit of a port (R115). In an admitted configuration no two cases overlap (R124). -/
def portUnit (c : Config) (p : Port) : PortUnit :=
  if p = 0x10 then .cfData
  else if p = 0x11 then .cfErrFeat
  else if p = 0x12 then .cfCount
  else if p = 0x13 then .cfLba 0
  else if p = 0x14 then .cfLba 1
  else if p = 0x15 then .cfLba 2
  else if p = 0x16 then .cfLba 3
  else if p = 0x17 then .cfStatusCmd
  else if p = pagePort then .page
  else if p = 0x80 ∨ p = 0x82 then .uartCtrl (uartChannel p)
  else if p = 0x81 ∨ p = 0x83 then .uartData (uartChannel p)
  else if p = c.vdpDataPort then .vdpData
  else if p = c.vdpCtrlPort then .vdpCtrl
  else .unmapped

/-- `p = port mod 256` (R115). -/
def decodedPort (port : BitVec 16) : Port := port.extractLsb' 0 8

/-! ### The control-port pair (R93) -/

/-- `s[2:0]`, the register a second byte selects. -/
def pairReg (s : Byte) : BitVec 3 := s.extractLsb' 0 3

/-- `((s << 8) | f) & 0x3FFF`, in 14 bits. -/
def pairPtr (s f : Byte) : VAddr := (s.setWidth 14 <<< 8) ||| f.setWidth 14

/-- Second byte bit 7: a register write. -/
def pairIsReg (s : Byte) : Bool := s.getLsbD 7

/-! ### Registers -/

/-- The mode registers. -/
abbrev Regs := Vector Byte 8

/-- `reg[i]`. -/
def Regs.get3 (r : Regs) (i : BitVec 3) : Byte := r[i.toNat]'(i.isLt)

/-- `reg[i] <- v`. -/
def Regs.set3 (r : Regs) (i : BitVec 3) (v : Byte) : Regs := Vector.set r i.toNat v i.isLt

/-- M3 = R0[1] (R30). -/
def Regs.m3 (r : Regs) : Bool := r[0].getLsbD 1
/-- BLANK = R1[6], the display enable (R31). -/
def Regs.displayOn (r : Regs) : Bool := r[1].getLsbD 6
/-- IE = R1[5] (R31). -/
def Regs.ie (r : Regs) : Bool := r[1].getLsbD 5
/-- M1 = R1[4] (R31). -/
def Regs.m1 (r : Regs) : Bool := r[1].getLsbD 4
/-- M2 = R1[3] (R31). -/
def Regs.m2 (r : Regs) : Bool := r[1].getLsbD 3
/-- SIZE = R1[1] (R31). -/
def Regs.size16 (r : Regs) : Bool := r[1].getLsbD 1
/-- MAG = R1[0] (R31). -/
def Regs.mag (r : Regs) : Bool := r[1].getLsbD 0
/-- The name table's base, R2[3:0] * 0x400 (R32, R95). -/
def Regs.nameBase (r : Regs) : Nat := (r[2] &&& 0x0F).toNat <<< 10
/-- The Graphics I colour table's base, R3 * 0x40 (R33, R97). -/
def Regs.colourBase (r : Regs) : Nat := r[3].toNat <<< 6
/-- The Graphics II colour table's base, R3[7] * 0x2000 (R33, R97). -/
def Regs.colourBase2 (r : Regs) : Nat := (r[3] &&& 0x80).toNat <<< 6
/-- The pattern generator's base, R4[2:0] * 0x800 (R34, R96). -/
def Regs.patternBase (r : Regs) : Nat := (r[4] &&& 0x07).toNat <<< 11
/-- The Graphics II pattern generator's base, R4[2] * 0x2000 (R34, R96). -/
def Regs.patternBase2 (r : Regs) : Nat := (r[4] &&& 0x04).toNat <<< 11
/-- The sprite attribute table's base, R5[6:0] * 0x80 (R35, R98). -/
def Regs.spriteAttrBase (r : Regs) : Nat := (r[5] &&& 0x7F).toNat <<< 7
/-- The sprite pattern table's base, R6[2:0] * 0x800 (R36, R99). -/
def Regs.spritePatBase (r : Regs) : Nat := (r[6] &&& 0x07).toNat <<< 11
/-- TC = R7[7:4], the text foreground (R37). -/
def Regs.textColour (r : Regs) : Colour := r[7].extractLsb' 4 4
/-- BD = R7[3:0], the backdrop (R37). -/
def Regs.backdrop (r : Regs) : Colour := r[7].extractLsb' 0 4

/-- The display modes of R94. -/
inductive Mode
  | text
  | multicolor
  | graphics2
  | graphics1
deriving DecidableEq, Repr

/-- Mode decode, first match wins (R94). -/
def Regs.mode (r : Regs) : Mode :=
  if r.m1 then .text else if r.m2 then .multicolor else if r.m3 then .graphics2 else .graphics1

/-! ### The LBA and the ROM -/

/-- `CfLba()` (R52, R205): LBA3[3:0], LBA2, LBA1, LBA0. -/
def cfLbaOf (l : Vector Byte 4) : BitVec 28 :=
  ((l[3] &&& 0x0F).setWidth 28 <<< 24) ||| (l[2].setWidth 28 <<< 16) ||| (l[1].setWidth 28 <<< 8) ||| l[0].setWidth 28

/-- `rom[a]`: the listed byte, else the free image's (R24; log entry 7). -/
def romByte : List Host.Cell → Nat → Byte
  | [], a => Config.romImage a
  | (b, w) :: rest, a => if a = b then w else romByte rest a

/-- The address the CPU Core starts at after power-on and reset (R22, R246): 0x0000 in the Machine, the program's
entry address in the debugger variant. -/
def cpuEntryAddr (c : Config) : Addr :=
  match c.variant with
  | .machine => 0
  | .debugger => c.entryAddr

end Sys2Proof.Machine
end

