-- ==== Sys2Proof/Machine/Flags.lean ====
section
/-! DEFINITION. Every flag and computed status of the block: F of the VDP status byte (R40, R133, R139), the
interrupt output (R145), the UART status byte (R104, R184) and the CF status byte (R53, R203); and the clock derived
from the t-state counter (R27, R112). -/

namespace Sys2Proof.Machine

/-- F, the vertical-sync flag: status bit 7 (R40). -/
def State.flagF (s : State) : Bool := s.status.getLsbD 7

/-- `status[7] <- 1` (R139). -/
def statusSetF (st : Byte) : Byte := st ||| 0x80

/-- `status[7] <- 0` (R133). -/
def statusClearF (st : Byte) : Byte := st &&& 0x7F

/-- The byte a status read returns: F and seven free bits (R133). -/
def statusByte (f : Bool) (low : BitVec 7) : Byte := (if f then 0x80 else 0x00) ||| low.setWidth 8

/-- `vdp_int`, the interrupt output (R44, R145): a level, F AND IE, where VDP_IRQ_MODE connects it. -/
def State.vdpInt (s : State) : Bool :=
  match s.cfg.irqMode with
  | .off => false
  | .levelFAndIe => s.flagF && Regs.ie s.reg

/-- The UART status byte: bit 0 RX_AVAIL, bit 2 TX_EMPTY, always 1 (R104, R184). -/
def uartStatusByte (q : List Byte) : Byte := (if q.isEmpty then 0x00 else 0x01) ||| 0x04

/-- The CF status byte: 0x48 DRDY and DRQ, 0x40 DRDY, 0x00 no image (R53, R203). -/
def cfStatusByte (present : Bool) (m : CfMode) : Byte :=
  if present = false then 0x00 else if m = .idle then 0x40 else 0x48

/-- `ns = tstates * CLOCK_PERIOD_NS`, an exact rational (R27, R112). -/
def State.ns (s : State) : Rat := s.tstates * s.cfg.clockPeriodNs

end Sys2Proof.Machine
end

