-- ==== Sys2Proof/Machine/Ops.lean ====
section
/-! DEFINITION. The operations the meanings share: the t-state counter, returned values, free values, the ROM/RAM
selector (20_memory R60, R62), the fault and the interrupt acknowledge (60_exceptions R229, R234).

The block has no exception of its own: no vector table, no saved state and no mode (R234). What it has is the fault
(`State.raise`), after which it is stuck, and the byte the CPU Core reads when it acknowledges the VDP's request
(`State.intAckCycle`). A return from a handler changes no state of the block (R235), so no operation stands for it. -/

namespace Sys2Proof.Machine

/-! ### Counters, replies, events -/

/-- `tick(n)` (R109). -/
def State.tick (s : State) (n : Nat) : State := { s with tstates := s.tstates + n }

/-- A value is returned to the agent that asked for it. -/
def State.reply (s : State) (r : Reply) : State := { s with replies := s.replies ++ [r] }

/-- One free value has been drawn. -/
def State.drawn (s : State) : State := { s with draws := s.draws + 1 }

/-- `emit` (R10, R55). -/
def State.emit (s : State) (e : Event) : State := { s with events := s.events ++ [e] }

/-- A unit's read ends: the cost of the access and the byte for the CPU Core (R105, R106, R116). -/
def State.finishRead (cost : Nat) (r : Byte × State) : State := (r.2.tick cost).reply (.bus r.1)

/-! ### The ROM/RAM selector -/

/-- `ReadSel(a)` (R60): opcode fetches and data reads alike (R61). -/
def State.readSel (s : State) (a : Addr) : Byte :=
  if s.paged = false ∧ a.toNat < s.cfg.romLen then romByte s.rom a.toNat else Mem.read s.ram a.toNat

/-- `WriteSel(a, v)` (R62): a write under the visible ROM goes where WRITE_UNDER_ROM says. -/
def State.writeSel (s : State) (a : Addr) (v : Byte) : State :=
  if s.paged = true ∨ s.cfg.romLen ≤ a.toNat then { s with ram := Mem.write s.ram a.toNat v }
  else
    match s.cfg.writeUnderRom with
    | .ram => { s with ram := Mem.write s.ram a.toNat v }
    | .discard => s

/-! ### Free values -/

/-- `draw unmapped_read` (R121, R234). -/
def State.drawUnmapped (s : State) : Byte × State := (Config.unmappedRead s.draws, s.drawn)

/-- `draw status_low` (R133). -/
def State.drawStatusLow (s : State) : BitVec 7 × State := (Config.statusLow s.draws, s.drawn)

/-- `draw cf_eof_read` (R208). -/
def State.drawEofRead (s : State) : Byte × State := (Config.cfEofRead s.draws, s.drawn)

/-- `io_fails()` (R208): a draw only when CF_IO_FAULTS = any; with none no access fails (R207). -/
def State.drawIoFails (s : State) : Bool × State :=
  if s.cfg.cfIoFaults then (Config.ioFails s.draws, s.drawn) else (false, s)

/-! ### The fault and the interrupt acknowledge -/

/-- `raise Fault(reason)` (R229): the first reason stays. -/
def State.raise (s : State) (f : Fault) : State :=
  match s.fault with
  | none => { s with fault := some f }
  | some _ => s

/-- The interrupt acknowledge cycle (R234): the block drives no vector, so the CPU Core reads the draw
`unmapped_read`; no t-states. -/
def State.intAckCycle (s : State) : State := State.finishRead 0 s.drawUnmapped

/-! ### How a meaning answers -/

/-- A CPU transaction: none is issued once the fault is set (R229); otherwise it completes (R230). -/
def busStep (s : State) (k : State → State) : Result :=
  match s.fault with
  | none => .next (k s)
  | some f => .fault f

/-- A K = 5 operation that a set fault refuses (R229). -/
def hostStep (s : State) (k : State → State) : Result :=
  match s.fault with
  | none => .next (k s)
  | some _ => .refused .stuckAfterFault

end Sys2Proof.Machine
end

