-- ==== Sys2Proof/Machine/BusMemory.lean ====
section
/-! DEFINITION. The bus memory transactions (40_bus_memory R105 to R109). -/

namespace Sys2Proof.Machine

/-- `FETCH(a)` (R105). -/
def State.busFetch (s : State) (a : Addr) : State := State.finishRead tFetch (s.readSel a, s)

/-- `MREAD(a)` (R106). -/
def State.busMread (s : State) (a : Addr) : State := State.finishRead tMem (s.readSel a, s)

/-- `MWRITE(a, v)` (R107). -/
def State.busMwrite (s : State) (a : Addr) (v : Byte) : State := (s.writeSel a v).tick tMem

/-- FETCH (R105). -/
def execFetch (a : Addr) (s : State) : Result := busStep s fun s => s.busFetch a

/-- MREAD (R106). -/
def execMread (a : Addr) (s : State) : Result := busStep s fun s => s.busMread a

/-- MWRITE (R107). -/
def execMwrite (a : Addr) (v : Byte) (s : State) : Result := busStep s fun s => s.busMwrite a v

end Sys2Proof.Machine
end

