-- ==== Sys2Proof/Machine/CfTaskFile.lean ====
section
/-! DEFINITION. The CompactFlash task file (46_cf_taskfile R195 to R214) and its ports 0x10 to 0x17, and the host's
attach and detach (47_governor_host R228). -/

namespace Sys2Proof.Machine

/-! ### The image (R208) -/

/-- `ImageRead(o)`. -/
def State.imageRead (s : State) (o : Nat) : Byte × State :=
  let f := s.drawIoFails
  if f.1 then (0x00, f.2)
  else if o < s.cfSize then (Mem.read s.cfImage o, f.2)
  else f.2.drawEofRead

/-- `ImageWrite(o, v)`: a write past the end extends the image, and the bytes between are 0x00. -/
def State.imageWrite (s : State) (o : Nat) (v : Byte) : State :=
  let f := s.drawIoFails
  if f.1 then f.2
  else { f.2 with cfImage := Mem.write s.cfImage o v, cfSize := if s.cfSize ≤ o then o + 1 else s.cfSize }

/-! ### Transfers -/

/-- `cf_pos <- cf_pos + 1`; the 512th data access ends the transfer (R206). -/
def State.cfAdvance (s : State) : State :=
  if s.cfPos + 1 = cfSector then { s with cfMode := .idle, cfPos := 0 } else { s with cfPos := s.cfPos + 1 }

/-- `CfDataRead()` (R197). -/
def State.cfDataRead (s : State) : Byte × State :=
  if s.cfMode = .read then
    let r := s.imageRead (s.cfBase + s.cfPos)
    (r.1, r.2.cfAdvance)
  else (0x00, s)

/-- `CfDataWrite(v)` (R198). -/
def State.cfDataWrite (s : State) (v : Byte) : State :=
  if s.cfMode = .write then (s.imageWrite (s.cfBase + s.cfPos) v).cfAdvance else s

/-- A command 0x20 or 0x30 (R204): with an image attached, seek and stage a transfer. -/
def State.cfStage (s : State) (m : CfMode) : State :=
  if s.cfPresent then
    { s with cfBase := (cfLbaOf s.cfLba).toNat * cfSector, cfPos := 0, cfMode := m }
  else s

/-- `CfCommand(v)` (R204). -/
def State.cfCommand (s : State) (v : Byte) : State :=
  if v = 0x20 then s.cfStage .read else if v = 0x30 then s.cfStage .write else s

/-- `CfStatus()` (R203). -/
def State.cfStatus (s : State) : Byte × State := (cfStatusByte s.cfPresent s.cfMode, s)

/-- The image handle is closed (R212, R219, R228). -/
def State.cfClose (s : State) : State := { s with cfPresent := false, cfMode := .idle, cfPos := 0 }

/-- `CfAttach(image, size)` (R228). -/
def State.cfOpen (s : State) (image : List Host.Cell) (size : Nat) : State :=
  { s with cfImage := Mem.ofCells size image, cfSize := size, cfPresent := true, cfMode := .idle, cfPos := 0 }

/-- `cf_lba[i] <- v` (R202). -/
def State.setCfLba (s : State) (i : Fin 4) (v : Byte) : State := { s with cfLba := s.cfLba.set i.val v i.isLt }

/-! ### The rows -/

/-- CF_DATA_RD (R197). -/
def execCfDataRd (s : State) : Result := busStep s fun s => State.finishRead tIo s.cfDataRead

/-- CF_DATA_WR (R198). -/
def execCfDataWr (v : Byte) (s : State) : Result := busStep s fun s => (s.cfDataWrite v).tick tIo

/-- CF_ERR_RD (R199): always 0x00. -/
def execCfErrRd (s : State) : Result := busStep s fun s => State.finishRead tIo (0x00, s)

/-- CF_FEAT_WR (R200). -/
def execCfFeatWr (v : Byte) (s : State) : Result := busStep s fun s => State.tick { s with cfFeat := v } tIo

/-- CF_COUNT_RD (R201). -/
def execCfCountRd (s : State) : Result := busStep s fun s => State.finishRead tIo (s.cfCount, s)

/-- CF_COUNT_WR (R202). -/
def execCfCountWr (v : Byte) (s : State) : Result := busStep s fun s => State.tick { s with cfCount := v } tIo

/-- CF_LBA0_RD (R201). -/
def execCfLba0Rd (s : State) : Result := busStep s fun s => State.finishRead tIo (s.cfLba[0], s)

/-- CF_LBA0_WR (R202). -/
def execCfLba0Wr (v : Byte) (s : State) : Result := busStep s fun s => (s.setCfLba 0 v).tick tIo

/-- CF_LBA1_RD (R201). -/
def execCfLba1Rd (s : State) : Result := busStep s fun s => State.finishRead tIo (s.cfLba[1], s)

/-- CF_LBA1_WR (R202). -/
def execCfLba1Wr (v : Byte) (s : State) : Result := busStep s fun s => (s.setCfLba 1 v).tick tIo

/-- CF_LBA2_RD (R201). -/
def execCfLba2Rd (s : State) : Result := busStep s fun s => State.finishRead tIo (s.cfLba[2], s)

/-- CF_LBA2_WR (R202). -/
def execCfLba2Wr (v : Byte) (s : State) : Result := busStep s fun s => (s.setCfLba 2 v).tick tIo

/-- CF_LBA3_RD (R201): the full stored byte. -/
def execCfLba3Rd (s : State) : Result := busStep s fun s => State.finishRead tIo (s.cfLba[3], s)

/-- CF_LBA3_WR (R202). -/
def execCfLba3Wr (v : Byte) (s : State) : Result := busStep s fun s => (s.setCfLba 3 v).tick tIo

/-- CF_STATUS_RD (R203). -/
def execCfStatusRd (s : State) : Result := busStep s fun s => State.finishRead tIo s.cfStatus

/-- CF_CMD_READ (R204, command 0x20). -/
def execCfCmdRead (s : State) : Result := busStep s fun s => (s.cfStage .read).tick tIo

/-- CF_CMD_WRITE (R204, command 0x30). -/
def execCfCmdWrite (s : State) : Result := busStep s fun s => (s.cfStage .write).tick tIo

/-- CF_CMD_OTHER (R204): accepted, no effect; a pending transfer continues. -/
def execCfCmdOther (_v : Byte) (s : State) : Result := busStep s fun s => s.tick tIo

/-- CF_ATTACH (R228). -/
def execCfAttach (image : List Host.Cell) (size : Nat) (s : State) : Result :=
  hostStep s fun s => s.cfOpen image size

/-- CF_DETACH (R228). -/
def execCfDetach (s : State) : Result := hostStep s fun s => s.cfClose

end Sys2Proof.Machine
end

