-- ==== Sys2Proof/Machine/Uart.lean ====
section
/-! DEFINITION. The dual-channel UART (45_uart R183 to R194) and its ports 0x80 to 0x83. -/

namespace Sys2Proof.Machine

/-- `rxq[ch]` (R45). -/
def State.rxq (s : State) : Channel → List Byte
  | .a => s.rxqA
  | .b => s.rxqB

/-- `rxq[ch] <- q`. -/
def State.setRxq (s : State) (ch : Channel) (q : List Byte) : State :=
  match ch with
  | .a => { s with rxqA := q }
  | .b => { s with rxqB := q }

/-- `UartStatus(ch)` (R184). -/
def State.uartStatus (s : State) (ch : Channel) : Byte × State := (uartStatusByte (s.rxq ch), s)

/-- `UartDataRead(ch)` (R186): the oldest byte, or 0x00 when none has been delivered. -/
def State.uartDataRead (s : State) (ch : Channel) : Byte × State :=
  match s.rxq ch with
  | [] => (0x00, s)
  | v :: q => (v, s.setRxq ch q)

/-- `UartCtrlWrite(ch, v)` (R185): accepted and discarded. -/
def State.uartCtrlWrite (s : State) (_ch : Channel) (_v : Byte) : State := s

/-- `UartDataWrite(ch, v)` (R187). -/
def State.uartDataWrite (s : State) (ch : Channel) (v : Byte) : State := s.emit (.uartTx ch v)

/-- The terminal delivers a byte (R226). -/
def State.uartPush (s : State) (ch : Channel) (v : Byte) : State := s.setRxq ch (s.rxq ch ++ [v])

/-- UART_A_CTRL_RD (R184). -/
def execUartACtrlRd (s : State) : Result := busStep s fun s => State.finishRead tIo (s.uartStatus .a)

/-- UART_A_CTRL_WR (R185). -/
def execUartACtrlWr (v : Byte) (s : State) : Result := busStep s fun s => (s.uartCtrlWrite .a v).tick tIo

/-- UART_A_DATA_RD (R186). -/
def execUartADataRd (s : State) : Result := busStep s fun s => State.finishRead tIo (s.uartDataRead .a)

/-- UART_A_DATA_WR (R187). -/
def execUartADataWr (v : Byte) (s : State) : Result := busStep s fun s => (s.uartDataWrite .a v).tick tIo

/-- UART_B_CTRL_RD (R184). -/
def execUartBCtrlRd (s : State) : Result := busStep s fun s => State.finishRead tIo (s.uartStatus .b)

/-- UART_B_CTRL_WR (R185). -/
def execUartBCtrlWr (v : Byte) (s : State) : Result := busStep s fun s => (s.uartCtrlWrite .b v).tick tIo

/-- UART_B_DATA_RD (R186). -/
def execUartBDataRd (s : State) : Result := busStep s fun s => State.finishRead tIo (s.uartDataRead .b)

/-- UART_B_DATA_WR (R187). -/
def execUartBDataWr (v : Byte) (s : State) : Result := busStep s fun s => (s.uartDataWrite .b v).tick tIo

/-- UART_RX_PUSH_A (R226). -/
def execUartRxPushA (v : Byte) (s : State) : Result := hostStep s fun s => s.uartPush .a v

/-- UART_RX_PUSH_B (R226). -/
def execUartRxPushB (v : Byte) (s : State) : Result := hostStep s fun s => s.uartPush .b v

end Sys2Proof.Machine
end

