-- ==== Sys2Proof/Machine/VdpPorts.lean ====
section
/-! DEFINITION. The VDP data port, control port and status (42_vdp_ports R125 to R137), as the units behind the port
dispatch. -/

namespace Sys2Proof.Machine

/-- VDP_LATCH_RESET_ON_READ: a status read or data access empties the latch (R134). -/
def State.latchAfterAccess (s : State) : Bool := if s.cfg.latchResetOnRead then false else s.latchFull

/-- `VdpDataWrite(v)` (R125). -/
def State.vdpDataWrite (s : State) (v : Byte) : State :=
  { s with vram := Mem.write s.vram s.ptr.toNat v, ptr := s.ptr + 1, latchFull := s.latchAfterAccess }

/-- `VdpDataRead()` (R126): the byte at the pointer now, no read-ahead (R127). -/
def State.vdpDataRead (s : State) : Byte × State :=
  (Mem.read s.vram s.ptr.toNat, { s with ptr := s.ptr + 1, latchFull := s.latchAfterAccess })

/-- The second byte of a control pair acts: a register write (R130) or a pointer set (R131). -/
def State.vdpPair (s : State) (second first : Byte) : State :=
  if pairIsReg second then { s with reg := Regs.set3 s.reg (pairReg second) first }
  else { s with ptr := pairPtr second first }

/-- `VdpCtrlWrite(v)` (R128). -/
def State.vdpCtrlWrite (s : State) (v : Byte) : State :=
  if s.latchFull = false then { s with latchByte := v, latchFull := true }
  else State.vdpPair { s with latchFull := false } v s.latchByte

/-- `VdpStatusRead()` (R133). -/
def State.vdpStatusRead (s : State) : Byte × State :=
  let low := s.drawStatusLow
  (statusByte s.flagF low.1,
    { low.2 with status := statusClearF s.status, latchFull := s.latchAfterAccess })

end Sys2Proof.Machine
end

