-- ==== Sys2Proof/Machine/IoDispatch.lean ====
section
/-! DEFINITION. The port dispatch (41_io_dispatch R115 to R124): IOREAD and IOWRITE of any port in any configuration,
the paging port, the VDP port rows and the unmapped rows, and a whole bus transaction of the CPU Core. -/

namespace Sys2Proof.Machine

/-- What an IOREAD of a port reads, with the unit's side effect (R116). A read of the paging port is unmapped (R121). -/
def State.portRead (s : State) (p : Port) : Byte × State :=
  match portUnit s.cfg p with
  | .vdpData => s.vdpDataRead
  | .vdpCtrl => s.vdpStatusRead
  | .uartCtrl ch => s.uartStatus ch
  | .uartData ch => s.uartDataRead ch
  | .cfData => s.cfDataRead
  | .cfErrFeat => (0x00, s)
  | .cfCount => (s.cfCount, s)
  | .cfLba i => (s.cfLba[i.val]'i.isLt, s)
  | .cfStatusCmd => s.cfStatus
  | .page => s.drawUnmapped
  | .unmapped => s.drawUnmapped

/-- `PageWrite(v)` (R118, R119): exactly the value 1 disables the ROM. -/
def State.pageWrite (s : State) (v : Byte) : State := { s with paged := decide (v = 0x01) }

/-- What an IOWRITE to a port does to the unit (R117); a port of no unit changes nothing (R122). -/
def State.portWrite (s : State) (p : Port) (v : Byte) : State :=
  match portUnit s.cfg p with
  | .vdpData => s.vdpDataWrite v
  | .vdpCtrl => s.vdpCtrlWrite v
  | .page => s.pageWrite v
  | .uartCtrl ch => s.uartCtrlWrite ch v
  | .uartData ch => s.uartDataWrite ch v
  | .cfData => s.cfDataWrite v
  | .cfErrFeat => { s with cfFeat := v }
  | .cfCount => { s with cfCount := v }
  | .cfLba i => s.setCfLba i v
  | .cfStatusCmd => s.cfCommand v
  | .unmapped => s

/-- IOREAD of a decoded port (R116). -/
def State.ioRead (s : State) (p : Port) : State := State.finishRead tIo (s.portRead p)

/-- IOWRITE to a decoded port (R117). -/
def State.ioWrite (s : State) (p : Port) (v : Byte) : State := (s.portWrite p v).tick tIo

/-- One bus transaction of the CPU Core (R83, R85). -/
def State.busTxn (s : State) : Txn → State
  | .fetch a => s.busFetch a
  | .mread a => s.busMread a
  | .mwrite a v => s.busMwrite a v
  | .ioread port => s.ioRead (decodedPort port)
  | .iowrite port v => s.ioWrite (decodedPort port) v

/-! ### The rows -/

/-- PAGE_ON (R118). -/
def execPageOn (s : State) : Result := busStep s fun s => State.tick { s with paged := true } tIo

/-- PAGE_OFF (R119): every value but 1. -/
def execPageOff (_v : Byte) (s : State) : Result := busStep s fun s => State.tick { s with paged := false } tIo

/-- PAGE_RD (R121): the paging port is not readable. -/
def execPageRd (s : State) : Result := busStep s fun s => State.finishRead tIo s.drawUnmapped

/-- VDP_DATA_WR (R125): port 0x98, the VDP's data port where the configuration puts it there. -/
def execVdpDataWr (v : Byte) (s : State) : Result := busStep s fun s => s.ioWrite 0x98 v

/-- VDP_DATA_RD (R126): port 0x98. -/
def execVdpDataRd (s : State) : Result := busStep s fun s => s.ioRead 0x98

/-- VDP_CTRL_WR (R128): port 0x99. -/
def execVdpCtrlWr (v : Byte) (s : State) : Result := busStep s fun s => s.ioWrite 0x99 v

/-- VDP_STATUS_RD (R133): port 0x99. -/
def execVdpStatusRd (s : State) : Result := busStep s fun s => s.ioRead 0x99

/-- VDP_DATA_WR_DBG (R125): port 0x40, the VDP's data port in the debugger variant. -/
def execVdpDataWrDbg (v : Byte) (s : State) : Result := busStep s fun s => s.ioWrite 0x40 v

/-- VDP_DATA_RD_DBG (R126): port 0x40. -/
def execVdpDataRdDbg (s : State) : Result := busStep s fun s => s.ioRead 0x40

/-- VDP_CTRL_WR_DBG (R128): port 0x41. -/
def execVdpCtrlWrDbg (v : Byte) (s : State) : Result := busStep s fun s => s.ioWrite 0x41 v

/-- VDP_STATUS_RD_DBG (R133): port 0x41. -/
def execVdpStatusRdDbg (s : State) : Result := busStep s fun s => s.ioRead 0x41

/-- UNMAPPED_READ (R121): a port without a row of its own, through the dispatch of the configuration. -/
def execUnmappedRead (p : Port) (s : State) : Result := busStep s fun s => s.ioRead p

/-- UNMAPPED_WRITE (R122): a port without a row of its own, through the dispatch of the configuration. -/
def execUnmappedWrite (p : Port) (v : Byte) (s : State) : Result := busStep s fun s => s.ioWrite p v

end Sys2Proof.Machine
end

