-- ==== Sys2Proof/Machine/Render.lean ====
section
/-! DEFINITION. The row renderer and its pixel-format decoders (44_vdp_render R150 to R182): a function of the mode
registers, VRAM, the row number and the parameter SPRITE_Y_OFFSET (R177). -/

namespace Sys2Proof.Machine

/-- `VRead(a)`, every VRAM read of the renderer (R10, R180). -/
def vread (vram : Mem) (a : Nat) : Byte := Mem.read vram (a % vramSize)

/-- `bit(p, i) = p[7 - i]`, pixel `i` of a pattern byte, 0 leftmost (R101). -/
def patternBit (p : Byte) (i : Nat) : Bool := p.getLsbD (7 - i)

/-- `Col(c)`: colour 0 shows the backdrop (R102, R154). -/
def Regs.col (r : Regs) (c : Colour) : Colour := if c = 0 then r.backdrop else c

/-- Bits 7..4 of a colour byte (R102). -/
def colourHi (b : Byte) : Colour := b.extractLsb' 4 4

/-- Bits 3..0 of a colour byte (R102). -/
def colourLo (b : Byte) : Colour := b.extractLsb' 0 4

/-! ### Background pixels -/

/-- `TextPixel(c, y)` (R155). -/
def textPixel (r : Regs) (vram : Mem) (c y : Nat) : Colour :=
  let n := (vread vram (r.nameBase + (y / 8) * 40 + c / 6)).toNat
  let p := vread vram (r.patternBase + n * 8 + y % 8)
  r.col (if patternBit p (c % 6) then r.textColour else r.backdrop)

/-- `BgPixel(GRAPHICS1, x, y)` (R157). -/
def graphics1Pixel (r : Regs) (vram : Mem) (x y : Nat) : Colour :=
  let n := (vread vram (r.nameBase + (y / 8) * 32 + x / 8)).toNat
  let p := vread vram (r.patternBase + n * 8 + y % 8)
  let cb := vread vram (r.colourBase + n / 8)
  r.col (if patternBit p (x % 8) then colourHi cb else colourLo cb)

/-- `BgPixel(GRAPHICS2, x, y)` (R159). -/
def graphics2Pixel (r : Regs) (vram : Mem) (x y : Nat) : Colour :=
  let b := y / 64
  let n := (vread vram (r.nameBase + (y / 8) * 32 + x / 8)).toNat
  let p := vread vram (r.patternBase2 + b * 0x800 + n * 8 + y % 8)
  let cb := vread vram (r.colourBase2 + b * 0x800 + n * 8 + y % 8)
  r.col (if patternBit p (x % 8) then colourHi cb else colourLo cb)

/-- `BgPixel(MULTICOLOR, x, y)` (R161). -/
def multicolorPixel (r : Regs) (vram : Mem) (x y : Nat) : Colour :=
  let row := y / 8
  let n := (vread vram (r.nameBase + row * 32 + x / 8)).toNat
  let p := vread vram (r.patternBase + n * 8 + (row % 4) * 2 + (y / 4) % 2)
  r.col (if x % 8 < 4 then colourHi p else colourLo p)

/-! ### Sprites -/

/-- H, the sprite's pattern size (R164). -/
def Regs.spriteH (r : Regs) : Nat := if r.size16 then 16 else 8

/-- M, the magnification (R164). -/
def Regs.spriteM (r : Regs) : Nat := if r.mag then 2 else 1

/-- S = H * M, the size on screen (R164). -/
def Regs.spriteS (r : Regs) : Nat := r.spriteH * r.spriteM

/-- Byte `k` of attribute entry `i` (R98). -/
def spriteAttr (r : Regs) (vram : Mem) (i k : Nat) : Byte := vread vram (r.spriteAttrBase + 4 * i + k)

/-- `dy_i = (y - Y_i - SPRITE_Y_OFFSET) mod 256` (R166). -/
def spriteDy (r : Regs) (vram : Mem) (yoff y i : Nat) : Nat :=
  (((y : Int) - (spriteAttr r vram i 0).toNat - yoff) % 256).toNat

/-- Sprite `i` covers active line `y` (R166). -/
def spriteCovers (r : Regs) (vram : Mem) (yoff y i : Nat) : Bool :=
  decide (spriteDy r vram yoff y i < r.spriteS)

/-- The scan of the attribute table (R165, R167, R174): stop at Y = 0xD0 or at a fifth covering entry. -/
def spriteScan (r : Regs) (vram : Mem) (yoff y : Nat) : List Nat → List Nat → List Nat
  | [], vis => vis
  | i :: is, vis =>
    if spriteAttr r vram i 0 = 0xD0 then vis
    else if spriteCovers r vram yoff y i then
      if vis.length = 4 then vis else spriteScan r vram yoff y is (vis ++ [i])
    else spriteScan r vram yoff y is vis

/-- The visible sprites of active line `y`, in table order (R167). -/
def visibleSprites (r : Regs) (vram : Mem) (yoff y : Nat) : List Nat :=
  spriteScan r vram yoff y (List.range 32) []

/-- `SpriteBit(i, k, q)` (R168). -/
def spriteBit (r : Regs) (vram : Mem) (i k q : Nat) : Bool :=
  let name := spriteAttr r vram i 2
  if r.size16 then
    let n := (name &&& 0xFC).toNat
    patternBit (vread vram (r.spritePatBase + n * 8 + (if 8 ≤ q then 16 else 0) + k)) (q % 8)
  else
    patternBit (vread vram (r.spritePatBase + name.toNat * 8 + k)) q

/-- EC_i, attribute byte 3 bit 7 (R98). -/
def spriteEc (r : Regs) (vram : Mem) (i : Nat) : Bool := (spriteAttr r vram i 3).getLsbD 7

/-- C_i, attribute byte 3 bits 3..0 (R172). -/
def spriteColour (r : Regs) (vram : Mem) (i : Nat) : Colour := (spriteAttr r vram i 3).extractLsb' 0 4

/-- `x0_i = X_i - (EC_i ? 32 : 0)`, signed (R170). -/
def spriteX0 (r : Regs) (vram : Mem) (i : Nat) : Int :=
  ((spriteAttr r vram i 1).toNat : Int) - (if spriteEc r vram i then 32 else 0)

/-- A canvas row. -/
abbrev Row := Vector Colour 320

/-- Column `j` of sprite `i` on active line `y` is painted into the row (R174), clipped to 0..255 (R171). -/
def paintSpriteColumn (r : Regs) (vram : Mem) (yoff y i : Nat) (row : Row) (j : Nat) : Row :=
  let x := spriteX0 r vram i + j
  if 0 ≤ x ∧ x ≤ 255 ∧ spriteBit r vram i (spriteDy r vram yoff y i / r.spriteM) (j / r.spriteM) = true then
    row.setIfInBounds (32 + x.toNat) (spriteColour r vram i)
  else row

/-- Sprite `i` is painted into the row; colour 0 paints nothing (R172). -/
def paintSprite (r : Regs) (vram : Mem) (yoff y : Nat) (row : Row) (i : Nat) : Row :=
  if spriteColour r vram i = 0 then row
  else (List.range r.spriteS).foldl (paintSpriteColumn r vram yoff y i) row

/-- `SpriteLayer` (R174): highest index first, so that the lowest index, painted last, wins (R173). -/
def spriteLayer (r : Regs) (vram : Mem) (yoff y : Nat) (row : Row) : Row :=
  (visibleSprites r vram yoff y).reverse.foldl (paintSprite r vram yoff y) row

/-! ### Rows -/

/-- A row whose canvas columns `left .. left + width - 1` hold `f 0, f 1, …` and whose others hold the backdrop
(R100, R152). -/
def windowRow (r : Regs) (left width : Nat) (f : Nat → Colour) : Row :=
  Vector.ofFn fun c => if left ≤ c.val ∧ c.val < left + width then f (c.val - left) else r.backdrop

/-- A row of backdrop (R152). -/
def backdropRow (r : Regs) : Row := Vector.replicate 320 r.backdrop

/-- The pixels `RenderRow(row)` stores (R151). -/
def rowPixels (yoff : Nat) (r : Regs) (vram : Mem) (row : Nat) : Row :=
  if r.displayOn = false then backdropRow r
  else if row < 24 ∨ 216 ≤ row then backdropRow r
  else
    let y := row - 24
    match r.mode with
    | .text => windowRow r 40 240 fun c => textPixel r vram c y
    | .multicolor => spriteLayer r vram yoff y (windowRow r 32 256 fun x => multicolorPixel r vram x y)
    | .graphics2 => spriteLayer r vram yoff y (windowRow r 32 256 fun x => graphics2Pixel r vram x y)
    | .graphics1 => spriteLayer r vram yoff y (windowRow r 32 256 fun x => graphics1Pixel r vram x y)

/-- `RenderRow(row)` (R151): it writes `fb[row]` and nothing else (R178). -/
def State.renderRow (s : State) (row : Nat) : State :=
  { s with fb := s.fb.setIfInBounds row (rowPixels s.cfg.spriteYOffset s.reg s.vram row) }

/-- `fb[r][c]`, where the canvas has such a pixel. -/
def State.pixel? (s : State) (r c : Nat) : Option Colour := (s.fb[r]?).bind fun row => row[c]?

/-- `redrawFrame()` (R223): rows 0 to 239. -/
def State.redraw (s : State) : State := (List.range visibleRows).foldl State.renderRow s

end Sys2Proof.Machine
end

