-- ==== Sys2Proof/Machine/Raster.lean ====
section
/-! DEFINITION. The raster sequencer (43_vdp_raster R138 to R149). -/

namespace Sys2Proof.Machine

/-- TOTAL_ROWS of the configuration (R142). -/
def State.totalRows (s : State) : Nat := s.cfg.videoStd.totalRows

/-- ROW_NS of the configuration (R142). -/
def State.rowNs (s : State) : Rat := s.cfg.videoStd.rowNs

/-- `line < 240`: render the row the counter stands on (R139). -/
def State.renderLine (s : State) : State := if s.line < visibleRows then s.renderRow s.line else s

/-- `line <- line + 1`, and on wraparound `line <- 0`, F is set and Vsync is emitted (R139, R140). -/
def State.nextLine (s : State) : State :=
  if s.line + 1 = s.totalRows then { s with line := 0, status := statusSetF s.status }.emit .vsync
  else { s with line := s.line + 1 }

/-- `RowStep()` (R139). -/
def State.rowStep (s : State) : State := s.renderLine.nextLine

/-- The loop of `RasterAdvance` (R138), with the number of rows the accumulated time holds as its fuel. -/
def State.rasterLoop : Nat → State → State
  | 0, s => s
  | n + 1, s =>
    if s.rowNs ≤ s.accNs then State.rasterLoop n (State.rowStep { s with accNs := s.accNs - s.rowNs }) else s

/-- `RasterAdvance(dns)` (R138). -/
def State.rasterAdvance (s : State) (dns : Rat) : State :=
  let s1 := { s with accNs := s.accNs + dns }
  State.rasterLoop (s1.accNs / s1.rowNs).floor.toNat s1

/-- The checkpoint of the governor and of the per-instruction debugger (R216, R220): the raster is given the
simulated time since `gov_mark`. -/
def State.checkpoint (s : State) : State :=
  State.rasterAdvance { s with govMark := s.tstates } (((s.tstates : Rat) - (s.govMark : Rat)) * s.cfg.clockPeriodNs)

/-- RASTER_ADVANCE (R138). In the debugger variant with DEBUGGER_ADVANCES_VIDEO = never it is never issued (R220). -/
def execRasterAdvance (dns : Rat) (s : State) : Result :=
  if s.cfg.variant = .debugger ∧ s.cfg.debuggerVideo = .never then .refused .rasterNeverAdvances
  else hostStep s fun s => s.rasterAdvance dns

/-- REDRAW_FRAME (R223). -/
def execRedrawFrame (s : State) : Result := hostStep s fun s => s.redraw

end Sys2Proof.Machine
end

