-- ==== Sys2Proof/Machine/Governor.lean ====
section
/-! DEFINITION. The clock governor, the debugger variant's instruction step, reset and the CPU Core's whole
instructions (47_governor_host R215 to R222, 60_exceptions R229 to R236). -/

namespace Sys2Proof.Machine

/-! ### Whole CPU instructions -/

/-- Transactions in program order (R236). -/
def State.busTxns (s : State) (ts : List Txn) : State := ts.foldl State.busTxn s

/-- An interrupt acknowledge between instructions, with the transactions of its acceptance: it happens only while the
VDP requests an interrupt (R232, R234, R236). -/
def State.acceptInterrupt (s : State) (ack : Option (List Txn)) : State :=
  match ack with
  | none => s
  | some ts => if s.vdpInt then s.intAckCycle.busTxns ts else s

/-- The opcode fetch every instruction starts with, and its other transactions in order (R236). -/
def State.instrTxns (s : State) (opcode : Addr) (rest : List Txn) : State := (s.busTxn (.fetch opcode)).busTxns rest

/-- CPU_EXTRA_TSTATES, where the CPU Core reports them (R110; log entry 22). -/
def State.addExtra (s : State) (extra : Nat) : State := if s.cfg.cpuReportsExtra then s.tick extra else s

/-- `CpuInstruction()` (R110, R216): one whole instruction of the CPU Core, or its internal failure (R229), which may
come right after an acknowledge or inside an instruction. An acknowledge between two instructions of a batch stands with
the later one, after the loop's test of R216: the spec says only "between instructions" (DESIGN CHOICE, log entry 27). -/
def State.cpuInstruction (s : State) : CpuInstr → State
  | .runs ack opcode rest extra => ((s.acceptInterrupt ack).instrTxns opcode rest).addExtra extra
  | .fails ack none extra => ((s.acceptInterrupt ack).addExtra extra).raise .cpuCoreFailure
  | .fails ack (some (opcode, rest)) extra =>
    (((s.acceptInterrupt ack).instrTxns opcode rest).addExtra extra).raise .cpuCoreFailure

/-- The loop of `GovIteration` (R216). An instruction the operands do not list is a free value (log entry 5). Every
instruction that does not fail counts at least one opcode fetch, so `target - tstates` is fuel enough. -/
def State.govLoop (target : Nat) : Nat → List CpuInstr → State → State
  | 0, _, s => s
  | n + 1, cpu, s =>
    if s.tstates < target ∧ s.fault = none then
      match cpu with
      | [] => State.govLoop target n [] (s.drawn.cpuInstruction (Config.cpuInstr s.draws))
      | c :: cs => State.govLoop target n cs (s.cpuInstruction c)
    else s

/-- A batch's raster advance, left out when the CPU Core has failed (R216). -/
def State.endBatch (s : State) : State :=
  match s.fault with
  | none => s.checkpoint
  | some _ => s

/-- `GovIteration(target)` of a running governor (R216). -/
def State.govIteration (s : State) (target : Nat) (cpu : List CpuInstr) : State :=
  (State.govLoop target (target - s.tstates) cpu s).endBatch

/-- The debugger variant's step of one CPU instruction (R220): the governor's step with a batch of exactly one
instruction, its raster advance only with DEBUGGER_ADVANCES_VIDEO = per_instruction. -/
def State.debuggerInstr (s : State) (c : CpuInstr) : State :=
  match s.cfg.debuggerVideo with
  | .never => s.cpuInstruction c
  | .perInstruction => (s.cpuInstruction c).endBatch

/-! ### Reset -/

/-- `Reset()` (R221). -/
def State.resetOp (s : State) : State :=
  { s with
    reg := Vector.replicate 8 0, status := 0, latchFull := false, latchByte := 0, ptr := 0
    line := 0, accNs := 0, fb := Vector.replicate 240 (Vector.replicate 320 0)
    vram := if s.cfg.vramClearedOnReset then [] else s.vram
    paged := if s.cfg.pagedClearedOnReset then false else s.paged
    tstates := 0, govMark := 0
    cfMode := .idle, cfPos := 0, cfBase := 0 }

/-! ### The rows -/

/-- GOV_ITERATION (R216). Once the fault is set it runs no instruction and advances no raster (R229). -/
def execGovIteration (target : Nat) (cpu : List CpuInstr) (s : State) : Result :=
  if s.cfg.variant = .debugger then .refused .noGovernorInDebugger
  else if s.govRunning = false then .refused .governorNotRunning
  else .next (s.govIteration target cpu)

/-- GOV_START (R217). -/
def execGovStart (s : State) : Result :=
  if s.cfg.variant = .debugger then .refused .noGovernorInDebugger
  else hostStep s fun s => if s.govRunning then s else { s with govRunning := true, govMark := s.tstates }

/-- GOV_STOP (R219): the CF handle is closed too. -/
def execGovStop (s : State) : Result :=
  if s.cfg.variant = .debugger then .refused .noGovernorInDebugger
  else hostStep s fun s => State.cfClose { s with govRunning := false }

/-- RESET (R221). -/
def execReset (s : State) : Result := hostStep s fun s => s.resetOp

end Sys2Proof.Machine
end

