-- ==== Sys2Proof/Machine/HostOps.lean ====
section
/-! DEFINITION. The host's raw accessors (47_governor_host R224, R225, R227; 20_memory R80): they bypass the ROM
overlay, the latch and the pointer and cost no t-states. The four reads stay possible after a fault (R229). -/

namespace Sys2Proof.Machine

/-- HOST_RAM_READ (R224). -/
def execHostRamRead (a : Addr) (s : State) : Result := .next (s.reply (.host (Mem.read s.ram a.toNat)))

/-- HOST_RAM_WRITE (R224). -/
def execHostRamWrite (a : Addr) (v : Byte) (s : State) : Result :=
  hostStep s fun s => { s with ram := Mem.write s.ram a.toNat v }

/-- HOST_VRAM_READ (R225). -/
def execHostVramRead (a : VAddr) (s : State) : Result := .next (s.reply (.host (Mem.read s.vram a.toNat)))

/-- HOST_VRAM_WRITE (R225). -/
def execHostVramWrite (a : VAddr) (v : Byte) (s : State) : Result :=
  hostStep s fun s => { s with vram := Mem.write s.vram a.toNat v }

/-- HOST_REG_READ (R225). -/
def execHostRegRead (i : BitVec 3) (s : State) : Result := .next (s.reply (.host (Regs.get3 s.reg i)))

/-- HOST_REG_WRITE (R225). -/
def execHostRegWrite (i : BitVec 3) (v : Byte) (s : State) : Result :=
  hostStep s fun s => { s with reg := Regs.set3 s.reg i v }

/-- HOST_FB_READ (R227): a coordinate out of range is refused. -/
def execHostFbRead (r c : Nat) (s : State) : Result :=
  match s.pixel? r c with
  | some col => .next (s.reply (.pixel col))
  | none => .refused .pixelOutOfRange

end Sys2Proof.Machine
end

