-- ==== Sys2Proof/Machine/Dispatch.lean ====
section
/-! DEFINITION. The dispatch of an instruction to its meaning: one arm per constructor of `Instr`. -/

namespace Sys2Proof.Machine

def exec (i : Instr) (s : State) : Host.Outcome State Fault Refusal :=
  match i with
  | .fetch a => Sys2Proof.Machine.execFetch a s
  | .mread a => Sys2Proof.Machine.execMread a s
  | .mwrite a v => Sys2Proof.Machine.execMwrite a v s
  | .cfDataRd => Sys2Proof.Machine.execCfDataRd s
  | .cfDataWr v => Sys2Proof.Machine.execCfDataWr v s
  | .cfErrRd => Sys2Proof.Machine.execCfErrRd s
  | .cfFeatWr v => Sys2Proof.Machine.execCfFeatWr v s
  | .cfCountRd => Sys2Proof.Machine.execCfCountRd s
  | .cfCountWr v => Sys2Proof.Machine.execCfCountWr v s
  | .cfLba0Rd => Sys2Proof.Machine.execCfLba0Rd s
  | .cfLba0Wr v => Sys2Proof.Machine.execCfLba0Wr v s
  | .cfLba1Rd => Sys2Proof.Machine.execCfLba1Rd s
  | .cfLba1Wr v => Sys2Proof.Machine.execCfLba1Wr v s
  | .cfLba2Rd => Sys2Proof.Machine.execCfLba2Rd s
  | .cfLba2Wr v => Sys2Proof.Machine.execCfLba2Wr v s
  | .cfLba3Rd => Sys2Proof.Machine.execCfLba3Rd s
  | .cfLba3Wr v => Sys2Proof.Machine.execCfLba3Wr v s
  | .cfStatusRd => Sys2Proof.Machine.execCfStatusRd s
  | .cfCmdRead => Sys2Proof.Machine.execCfCmdRead s
  | .cfCmdWrite => Sys2Proof.Machine.execCfCmdWrite s
  | .cfCmdOther v => Sys2Proof.Machine.execCfCmdOther v s
  | .pageOn => Sys2Proof.Machine.execPageOn s
  | .pageOff v => Sys2Proof.Machine.execPageOff v s
  | .pageRd => Sys2Proof.Machine.execPageRd s
  | .uartACtrlRd => Sys2Proof.Machine.execUartACtrlRd s
  | .uartACtrlWr v => Sys2Proof.Machine.execUartACtrlWr v s
  | .uartADataRd => Sys2Proof.Machine.execUartADataRd s
  | .uartADataWr v => Sys2Proof.Machine.execUartADataWr v s
  | .uartBCtrlRd => Sys2Proof.Machine.execUartBCtrlRd s
  | .uartBCtrlWr v => Sys2Proof.Machine.execUartBCtrlWr v s
  | .uartBDataRd => Sys2Proof.Machine.execUartBDataRd s
  | .uartBDataWr v => Sys2Proof.Machine.execUartBDataWr v s
  | .vdpDataWr v => Sys2Proof.Machine.execVdpDataWr v s
  | .vdpDataRd => Sys2Proof.Machine.execVdpDataRd s
  | .vdpCtrlWr v => Sys2Proof.Machine.execVdpCtrlWr v s
  | .vdpStatusRd => Sys2Proof.Machine.execVdpStatusRd s
  | .vdpDataWrDbg v => Sys2Proof.Machine.execVdpDataWrDbg v s
  | .vdpDataRdDbg => Sys2Proof.Machine.execVdpDataRdDbg s
  | .vdpCtrlWrDbg v => Sys2Proof.Machine.execVdpCtrlWrDbg v s
  | .vdpStatusRdDbg => Sys2Proof.Machine.execVdpStatusRdDbg s
  | .unmappedRead p => Sys2Proof.Machine.execUnmappedRead p s
  | .unmappedWrite p v => Sys2Proof.Machine.execUnmappedWrite p v s
  | .rasterAdvance dns => Sys2Proof.Machine.execRasterAdvance dns s
  | .redrawFrame => Sys2Proof.Machine.execRedrawFrame s
  | .reset => Sys2Proof.Machine.execReset s
  | .govIteration target cpu => Sys2Proof.Machine.execGovIteration target cpu s
  | .govStop => Sys2Proof.Machine.execGovStop s
  | .govStart => Sys2Proof.Machine.execGovStart s
  | .hostRamRead a => Sys2Proof.Machine.execHostRamRead a s
  | .hostRamWrite a v => Sys2Proof.Machine.execHostRamWrite a v s
  | .hostVramRead a => Sys2Proof.Machine.execHostVramRead a s
  | .hostVramWrite a v => Sys2Proof.Machine.execHostVramWrite a v s
  | .hostRegRead k => Sys2Proof.Machine.execHostRegRead k s
  | .hostRegWrite k v => Sys2Proof.Machine.execHostRegWrite k v s
  | .hostFbRead r c => Sys2Proof.Machine.execHostFbRead r c s
  | .uartRxPushA v => Sys2Proof.Machine.execUartRxPushA v s
  | .uartRxPushB v => Sys2Proof.Machine.execUartRxPushB v s
  | .cfAttach image size => Sys2Proof.Machine.execCfAttach image size s
  | .cfDetach => Sys2Proof.Machine.execCfDetach s

end Sys2Proof.Machine
end

