-- ==== Sys2Proof/Machine/Serve.lean ====
section
/-! DEFINITION. How the block serves a step an agent asks for: a transaction word, the debugger variant's call for one
CPU instruction, or an interrupt acknowledge (00_scope R8, R14; 20_memory R73; 30_encoding R90; 47_governor_host R220;
60_exceptions R234, R240). -/

namespace Sys2Proof.Machine

/-- The refusal of a word that is no instruction (R90). -/
def refusalOf : Reject → Refusal
  | .wideWord => .wideWord
  | .reservedKind => .reservedKind
  | .reservedOpCode => .reservedOpCode

/-- A transaction word. A K = 5 operation holds the bus lock (R73). -/
def serveWord (w : Word) (beside : Beside) (locked : Bool) (s : State) : Result :=
  match decode w beside with
  | .error e => .refused (refusalOf e)
  | .ok i =>
    if wordKind w = 5 ∧ locked = false then .refused .lockNotHeld
    else if i.wf then exec i s
    else .refused .illFormedOperands

/-- The debugger variant's call that executes one CPU instruction (R220); at most one call is in flight (R240). -/
def serveDebuggerInstr (c : CpuInstr) (inFlight : Bool) (s : State) : Result :=
  if s.cfg.variant = .machine then .refused .noDebuggerInMachine
  else if inFlight then .refused .concurrentDebuggerCall
  else busStep s fun s => s.debuggerInstr c

/-- The CPU Core's interrupt acknowledge (R234), which it issues only on a request of the VDP (R232). The spec gives no
order between that check and the fault's: the model looks at the fault first, so that after a fault every acknowledge
answers it (DEDUCED, log entry 18). -/
def serveIntAck (s : State) : Result :=
  if s.fault = none ∧ s.vdpInt = false then .refused .noInterruptRequest else busStep s State.intAckCycle

/-- A step an agent asks for, in an admitted configuration (R8). -/
def serve (r : Request) (s : State) : Result :=
  if s.cfg.admissible = false then .refused .inadmissibleConfig
  else
    match r with
    | .word w beside locked => serveWord w beside locked s
    | .debuggerInstr c inFlight => serveDebuggerInstr c inFlight s
    | .intAck => serveIntAck s

end Sys2Proof.Machine
end

