-- ==== Sys2Proof/Machine/Step.lean ====
section
/-! DEFINITION. One step of the block: it serves the next step its agents ask for, in their one total order (20_memory
R72). The block has no step of its own (R14), so without a request it rests. -/

namespace Sys2Proof.Machine

/-- One step. -/
def step (s : State) : Host.Outcome State Fault Refusal :=
  match s.pending with
  | [] => .next s
  | r :: rest => serve r { s with pending := rest }

/-- The state with one transaction word asked for next, the bus lock held and every operand beside the word zero or
empty. -/
def State.withFetchWord (s : State) (nbits w : Nat) : State :=
  { s with pending := .word (BitVec.ofNat 32 (w % 2 ^ nbits)) {} true :: s.pending }

end Sys2Proof.Machine
end

