-- ==== Sys2Proof/Safety.lean ====
section
/-! DEFINITION. The invariant of the block and what its runs are, in the terms the statements use. -/

namespace Sys2Proof.Machine

/-- The three byte stores are in canonical form: main RAM and VRAM within their sizes (R23, R28), the CF image within
`cf_size` (R51). -/
def State.storesWf (s : State) : Bool :=
  Mem.wf s.ram ramSize && Mem.wf s.vram vramSize && Mem.wf s.cfImage s.cfSize

/-- The scanline counter stays below TOTAL_ROWS (R38) and the accumulator below ROW_NS (R39). -/
def State.rasterWf (s : State) : Bool :=
  decide (s.line < s.totalRows) && decide (0 ≤ s.accNs) && decide (s.accNs < s.rowNs)

/-- A transfer is staged only with an image attached (R53), `cf_pos` counts inside a sector and is 0 when idle (R50,
R206), and `cf_base` is a sector's offset below 2^37 (R205). -/
def State.cfWf (s : State) : Bool :=
  decide (s.cfPos < cfSector) && (decide (s.cfMode ≠ .idle) || decide (s.cfPos = 0))
    && (decide (s.cfMode = .idle) || s.cfPresent) && decide (s.cfBase % cfSector = 0) && decide (s.cfBase < 2 ^ 37)

/-- The invariant: the stores, the raster, the task file, the governor's mark behind the counter (R54), and status bits
6..0 never written (R40). -/
def State.inv (s : State) : Bool :=
  s.storesWf && s.rasterWf && s.cfWf && decide (s.govMark ≤ s.tstates) && decide (s.status &&& 0x7F = 0)

/-! ### Terms of the statements -/

/-- The CPU transaction a word of K = 0 to 4 carries (R83, R84), written from the field table alone. -/
def txnOfWord (w : Word) : Txn :=
  match (wordKind w).toNat with
  | 0 => .fetch (wordAddr w)
  | 1 => .mread (wordAddr w)
  | 2 => .mwrite (wordAddr w) (wordData w)
  | 3 => .ioread (wordAddr w)
  | _ => .iowrite (wordAddr w) (wordData w)

/-- T-states of a kind (R85). -/
def kindCost (k : BitVec 3) : Nat :=
  match k.toNat with
  | 0 => 4
  | 1 => 3
  | 2 => 3
  | 3 => 4
  | 4 => 4
  | _ => 0

/-- Instructions executed one after the other, stopping at the first fault or refusal. -/
def execAll : List Instr → State → Result
  | [], s => .next s
  | i :: is, s =>
    match exec i s with
    | .next t => execAll is t
    | .fault f => .fault f
    | .refused r => .refused r

/-- `CfLba() * 512` (R205), in natural numbers. -/
def lbaOffset (s : State) : Nat :=
  ((s.cfLba[3].toNat % 16) * 2 ^ 24 + s.cfLba[2].toNat * 2 ^ 16 + s.cfLba[1].toNat * 2 ^ 8 + s.cfLba[0].toNat) * 512

/-- The next access to the CF image fails: only with CF_IO_FAULTS = any, and then as the next free value says (R207). -/
def State.cfIoDrawFails (s : State) : Bool := s.cfg.cfIoFaults && Config.ioFails s.draws

/-! ### VDP ports, wherever the configuration puts them (R123) -/

/-- The table's row of an I/O write of `v` to port `p`, for a port that is no fixed device's: the VDP row of that number,
else the unmapped row. -/
abbrev ioWriteRow (i : Instr) (p : Port) (v : Byte) : Prop :=
  (i = .vdpDataWr v ∧ p = 0x98) ∨ (i = .vdpCtrlWr v ∧ p = 0x99) ∨ (i = .vdpDataWrDbg v ∧ p = 0x40)
    ∨ (i = .vdpCtrlWrDbg v ∧ p = 0x41) ∨ (i = .unmappedWrite p v ∧ p ∉ writePorts)

/-- The table's row of an I/O read of port `p`, in the same way. -/
abbrev ioReadRow (i : Instr) (p : Port) : Prop :=
  (i = .vdpDataRd ∧ p = 0x98) ∨ (i = .vdpStatusRd ∧ p = 0x99) ∨ (i = .vdpDataRdDbg ∧ p = 0x40)
    ∨ (i = .vdpStatusRdDbg ∧ p = 0x41) ∨ (i = .unmappedRead p ∧ p ∉ readPorts)

/-! ### One CPU instruction, spelled out -/

/-- What an acknowledge before an instruction does: only while the VDP requests an interrupt, one free byte is read, and
the transactions of the acceptance follow (R232, R234; log entry 21). -/
def acknowledged (s : State) : Option (List Txn) → State
  | none => s
  | some ts =>
    if s.vdpInt = true then
      ts.foldl State.busTxn
        { s with draws := s.draws + 1, replies := s.replies ++ [.bus (Config.unmappedRead s.draws)] }
    else s

/-- What one CPU instruction does: the acknowledge, then the opcode fetch and the other transactions in order (R236),
then the extra t-states where CPU_EXTRA_TSTATES is reported (R110); a failing one does so as far as it came, and the
fault is recorded (R229). The form of an instruction is log entry 9, the place of the extra t-states log entry 22. -/
def cpuEffect (s : State) : CpuInstr → State
  | .runs ack opcode rest extra =>
    let t := (Txn.fetch opcode :: rest).foldl State.busTxn (acknowledged s ack)
    { t with tstates := t.tstates + if s.cfg.cpuReportsExtra then extra else 0 }
  | .fails ack begun extra =>
    let issued := begun.elim [] fun b => Txn.fetch b.1 :: b.2
    let t := issued.foldl State.busTxn (acknowledged s ack)
    { t with tstates := t.tstates + (if s.cfg.cpuReportsExtra then extra else 0), fault := some .cpuCoreFailure }

/-! ### Sprites, in arithmetic on the VRAM bytes and the register numbers -/

/-- The VRAM byte at an address mod 16384, as a number. -/
def vramNat (vram : Mem) (a : Nat) : Nat := (Mem.read vram (a % 16384)).toNat

/-- Byte `k` of attribute entry `i`, in the table at R5[6:0] * 128 (R98). -/
def attrNat (r : Regs) (vram : Mem) (i k : Nat) : Nat := vramNat vram ((r[5].toNat % 128) * 128 + 4 * i + k)

/-- The magnification M, from R1 bit 0 (R164). -/
def magNat (r : Regs) : Nat := if r[1].toNat % 2 = 1 then 2 else 1

/-- The on-screen size S = H * M, with H from R1 bit 1 (R164). -/
def sizeNat (r : Regs) : Nat := (if r[1].toNat / 2 % 2 = 1 then 16 else 8) * magNat r

/-- `dy_i = (y - Y_i - SPRITE_Y_OFFSET) mod 256` (R166). -/
def dyNat (r : Regs) (vram : Mem) (yoff y i : Nat) : Nat :=
  (((y : Int) - attrNat r vram i 0 - yoff) % 256).toNat

/-- The pattern bit at pattern row `k` and column `q`, in the table at R6[2:0] * 2048: of an 8 x 8 sprite, or of a 16 x 16
one, whose right half stands 16 bytes on (R99, R168). -/
def patternNat (r : Regs) (vram : Mem) (i k q : Nat) : Nat :=
  if r[1].toNat / 2 % 2 = 1 then
    vramNat vram ((r[6].toNat % 8) * 2048 + (attrNat r vram i 2 / 4 * 4) * 8 + (if 8 ≤ q then 16 else 0) + k)
      / 2 ^ (7 - q % 8) % 2
  else vramNat vram ((r[6].toNat % 8) * 2048 + attrNat r vram i 2 * 8 + k) / 2 ^ (7 - q) % 2

/-- The visible sprites of active line `y`: the first four covering entries before the first Y = 0xD0 (R165 to R167). -/
def spritesOnLine (r : Regs) (vram : Mem) (yoff y : Nat) : List Nat :=
  ((((List.range 32).takeWhile fun i => decide (attrNat r vram i 0 ≠ 0xD0)).filter
    fun i => decide (dyNat r vram yoff y i < sizeNat r)).take 4)

/-- Sprite `i` draws its colour at canvas column `c` of active line `y`, whatever the others do: with its left edge at
X - 32 * EC, the column is in the active window and in the sprite, the sprite's colour is not 0 and its pattern bit is 1
(R168, R170 to R172). -/
def spriteShows (r : Regs) (vram : Mem) (yoff y i c : Nat) : Bool :=
  let j : Int := (c : Int) - 32 - ((attrNat r vram i 1 : Int) - if attrNat r vram i 3 / 128 = 1 then 32 else 0)
  decide (32 ≤ c ∧ c < 288 ∧ 0 ≤ j ∧ j < sizeNat r ∧ attrNat r vram i 3 % 16 ≠ 0
    ∧ patternNat r vram i (dyNat r vram yoff y i / magNat r) (j.toNat / magNat r) = 1)

end Sys2Proof.Machine
end

