-- ==== Sys2Proof/Certificates/Slice0/Obligations.lean ====
section
/-! DEFINITION. The statements for the provers. Where a next state is written as a record update of the state before,
everything the update does not name is unchanged: that is the instruction's frame. In every statement the fields
`replies` (the returned values), `draws` (the number of the next free value) and `pending` (the queue of requests) are
the model's own, with their DESIGN CHOICE entries 4, 6 and 1 of the assumption log. -/

open Sys2Proof Sys2Proof.Machine

/-! ### Encoding -/

/-- Decoding the encoding of a well-formed instruction gives it back, every operand at every value (R84 to R88). -/
def Obligations.DecodeOfEncodeIsIdentity : Prop :=
  ∀ i : Instr, i.wf = true → decode (encode i).1 (encode i).2 = .ok i

/-- A decoded instruction's own word has the kind, the address or port, and the data byte of the word it was decoded
from, the argument byte of the K = 5 rows included that carry one (HOST_RAM_WRITE, HOST_VRAM_WRITE, HOST_REG_WRITE,
UART_RX_PUSH_A and UART_RX_PUSH_B): no bit the row uses is dropped or misplaced (R84, R87, R89). That bits 31..27 of the
container are zero is the model's choice (log entry 2). -/
def Obligations.DecodeKeepsKindAddressAndData : Prop :=
  ∀ (w : Word) (b : Beside) (i : Instr), decode w b = .ok i →
    wordPad w = 0 ∧ wordKind (encode i).1 = wordKind w
    ∧ (wordKind w = 0 ∨ wordKind w = 1 ∨ wordKind w = 2 ∨ wordKind w = 5 → wordAddr (encode i).1 = wordAddr w)
    ∧ (wordKind w = 3 ∨ wordKind w = 4 → wordPort (encode i).1 = wordPort w)
    ∧ (wordKind w = 2 ∨ wordKind w = 4
        ∨ (wordKind w = 5 ∧ (wordAddr w).toNat ∈ [0x11, 0x13, 0x15, 0x20, 0x21]) →
      wordData (encode i).1 = wordData w)

/-- Exactly the words of K = 0 to 4 and of K = 5 with a listed op code are instructions (R87, R90). That a container's
bits 31..27 must be zero is the model's choice (log entry 2). -/
def Obligations.DecodeAcceptsExactlyTheListedWords : Prop :=
  ∀ (w : Word) (b : Beside), (∃ i, decode w b = .ok i) ↔
    wordPad w = 0 ∧ ((wordKind w).toNat ≤ 4 ∨ (wordKind w = 5 ∧ (wordAddr w).toNat ∈
      [0x01, 0x02, 0x03, 0x04, 0x05, 0x06, 0x10, 0x11, 0x12, 0x13, 0x14, 0x15, 0x16, 0x20, 0x21, 0x30, 0x31]))

/-- Words written out from the spec's encodings decode to the instructions they stand for (95_test_vectors B1 to B4,
P1 to P6 and Part 3). -/
def Obligations.SpecWordsDecodeToTheirRows : Prop :=
  decode 0x0000000 {} = .ok (.fetch 0x0000) ∧ decode 0x13FFF00 {} = .ok (.mread 0x3FFF)
  ∧ decode 0x2000077 {} = .ok (.mwrite 0x0000 0x77) ∧ decode 0x4003801 {} = .ok .pageOn
  ∧ decode 0x4129841 {} = .ok (.vdpDataWr 0x41) ∧ decode 0x3003800 {} = .ok .pageRd
  ∧ decode 0x400FE12 {} = .ok (.unmappedWrite 0xFE 0x12) ∧ decode 0x4109900 {} = .ok (.vdpCtrlWr 0x00)
  ∧ decode 0x4001720 {} = .ok .cfCmdRead ∧ decode 0x5002041 {} = .ok (.uartRxPushA 0x41)

/-! ### The step -/

/-- When the next request is a word that decodes to a well-formed instruction, in an admitted configuration and with the
bus lock held where K = 5, the step is the instruction's meaning on the state without that request (R72, R73). The
queue of requests is the model's own (log entry 1), and so are the lock asked of every K = 5 word (log entry 19) and the
admission checked at each request (log entry 11). -/
def Obligations.StepRunsTheDecodedInstruction : Prop :=
  ∀ (s : State) (w : Word) (b : Beside) (locked : Bool) (rest : List Request) (i : Instr),
    s.pending = .word w b locked :: rest → s.cfg.admissible = true → decode w b = .ok i → i.wf = true →
    (wordKind w = 5 → locked = true) → step s = exec i { s with pending := rest }

/-- What the step refuses before any meaning: a configuration that is not admitted (R8), a reserved word (R90), and a
K = 5 operation without the bus lock. Of this the model chose: that an inadmissible configuration is refused when
something is asked for, and only then (log entry 11, DESIGN CHOICE); that every K = 5 word needs the lock, where R73
speaks of host operations (log entry 19, DEDUCED); the queue of requests, and that without one the block rests, where R14
says that it has no step of its own (log entry 1, DESIGN CHOICE). -/
def Obligations.StepRefusesWhatIsNotAdmitted : Prop :=
  ∀ (s : State) (w : Word) (b : Beside) (locked : Bool) (rest : List Request),
    (s.pending = [] → step s = .next s)
    ∧ (s.pending ≠ [] → s.cfg.admissible = false → step s = .refused .inadmissibleConfig)
    ∧ (s.pending = .word w b locked :: rest → s.cfg.admissible = true →
        (decode w b = .error .reservedKind → step s = .refused .reservedKind)
        ∧ (decode w b = .error .reservedOpCode → step s = .refused .reservedOpCode)
        ∧ ((∃ i, decode w b = .ok i) → wordKind w = 5 → locked = false → step s = .refused .lockNotHeld))

/-- A configuration is admitted exactly when the two VDP ports differ from each other and from every fixed port of the
map and ROM_LEN is at most 16384 (R8), given a clock period that is a time (R11; log entry 3). -/
def Obligations.AdmittedConfigurationsHaveDistinctPorts : Prop :=
  ∀ c : Config, 0 ≤ c.clockPeriodNs →
    (c.admissible = true ↔
      (c.vdpDataPort ≠ c.vdpCtrlPort ∧ c.romLen ≤ 16384
      ∧ ∀ p : Port, (p = c.vdpDataPort ∨ p = c.vdpCtrlPort) →
          ¬ (0x10 ≤ p.toNat ∧ p.toNat ≤ 0x17) ∧ p.toNat ≠ 0x38 ∧ ¬ (0x80 ≤ p.toNat ∧ p.toNat ≤ 0x83)))

/-! ### The invariant and whole-machine rules -/

/-- Every step from any state that meets the invariant leads to one that meets it (R23, R28, R38, R39, R40, R50, R53,
R54). That the stores are lists in canonical form is the model's own part of it. -/
def Obligations.StepKeepsTheInvariant : Prop :=
  ∀ s t : State, s.inv = true → step s = .next t → t.inv = true

/-- The state at power-on meets the invariant. That no image is attached then is the model's choice (log entry 10), and so
are the stores as canonical lists (log entry 12). -/
def Obligations.PowerOnMeetsTheInvariant : Prop := State.reset.inv = true

/-- The state at power-on, every element the spec gives a value (R57, R244). -/
def Obligations.PowerOnValues : Prop :=
  let s := State.reset
  (∀ a : Nat, Mem.read s.ram a = 0 ∧ Mem.read s.vram a = 0) ∧ s.paged = false ∧ s.tstates = 0
  ∧ (∀ i : BitVec 3, Regs.get3 s.reg i = 0) ∧ s.status = 0 ∧ s.latchFull = false ∧ s.latchByte = 0 ∧ s.ptr = 0
  ∧ s.line = 0 ∧ s.accNs = 0 ∧ (∀ (r : Fin 240) (c : Fin 320), s.fb[r][c] = 0) ∧ s.rxqA = [] ∧ s.rxqB = []
  ∧ s.cfFeat = 0 ∧ s.cfCount = 0 ∧ (∀ i : Fin 4, s.cfLba[i] = 0) ∧ s.cfMode = .idle ∧ s.cfPos = 0 ∧ s.cfBase = 0
  ∧ s.govMark = 0 ∧ s.govRunning = false ∧ s.events = [] ∧ s.fault = none

/-- No step changes the ROM (R62), and none changes the configuration: the parameters are fixed when the block is
configured (00_scope section 4), and that they stand in a field of the state that no step changes is the model's choice
(log entry 11, DESIGN CHOICE). -/
def Obligations.StepsNeverChangeRomOrConfiguration : Prop :=
  ∀ s t : State, step s = .next t → t.rom = s.rom ∧ t.cfg = s.cfg

/-- The output event history is append-only over every step, RESET included, and a recorded fault stays (R55, R56). The
list of returned values, the model's own, grows in the same way (log entry 4). -/
def Obligations.EventsOnlyGrowAndFaultsStay : Prop :=
  ∀ s t : State, step s = .next t →
    (∃ more, t.events = s.events ++ more) ∧ (∃ more, t.replies = s.replies ++ more)
    ∧ (s.fault ≠ none → t.fault = s.fault)

/-- Every transaction adds its kind's cost to the t-state counter, and every K = 5 operation but RESET, which sets it to
0, and GOV_ITERATION, which runs CPU transactions, adds nothing (R85, R109). -/
def Obligations.EachKindAddsItsTstates : Prop :=
  ∀ (i : Instr) (s t : State), (∀ target cpu, i ≠ .govIteration target cpu) → i ≠ .reset → exec i s = .next t →
    t.tstates = s.tstates + kindCost (wordKind (encode i).1)

/-- The paging flag changes only by a write to port 0x38, by RESET or inside a governor iteration (R25); main RAM only by
a memory write, by the host's RAM write or inside a governor iteration (R23, R64). -/
def Obligations.PagingAndRamChangeOnlyByTheirOperations : Prop :=
  ∀ (i : Instr) (s t : State), i.wf = true → exec i s = .next t →
    (t.paged ≠ s.paged →
      i = .pageOn ∨ (∃ v, i = .pageOff v) ∨ i = .reset ∨ (∃ target cpu, i = .govIteration target cpu))
    ∧ (t.ram ≠ s.ram →
      (∃ a v, i = .mwrite a v) ∨ (∃ a v, i = .hostRamWrite a v) ∨ (∃ target cpu, i = .govIteration target cpu))

/-- F becomes 1 only by a raster advance or inside a governor iteration (R40, R139, R232). -/
def Obligations.OnlyTheRasterSetsF : Prop :=
  ∀ (i : Instr) (s t : State), exec i s = .next t → s.flagF = false → t.flagF = true →
    (∃ dns, i = .rasterAdvance dns) ∨ (∃ target cpu, i = .govIteration target cpu)

/-- Whatever transactions the CPU Core issues, the raster does not move under them: `line`, `acc_ns`, the framebuffer and
`gov_mark` stay, no Vsync is emitted and F cannot become 1 (R74, R233). -/
def Obligations.CpuTransactionsDoNotMoveTheRaster : Prop :=
  ∀ (ts : List Txn) (s : State),
    let t := s.busTxns ts
    t.line = s.line ∧ t.accNs = s.accNs ∧ t.fb = s.fb ∧ t.govMark = s.govMark
    ∧ t.events.count .vsync = s.events.count .vsync ∧ (t.flagF = true → s.flagF = true)

/-- No CF row changes main RAM, VRAM, the paging flag or any VDP or UART state, events included (R210). -/
def Obligations.CfRowsLeaveTheOtherUnitsAlone : Prop :=
  ∀ (i : Instr) (s t : State),
    (i = .cfDataRd ∨ (∃ v, i = .cfDataWr v) ∨ i = .cfErrRd ∨ (∃ v, i = .cfFeatWr v) ∨ i = .cfCountRd
      ∨ (∃ v, i = .cfCountWr v) ∨ i = .cfLba0Rd ∨ (∃ v, i = .cfLba0Wr v) ∨ i = .cfLba1Rd ∨ (∃ v, i = .cfLba1Wr v)
      ∨ i = .cfLba2Rd ∨ (∃ v, i = .cfLba2Wr v) ∨ i = .cfLba3Rd ∨ (∃ v, i = .cfLba3Wr v) ∨ i = .cfStatusRd
      ∨ i = .cfCmdRead ∨ i = .cfCmdWrite ∨ (∃ v, i = .cfCmdOther v)
      ∨ (∃ image size, i = .cfAttach image size) ∨ i = .cfDetach) →
    exec i s = .next t →
    t = { s with tstates := t.tstates, cfFeat := t.cfFeat, cfCount := t.cfCount, cfLba := t.cfLba, cfMode := t.cfMode,
                 cfPos := t.cfPos, cfBase := t.cfBase, cfPresent := t.cfPresent, cfSize := t.cfSize,
                 cfImage := t.cfImage, replies := t.replies, draws := t.draws }

/-- The rows of the opcode table do what the port dispatch says: in every admitted configuration, an instruction decoded
from a word of K = 0 to 4 is the bus transaction the word carries (R116, R117), with the VDP wherever the configuration
puts it (R123, R124). -/
def Obligations.TableRowsAgreeWithThePortDispatch : Prop :=
  ∀ (w : Word) (b : Beside) (i : Instr) (s : State), (wordKind w).toNat ≤ 4 → decode w b = .ok i →
    s.cfg.admissible = true → exec i s = busStep s fun s => s.busTxn (txnOfWord w)

/-! ### Bus memory -/

/-- FETCH, K = 0, and MREAD, K = 1, return the byte of the ROM/RAM selector and cost 4 and 3 t-states; nothing else changes
(R105, R106, R60). -/
def Obligations.FetchAndReadReturnTheSelectedByte : Prop :=
  ∀ (a : Addr) (s : State), s.fault = none →
    let v : Byte := if s.paged = false ∧ a.toNat < s.cfg.romLen then romByte s.rom a.toNat else Mem.read s.ram a.toNat
    wordKind (encode (.fetch a)).1 = 0 ∧ wordAddr (encode (.fetch a)).1 = a
    ∧ wordKind (encode (.mread a)).1 = 1 ∧ wordAddr (encode (.mread a)).1 = a
    ∧ exec (.fetch a) s = .next { s with tstates := s.tstates + 4, replies := s.replies ++ [.bus v] }
    ∧ exec (.mread a) s = .next { s with tstates := s.tstates + 3, replies := s.replies ++ [.bus v] }

/-- MWRITE, K = 2, writes the byte to main RAM at the address, but for a write under the visible ROM with WRITE_UNDER_ROM =
discard, which writes nothing; every other byte and all other state but the counter stay (R107, R62). -/
def Obligations.MemoryWriteGoesToRam : Prop :=
  ∀ (a : Addr) (v : Byte) (s : State), s.fault = none → Mem.wf s.ram 65536 = true →
    wordKind (encode (.mwrite a v)).1 = 2 ∧ wordAddr (encode (.mwrite a v)).1 = a ∧ wordData (encode (.mwrite a v)).1 = v
    ∧ ∃ t, exec (.mwrite a v) s = .next t
      ∧ t = { s with ram := t.ram, tstates := s.tstates + 3 }
      ∧ (if s.paged = true ∨ s.cfg.romLen ≤ a.toNat ∨ s.cfg.writeUnderRom = .ram then Mem.read t.ram a.toNat = v
         else t.ram = s.ram)
      ∧ ∀ b : Nat, b ≠ a.toNat → Mem.read t.ram b = Mem.read s.ram b

/-- With WRITE_UNDER_ROM = ram, a byte written under the visible ROM is not what the CPU reads there until the paging
port is written with 1, and is then (R63). -/
def Obligations.WriteUnderRomIsHiddenUntilPaged : Prop :=
  ∀ (a : Addr) (v : Byte) (s : State), s.fault = none → Mem.wf s.ram 65536 = true → s.paged = false →
    a.toNat < s.cfg.romLen → s.cfg.writeUnderRom = .ram →
    ∃ t, execAll [.mwrite a v, .mread a, .pageOn, .mread a] s = .next t
      ∧ t.replies = s.replies ++ [.bus (romByte s.rom a.toNat), .bus v]

/-! ### Paging and unmapped ports -/

/-- PAGE_ON, an IOWRITE of 0x01 to port 0x38, sets `paged`, and PAGE_OFF, with any other byte, clears it, each at 4
t-states (R118, R119). The port's high byte is ignored. -/
def Obligations.PagingPortWrites : Prop :=
  ∀ (v : Byte) (s : State), s.fault = none →
    (∀ high : Byte, decode (mkWord 4 (high ++ 0x38#8) 0x01) {} = .ok .pageOn
      ∧ (v ≠ 0x01 → decode (mkWord 4 (high ++ 0x38#8) v) {} = .ok (.pageOff v)))
    ∧ exec .pageOn s = .next { s with paged := true, tstates := s.tstates + 4 }
    ∧ (v ≠ 0x01 → exec (.pageOff v) s = .next { s with paged := false, tstates := s.tstates + 4 })

/-- A read of the paging port or of a port of no unit returns a free byte, and a write to a port of no unit changes only
the counter (R121, R122: the spec's decision D6). The free byte is `Config.unmappedRead` (log entry 6). -/
def Obligations.UnmappedPortsAreNeutral : Prop :=
  ∀ (p : Port) (v : Byte) (s : State), s.fault = none →
    exec .pageRd s = .next { s with tstates := s.tstates + 4, draws := s.draws + 1,
                                    replies := s.replies ++ [.bus (Config.unmappedRead s.draws)] }
    ∧ (p ∉ readPorts → p ≠ s.cfg.vdpDataPort → p ≠ s.cfg.vdpCtrlPort →
        exec (.unmappedRead p) s = .next { s with tstates := s.tstates + 4, draws := s.draws + 1,
                                                  replies := s.replies ++ [.bus (Config.unmappedRead s.draws)] }
        ∧ exec (.unmappedWrite p v) s = .next { s with tstates := s.tstates + 4 })

/-- A VDP row of the table whose port is not one of the VDP's in the configuration is an unmapped access: in the Machine
0x40 and 0x41, in the debugger variant 0x98 and 0x99 (R123, and the table's notes on its debugger rows; log entry 14). -/
def Obligations.VdpRowsOffTheVdpPortsAreUnmapped : Prop :=
  ∀ (v : Byte) (i : Instr) (p : Port) (s : State), s.fault = none → p ≠ s.cfg.vdpDataPort → p ≠ s.cfg.vdpCtrlPort →
    ((i = .vdpDataWr v ∧ p = 0x98) ∨ (i = .vdpCtrlWr v ∧ p = 0x99) ∨ (i = .vdpDataWrDbg v ∧ p = 0x40)
        ∨ (i = .vdpCtrlWrDbg v ∧ p = 0x41) →
      exec i s = .next { s with tstates := s.tstates + 4 })
    ∧ ((i = .vdpDataRd ∧ p = 0x98) ∨ (i = .vdpStatusRd ∧ p = 0x99) ∨ (i = .vdpDataRdDbg ∧ p = 0x40)
        ∨ (i = .vdpStatusRdDbg ∧ p = 0x41) →
      exec i s = .next { s with tstates := s.tstates + 4, draws := s.draws + 1,
                                replies := s.replies ++ [.bus (Config.unmappedRead s.draws)] })

/-! ### VDP ports -/

/-- A write to the VDP's data port, wherever the configuration puts it, at a port with a VDP row of its own (either VDP's
data or control port) or at one without, stores the byte at the pointer and advances the pointer mod 16384; the latch
stays unless VDP_LATCH_RESET_ON_READ (R125). -/
def Obligations.VdpDataWriteStoresAtThePointer : Prop :=
  ∀ (v : Byte) (i : Instr) (s : State), s.fault = none → Mem.wf s.vram 16384 = true →
    ioWriteRow i s.cfg.vdpDataPort v →
    wordKind (encode i).1 = 4 ∧ wordPort (encode i).1 = s.cfg.vdpDataPort ∧ wordData (encode i).1 = v
    ∧ ∃ t, exec i s = .next t
      ∧ t = { s with vram := t.vram, ptr := BitVec.ofNat 14 ((s.ptr.toNat + 1) % 16384),
                     latchFull := if s.cfg.latchResetOnRead then false else s.latchFull, tstates := s.tstates + 4 }
      ∧ Mem.read t.vram s.ptr.toNat = v
      ∧ ∀ b : Nat, b ≠ s.ptr.toNat → Mem.read t.vram b = Mem.read s.vram b

/-- A read of the VDP's data port, wherever the configuration puts it, returns the byte at the pointer now and advances
the pointer (R126). -/
def Obligations.VdpDataReadReturnsByteAtThePointer : Prop :=
  ∀ (i : Instr) (s : State), s.fault = none →
    ioReadRow i s.cfg.vdpDataPort →
    wordKind (encode i).1 = 3 ∧ wordPort (encode i).1 = s.cfg.vdpDataPort
    ∧ exec i s = .next { s with ptr := BitVec.ofNat 14 ((s.ptr.toNat + 1) % 16384),
                                latchFull := if s.cfg.latchResetOnRead then false else s.latchFull,
                                tstates := s.tstates + 4,
                                replies := s.replies ++ [.bus (Mem.read s.vram s.ptr.toNat)] }

/-- A write to the VDP's control port, wherever the configuration puts it: a first byte fills the latch and does nothing else; a second byte s with bit 7 set
stores the buffered byte f in register s[2:0]; one with bit 7 clear sets the pointer to ((s << 8) | f) & 0x3FFF (R128,
R93). -/
def Obligations.VdpControlWriteFollowsTheLatch : Prop :=
  ∀ (v : Byte) (i : Instr) (s : State), s.fault = none →
    s.cfg.vdpDataPort ≠ s.cfg.vdpCtrlPort → ioWriteRow i s.cfg.vdpCtrlPort v →
    wordKind (encode i).1 = 4 ∧ wordPort (encode i).1 = s.cfg.vdpCtrlPort ∧ wordData (encode i).1 = v
    ∧ (s.latchFull = false →
      exec i s = .next { s with latchByte := v, latchFull := true, tstates := s.tstates + 4 })
    ∧ (s.latchFull = true → 128 ≤ v.toNat →
      ∃ t, exec i s = .next t
        ∧ t = { s with reg := t.reg, latchFull := false, tstates := s.tstates + 4 }
        ∧ ∀ k : Fin 8, t.reg[k] = if k.val = v.toNat % 8 then s.latchByte else s.reg[k])
    ∧ (s.latchFull = true → v.toNat < 128 →
      exec i s = .next { s with ptr := BitVec.ofNat 14 ((v.toNat * 256 + s.latchByte.toNat) % 16384),
                                latchFull := false, tstates := s.tstates + 4 })

/-- A read of the VDP's control port, wherever the configuration puts it, returns F in bit 7 over the seven bits of the draw `status_low` and clears F (R133);
the draw is `Config.statusLow` (log entry 6). -/
def Obligations.StatusReadReturnsAndClearsF : Prop :=
  ∀ (i : Instr) (s : State), s.fault = none →
    s.cfg.vdpDataPort ≠ s.cfg.vdpCtrlPort → ioReadRow i s.cfg.vdpCtrlPort →
    wordKind (encode i).1 = 3 ∧ wordPort (encode i).1 = s.cfg.vdpCtrlPort
    ∧ ∃ t v, exec i s = .next t
      ∧ t = { s with status := t.status, latchFull := if s.cfg.latchResetOnRead then false else s.latchFull,
                     tstates := s.tstates + 4, draws := s.draws + 1, replies := s.replies ++ [.bus v] }
      ∧ v.toNat = (if s.flagF then 128 else 0) + (Config.statusLow s.draws).toNat
      ∧ ∀ k : Nat, t.status.getLsbD k = (if k = 7 then false else s.status.getLsbD k)

/-- After any mix of n data-port reads and writes the pointer is (p + n) mod 16384, wherever the configuration puts the
data port (R135). -/
def Obligations.PointerCountsDataAccesses : Prop :=
  ∀ (is : List Instr) (s : State), s.fault = none →
    (∀ i ∈ is, ioReadRow i s.cfg.vdpDataPort ∨ ∃ v, ioWriteRow i s.cfg.vdpDataPort v) →
    ∃ t, execAll is s = .next t ∧ t.ptr.toNat = (s.ptr.toNat + is.length) % 16384

/-- The interrupt output is F AND IE, R1 bit 5, where VDP_IRQ_MODE connects it, and never asserted where it does not
(R145: the routing is the OPEN parameter of decision D13). -/
def Obligations.InterruptOutputIsFAndIe : Prop :=
  ∀ s : State, (s.cfg.irqMode = .off → s.vdpInt = false)
    ∧ (s.cfg.irqMode = .levelFAndIe → (s.vdpInt = true ↔ 128 ≤ s.status.toNat ∧ s.reg[1].toNat / 32 % 2 = 1))

/-! ### Raster -/

/-- RASTER_ADVANCE completes floor((acc_ns + dns) / ROW_NS) rows: the line counter moves on by that many mod TOTAL_ROWS,
the remainder stays in the accumulator, F is set and one Vsync is emitted per wraparound, and nothing else but the
framebuffer changes (R138, R139, R144, R148, R149), with the row time and row count of the video standard (R142). -/
def Obligations.RasterAdvanceCompletesWholeRows : Prop :=
  ∀ (dns : Rat) (s : State), s.fault = none → ¬ (s.cfg.variant = .debugger ∧ s.cfg.debuggerVideo = .never) →
    s.rasterWf = true → 0 ≤ dns →
    let total : Nat := if s.cfg.videoStd = .ntsc then 262 else 312
    let rowNs : Rat := if s.cfg.videoStd = .ntsc then 63500 else 64000
    let k := ((s.accNs + dns) / rowNs).floor.toNat
    ∃ t, exec (.rasterAdvance dns) s = .next t
      ∧ t = { s with line := (s.line + k) % total, accNs := s.accNs + dns - k * rowNs,
                     status := if total ≤ s.line + k then s.status ||| 0x80 else s.status, fb := t.fb,
                     events := s.events ++ List.replicate ((s.line + k) / total) .vsync }

/-- The framebuffer rows an advance renders are exactly the visible rows the counter stood on, each from the registers
and VRAM of the advance (R139, R147). -/
def Obligations.RasterAdvanceRendersTheRowsItPasses : Prop :=
  ∀ (dns : Rat) (s t : State), s.rasterWf = true → 0 ≤ dns → exec (.rasterAdvance dns) s = .next t →
    let total := s.cfg.videoStd.totalRows
    let k := ((s.accNs + dns) / s.cfg.videoStd.rowNs).floor.toNat
    ∀ r : Fin 240, t.fb[r] =
      if (r.val + total - s.line) % total < k then rowPixels s.cfg.spriteYOffset s.reg s.vram r.val else s.fb[r]

/-- REDRAW_FRAME renders every row from the current registers and VRAM and changes nothing else (R223). -/
def Obligations.RedrawRendersEveryRow : Prop :=
  ∀ s : State, s.fault = none →
    encode .redrawFrame = (mkWord 5 0x0002 0, {})
    ∧ ∃ t, exec .redrawFrame s = .next t ∧ t = { s with fb := t.fb }
      ∧ (∀ r : Fin 240, t.fb[r] = rowPixels s.cfg.spriteYOffset s.reg s.vram r.val)
      ∧ exec .redrawFrame t = .next t

/-! ### Renderer -/

/-- Border rows, border columns and, with the display disabled, every pixel are backdrop, R7[3:0] (R152). -/
def Obligations.UncoveredPixelsAreBackdrop : Prop :=
  ∀ (yoff : Nat) (r : Regs) (vram : Mem) (row : Nat) (c : Fin 320),
    (r[1].toNat / 64 % 2 = 0 ∨ row < 24 ∨ 216 ≤ row ∨ c.val < 32 ∨ 288 ≤ c.val
      ∨ (r[1].toNat / 16 % 2 = 1 ∧ (c.val < 40 ∨ 280 ≤ c.val))) →
    ((rowPixels yoff r vram row)[c]).toNat = r[7].toNat % 16

/-- With the display on in TEXT mode, canvas column 40 + x of row 24 + y shows bit x mod 6 of the glyph, foreground R7[7:4]
or backdrop; a foreground of 0 shows the backdrop (R155, R156). No sprite is drawn (R163). -/
def Obligations.TextRowsShowGlyphs : Prop :=
  ∀ (yoff : Nat) (r : Regs) (vram : Mem) (y x : Nat) (hx : x < 240), y < 192 →
    r[1].toNat / 64 % 2 = 1 → r[1].toNat / 16 % 2 = 1 →
    let name := (Mem.read vram (((r[2].toNat % 16) * 1024 + (y / 8) * 40 + x / 6) % 16384)).toNat
    let pat := (Mem.read vram (((r[4].toNat % 8) * 2048 + name * 8 + y % 8) % 16384)).toNat
    ((rowPixels yoff r vram (24 + y))[40 + x]'(by omega)).toNat =
      if pat / 2 ^ (7 - x % 6) % 2 = 1 ∧ r[7].toNat / 16 ≠ 0 then r[7].toNat / 16 else r[7].toNat % 16

/-- In GRAPHICS1, GRAPHICS2 and MULTICOLOR, with the display on, canvas column 32 + x of row 24 + y holds the colour of the
first visible sprite that draws there, else the background pixel of the mode, the first match of M2 and M3 once M1 is 0
(R153, and the spec's decisions D14, D15, D18). Which sprites those are and where they draw is arithmetic on the VRAM
bytes and the registers' numbers: `spritesOnLine`, `spriteShows`, and attribute byte 3 mod 16 for the colour (R98, R99,
R164 to R173). -/
def Obligations.ActiveRowsShowSpritesOverBackground : Prop :=
  ∀ (yoff : Nat) (r : Regs) (vram : Mem) (y x : Nat) (hx : x < 256), y < 192 →
    r[1].toNat / 64 % 2 = 1 → r[1].toNat / 16 % 2 = 0 →
    ((rowPixels yoff r vram (24 + y))[32 + x]'(by omega)).toNat =
      match (spritesOnLine r vram yoff y).find? fun i => spriteShows r vram yoff y i (32 + x) with
      | some i => attrNat r vram i 3 % 16
      | none =>
        if r[1].toNat / 8 % 2 = 1 then (multicolorPixel r vram x y).toNat
        else if r[0].toNat / 2 % 2 = 1 then (graphics2Pixel r vram x y).toNat
        else (graphics1Pixel r vram x y).toNat

/-- The background pixels of the tile modes, from the name of the pixel's cell. Graphics I: bit x mod 8 of the tile's
pattern byte picks a nibble of the colour byte of the name's group of eight (R157). Graphics II: pattern and colour byte
of the name and line in band y / 64, tables at R4[2] and R3[7] times 0x2000 (R159). Multicolor: a nibble of the pattern
byte that the cell row mod 4 and the line's half of the cell select (R161). Colour 0 shows the backdrop (R154). -/
def Obligations.BackgroundPixelsOfTheTileModes : Prop :=
  ∀ (r : Regs) (vram : Mem) (x y : Nat),
    let at14 := fun a : Nat => (Mem.read vram (a % 16384)).toNat
    let name := at14 ((r[2].toNat % 16) * 1024 + (y / 8) * 32 + x / 8)
    let show0 := fun c : Nat => if c = 0 then r[7].toNat % 16 else c
    let pick := fun pattern colours : Nat => if pattern / 2 ^ (7 - x % 8) % 2 = 1 then colours / 16 else colours % 16
    let line2 := (y / 64) * 2048 + name * 8 + y % 8
    (graphics1Pixel r vram x y).toNat =
        show0 (pick (at14 ((r[4].toNat % 8) * 2048 + name * 8 + y % 8)) (at14 (r[3].toNat * 64 + name / 8)))
    ∧ (graphics2Pixel r vram x y).toNat =
        show0 (pick (at14 ((r[4].toNat / 4 % 2) * 8192 + line2)) (at14 ((r[3].toNat / 128) * 8192 + line2)))
    ∧ (multicolorPixel r vram x y).toNat =
        (let colours := at14 ((r[4].toNat % 8) * 2048 + name * 8 + 2 * (y / 8 % 4) + if y % 8 < 4 then 0 else 1)
         show0 (if x % 8 < 4 then colours / 16 else colours % 16))

/-- The scan of the attribute table finds, of the entries before the first Y = 0xD0 and in table order, the first four with
(y - Y - SPRITE_Y_OFFSET) mod 256 < S, where entry i's Y is the VRAM byte at R5[6:0] * 128 + 4 * i and S is 8 or 16 by R1
bit 1, doubled by R1 bit 0 (R98, R164 to R167: the spec's decisions D14, D17, D18, D41). -/
def Obligations.VisibleSpritesAreTheFirstFourCovering : Prop :=
  ∀ (r : Regs) (vram : Mem) (yoff y : Nat),
    let yByte := fun i : Nat => (Mem.read vram (((r[5].toNat % 128) * 128 + 4 * i) % 16384)).toNat
    let size := (if r[1].toNat / 2 % 2 = 1 then 16 else 8) * (if r[1].toNat % 2 = 1 then 2 else 1)
    visibleSprites r vram yoff y =
      ((((List.range 32).takeWhile fun i => decide (yByte i ≠ 0xD0)).filter
        fun i => decide (((y : Int) - yByte i - yoff) % 256 < (size : Nat))).take 4)

/-- The painted sprite layer obeys the priority rule: a column holds the colour of the lowest-index visible sprite that
draws there, and the background where none does (R172, R173, R174). Where a sprite draws is arithmetic on the VRAM bytes
and the registers' numbers: its left edge X - 32 * EC, the window's edges, its 8 x 8 or 16 x 16 pattern's bit under the
magnification, a colour that is not 0 (`spriteShows`; R98, R99, R164, R168, R170, R171). -/
def Obligations.LowestSpriteIndexWins : Prop :=
  ∀ (r : Regs) (vram : Mem) (yoff y : Nat) (row : Row) (c : Fin 320),
    ((spriteLayer r vram yoff y row)[c]).toNat =
      match (spritesOnLine r vram yoff y).find? fun i => spriteShows r vram yoff y i c.val with
      | some i => attrNat r vram i 3 % 16
      | none => (row[c]).toNat

/-- A rendered row depends on no register bit but the ones the renderer reads (R179). -/
def Obligations.UnusedRegisterBitsChangeNoPixel : Prop :=
  ∀ (yoff : Nat) (r r' : Regs) (vram : Mem) (row : Nat),
    let agree := fun (m a b : Byte) => a &&& m = b &&& m
    agree 0x02 r[0] r'[0] → agree 0x5B r[1] r'[1] → agree 0x0F r[2] r'[2] → r[3] = r'[3] →
    agree 0x07 r[4] r'[4] → agree 0x7F r[5] r'[5] → agree 0x07 r[6] r'[6] → r[7] = r'[7] →
    rowPixels yoff r vram row = rowPixels yoff r' vram row

/-! ### UART -/

/-- UART control reads return RX_AVAIL in bit 0 over TX_EMPTY, control writes are discarded, data writes are emitted
(R184, R185, R187: the spec's decision D26). -/
def Obligations.UartControlAndTransmit : Prop :=
  ∀ (v : Byte) (s : State), s.fault = none →
    exec .uartACtrlRd s = .next { s with tstates := s.tstates + 4,
                                         replies := s.replies ++ [.bus (if s.rxqA = [] then 0x04 else 0x05)] }
    ∧ exec .uartBCtrlRd s = .next { s with tstates := s.tstates + 4,
                                           replies := s.replies ++ [.bus (if s.rxqB = [] then 0x04 else 0x05)] }
    ∧ exec (.uartACtrlWr v) s = .next { s with tstates := s.tstates + 4 }
    ∧ exec (.uartBCtrlWr v) s = .next { s with tstates := s.tstates + 4 }
    ∧ exec (.uartADataWr v) s = .next { s with tstates := s.tstates + 4, events := s.events ++ [.uartTx .a v] }
    ∧ exec (.uartBDataWr v) s = .next { s with tstates := s.tstates + 4, events := s.events ++ [.uartTx .b v] }

/-- A data read returns and removes the oldest delivered byte, or returns 0x00 and removes nothing; a delivery appends
(R186, R226: the spec's decision D26). -/
def Obligations.UartReceiveQueues : Prop :=
  ∀ (v : Byte) (s : State), s.fault = none →
    exec .uartADataRd s = .next { s with tstates := s.tstates + 4, rxqA := s.rxqA.tail,
                                         replies := s.replies ++ [.bus (s.rxqA.headD 0x00)] }
    ∧ exec .uartBDataRd s = .next { s with tstates := s.tstates + 4, rxqB := s.rxqB.tail,
                                           replies := s.replies ++ [.bus (s.rxqB.headD 0x00)] }
    ∧ exec (.uartRxPushA v) s = .next { s with rxqA := s.rxqA ++ [v] }
    ∧ exec (.uartRxPushB v) s = .next { s with rxqB := s.rxqB ++ [v] }

/-! ### CompactFlash -/

/-- The task-file reads: 0x00 for the error register, the stored byte for sector count and LBA0 to LBA3, and the computed
status; nothing but the counter changes (R199, R201, R203: the spec's decisions D28, D30). -/
def Obligations.CfRegisterReads : Prop :=
  ∀ s : State, s.fault = none →
    let answer := fun v : Byte => (.next { s with tstates := s.tstates + 4, replies := s.replies ++ [.bus v] } : Result)
    exec .cfErrRd s = answer 0x00 ∧ exec .cfCountRd s = answer s.cfCount
    ∧ exec .cfLba0Rd s = answer s.cfLba[0] ∧ exec .cfLba1Rd s = answer s.cfLba[1]
    ∧ exec .cfLba2Rd s = answer s.cfLba[2] ∧ exec .cfLba3Rd s = answer s.cfLba[3]
    ∧ exec .cfStatusRd s =
        answer (if s.cfPresent = false then 0x00 else if s.cfMode ≠ .idle then 0x48 else 0x40)

/-- The task-file writes store the full byte in their own register and disturb no transfer (R196, R200, R202: the spec's
decisions D27, D29). -/
def Obligations.CfRegisterWrites : Prop :=
  ∀ (v : Byte) (s : State), s.fault = none →
    exec (.cfFeatWr v) s = .next { s with cfFeat := v, tstates := s.tstates + 4 }
    ∧ exec (.cfCountWr v) s = .next { s with cfCount := v, tstates := s.tstates + 4 }
    ∧ exec (.cfLba0Wr v) s = .next { s with cfLba := #v[v, s.cfLba[1], s.cfLba[2], s.cfLba[3]], tstates := s.tstates + 4 }
    ∧ exec (.cfLba1Wr v) s = .next { s with cfLba := #v[s.cfLba[0], v, s.cfLba[2], s.cfLba[3]], tstates := s.tstates + 4 }
    ∧ exec (.cfLba2Wr v) s = .next { s with cfLba := #v[s.cfLba[0], s.cfLba[1], v, s.cfLba[3]], tstates := s.tstates + 4 }
    ∧ exec (.cfLba3Wr v) s = .next { s with cfLba := #v[s.cfLba[0], s.cfLba[1], s.cfLba[2], v], tstates := s.tstates + 4 }

/-- Commands 0x20 and 0x30 seek LBA * 512 and stage a transfer when an image is attached, and are no-ops without one; any
other command has no effect (R204, R205: the spec's decisions D27, D29). -/
def Obligations.CfCommandsSeekAndStage : Prop :=
  ∀ (v : Byte) (s : State), s.fault = none →
    (s.cfPresent = true →
      exec .cfCmdRead s = .next { s with cfBase := lbaOffset s, cfPos := 0, cfMode := .read, tstates := s.tstates + 4 }
      ∧ exec .cfCmdWrite s = .next { s with cfBase := lbaOffset s, cfPos := 0, cfMode := .write, tstates := s.tstates + 4 })
    ∧ (s.cfPresent = false →
      exec .cfCmdRead s = .next { s with tstates := s.tstates + 4 }
      ∧ exec .cfCmdWrite s = .next { s with tstates := s.tstates + 4 })
    ∧ (v ≠ 0x20 → v ≠ 0x30 → exec (.cfCmdOther v) s = .next { s with tstates := s.tstates + 4 })

/-- A data-port read: 0x00 and no effect outside a read transfer; inside one the next byte of the image, a free byte past
its end, 0x00 for a failed access, and the 512th ends the transfer (R197, R206, R207, R208: the spec's decisions D29 and
D31; the free values are log entry 6). -/
def Obligations.CfDataReadStreamsTheImage : Prop :=
  ∀ s : State, s.fault = none →
    let o := s.cfBase + s.cfPos
    let io := if s.cfg.cfIoFaults then 1 else 0
    (s.cfMode ≠ .read →
      exec .cfDataRd s = .next { s with tstates := s.tstates + 4, replies := s.replies ++ [.bus 0x00] })
    ∧ (s.cfMode = .read →
      exec .cfDataRd s = .next { s with
        cfMode := if s.cfPos + 1 = 512 then .idle else .read
        cfPos := if s.cfPos + 1 = 512 then 0 else s.cfPos + 1
        tstates := s.tstates + 4
        draws := s.draws + if s.cfIoDrawFails = true ∨ o < s.cfSize then io else io + 1
        replies := s.replies ++ [.bus (if s.cfIoDrawFails then 0x00
          else if o < s.cfSize then Mem.read s.cfImage o
          else Config.cfEofRead (s.draws + io))] })

/-- A data-port write: ignored outside a write transfer; inside one the byte reaches the image at once, which grows over
zero bytes when written past its end; a failed access drops the byte; the 512th ends the transfer (R198, R206, R207, R208:
the spec's decisions D29 and D31). -/
def Obligations.CfDataWriteReachesTheImageAtOnce : Prop :=
  ∀ (v : Byte) (s : State), s.fault = none → Mem.wf s.cfImage s.cfSize = true →
    let o := s.cfBase + s.cfPos
    (s.cfMode ≠ .write → exec (.cfDataWr v) s = .next { s with tstates := s.tstates + 4 })
    ∧ (s.cfMode = .write → ∃ t, exec (.cfDataWr v) s = .next t
        ∧ t = { s with cfImage := t.cfImage, cfSize := if s.cfIoDrawFails then s.cfSize else max s.cfSize (o + 1),
                       cfMode := if s.cfPos + 1 = 512 then .idle else .write,
                       cfPos := if s.cfPos + 1 = 512 then 0 else s.cfPos + 1,
                       tstates := s.tstates + 4, draws := s.draws + if s.cfg.cfIoFaults then 1 else 0 }
        ∧ Mem.wf t.cfImage t.cfSize = true
        ∧ ∀ a : Nat, Mem.read t.cfImage a =
            if s.cfIoDrawFails = false ∧ a = o then v else if a < s.cfSize then Mem.read s.cfImage a else 0)

/-- A read command and 512 data-port reads return exactly the image's bytes at offset LBA * 512, in order, and leave the
device idle (R197, R204, R206; 95_test_vectors E4). -/
def Obligations.CfSectorReadReturnsTheImage : Prop :=
  ∀ s : State, s.fault = none → s.cfPresent = true → s.cfg.cfIoFaults = false → lbaOffset s + 512 ≤ s.cfSize →
    ∃ t, execAll (.cfCmdRead :: List.replicate 512 .cfDataRd) s = .next t
      ∧ t = { s with cfBase := lbaOffset s, cfPos := 0, cfMode := .idle, tstates := s.tstates + 4 + 512 * 4,
                     replies := s.replies ++ (List.range 512).map fun k => .bus (Mem.read s.cfImage (lbaOffset s + k)) }

/-- CF_ATTACH opens the image the host gives and cancels any transfer; CF_DETACH closes it (R228, R212: the spec's
decisions D28, D31). -/
def Obligations.CfAttachAndDetach : Prop :=
  ∀ (image : List Host.Cell) (size : Nat) (s : State), s.fault = none →
    (Mem.wf image size = true →
      exec (.cfAttach image size) s =
        .next { s with cfImage := image, cfSize := size, cfPresent := true, cfMode := .idle, cfPos := 0 })
    ∧ exec .cfDetach s = .next { s with cfPresent := false, cfMode := .idle, cfPos := 0 }

/-! ### Governor, debugger, interrupt, reset -/

/-- GOV_START creates the governor once and marks the counter; GOV_STOP removes it and closes the CF image; in the
debugger variant both are refused (R217, R219, R220: the spec's decisions D28, D32, D33). -/
def Obligations.GovernorStartAndStop : Prop :=
  ∀ s : State,
    (s.fault = none → s.cfg.variant = .machine →
      exec .govStart s = .next { s with govRunning := true, govMark := if s.govRunning then s.govMark else s.tstates }
      ∧ exec .govStop s = .next { s with govRunning := false, cfPresent := false, cfMode := .idle, cfPos := 0 })
    ∧ (s.cfg.variant = .debugger → ∀ target cpu,
        exec .govStart s = .refused .noGovernorInDebugger ∧ exec .govStop s = .refused .noGovernorInDebugger
        ∧ exec (.govIteration target cpu) s = .refused .noGovernorInDebugger)

/-- A governor iteration completes from every sound state with a running governor: either the CPU Core failed, and then
the raster did not move; or the target is reached, the mark is at the counter and the raster was given exactly the
simulated time since the old mark, whole rows consumed and the remainder kept (R216, R229: the spec's decision D32). The
instructions as the iteration's operand are the model's choice (log entry 5), and so is that a failed iteration leaves
the mark (log entry 17). -/
def Obligations.GovIterationReachesItsTarget : Prop :=
  ∀ (target : Nat) (cpu : List CpuInstr) (s : State), s.inv = true → s.cfg.admissible = true →
    s.cfg.variant = .machine → s.govRunning = true → s.fault = none →
    ∃ t, exec (.govIteration target cpu) s = .next t
      ∧ ((t.fault = some .cpuCoreFailure ∧ t.govMark = s.govMark ∧ t.line = s.line ∧ t.accNs = s.accNs ∧ t.fb = s.fb)
        ∨ (t.fault = none ∧ target ≤ t.tstates ∧ s.tstates ≤ t.tstates ∧ t.govMark = t.tstates
            ∧ ∃ k : Nat, t.line = (s.line + k) % s.cfg.videoStd.totalRows
              ∧ t.accNs + k * s.cfg.videoStd.rowNs =
                  s.accNs + ((t.tstates : Rat) - (s.govMark : Rat)) * s.cfg.clockPeriodNs
              ∧ 0 ≤ t.accNs ∧ t.accNs < s.cfg.videoStd.rowNs))

/-- An iteration without a governor thread is refused, and one whose target is already reached runs no instruction (R216:
the spec's decision D32). That one after a fault answers the same state, its `gov_mark` unmoved, is the model's choice:
R216 and R229 leave it unsaid (log entries 17 and 18, DEDUCED); so are the instructions as its operand (log entry 5,
DESIGN CHOICE). -/
def Obligations.GovIterationWithNothingToRun : Prop :=
  ∀ (target : Nat) (cpu : List CpuInstr) (s : State), s.cfg.variant = .machine →
    (s.govRunning = false → exec (.govIteration target cpu) s = .refused .governorNotRunning)
    ∧ (s.govRunning = true → s.fault = none → target ≤ s.tstates →
        exec (.govIteration target cpu) s =
          .next (State.rasterAdvance { s with govMark := s.tstates }
            (((s.tstates : Rat) - (s.govMark : Rat)) * s.cfg.clockPeriodNs)))
    ∧ (s.govRunning = true → s.fault ≠ none → exec (.govIteration target cpu) s = .next s)

/-- An iteration takes its instructions in order: while a running governor's target is not reached, GOV_ITERATION with c as
the first listed instruction is GOV_ITERATION with the rest from the state after c (R216), and that state is what R110,
R229, R234 and R236 give, spelled out in `cpuEffect`: the acknowledge while the VDP requests an interrupt, the opcode
fetch, the other transactions in order, the extra t-states where they are reported, and the fault of an instruction that
fails. With none listed the next instruction is a free value. The list of instructions as the iteration's operand and the
free values after it are the model's choice (log entry 5, DESIGN CHOICE), and so are the form of an instruction (log
entry 9), an acknowledge's place after the loop's test (log entry 27, DESIGN CHOICE) and the place of the extra t-states,
those of a failing instruction included (log entry 22). -/
def Obligations.GovIterationRunsItsInstructionsInOrder : Prop :=
  ∀ (target : Nat) (c : CpuInstr) (cs : List CpuInstr) (s : State), s.cfg.variant = .machine → s.govRunning = true →
    s.fault = none → s.tstates < target →
    exec (.govIteration target (c :: cs)) s = exec (.govIteration target cs) (cpuEffect s c)
    ∧ exec (.govIteration target []) s =
        exec (.govIteration target []) (cpuEffect { s with draws := s.draws + 1 } (Config.cpuInstr s.draws))

/-- The debugger variant's call runs one CPU instruction, whose effect `cpuEffect` spells out (R110, R229, R234, R236); with
per_instruction the raster is then given the time since the mark (R220: the spec's decision D33); while another call is
in flight it is refused (R240), and once the fault is set it runs nothing (R229). The model's choices in this: the call is
refused in the Machine (log entry 20, DEDUCED), after a fault it answers the fault (log entry 18, DEDUCED), an
instruction that fails leaves the raster and `gov_mark` (log entry 17, DEDUCED), the form of an instruction (log entries
9 and 22) and the queue the call stands in (log entry 1). -/
def Obligations.DebuggerRunsOneInstruction : Prop :=
  ∀ (s : State) (c : CpuInstr) (inFlight : Bool) (rest : List Request),
    s.pending = .debuggerInstr c inFlight :: rest → s.cfg.admissible = true →
    (s.cfg.variant = .machine → step s = .refused .noDebuggerInMachine)
    ∧ (s.cfg.variant = .debugger → inFlight = true → step s = .refused .concurrentDebuggerCall)
    ∧ (s.cfg.variant = .debugger → inFlight = false → ∀ f, s.fault = some f → step s = .fault f)
    ∧ (s.cfg.variant = .debugger → inFlight = false → s.fault = none →
        let t := cpuEffect { s with pending := rest } c
        (s.cfg.debuggerVideo = .never → step s = .next t)
        ∧ (s.cfg.debuggerVideo = .perInstruction → t.fault ≠ none → step s = .next t)
        ∧ (s.cfg.debuggerVideo = .perInstruction → t.fault = none →
            step s = .next (State.rasterAdvance { t with govMark := t.tstates }
              (((t.tstates : Rat) - (t.govMark : Rat)) * t.cfg.clockPeriodNs))))

/-- Under DEBUGGER_ADVANCES_VIDEO = never no step of the debugger variant but RESET moves the raster: `line`, `acc_ns`
stay, F cannot become 1, and the framebuffer changes only by REDRAW_FRAME (R220: the spec's decision D33). RASTER_ADVANCE
itself is never issued there; that it is then refused is the model's choice (log entry 20, DEDUCED). -/
def Obligations.DebuggerNeverVideoFreezesTheRaster : Prop :=
  ∀ s : State, s.cfg.variant = .debugger → s.cfg.debuggerVideo = .never →
    (∀ dns, exec (.rasterAdvance dns) s = .refused .rasterNeverAdvances)
    ∧ ∀ t, step s = .next t →
      (∀ w b locked rest, s.pending = .word w b locked :: rest → decode w b ≠ .ok .reset) →
      t.line = s.line ∧ t.accNs = s.accNs ∧ (t.flagF = true → s.flagF = true)
      ∧ (t.fb ≠ s.fb → ∃ w b locked rest, s.pending = .word w b locked :: rest ∧ decode w b = .ok .redrawFrame)

/-- An interrupt acknowledge, issued while the VDP requests an interrupt, reads a free byte and costs no t-states
(R234: the spec's decision D47; log entry 6). That it is refused without a request (log entry 21, DEDUCED), and that after
a fault it answers the fault, request or none (log entry 18, DEDUCED), is the model's choice. -/
def Obligations.InterruptAcknowledgeReadsAFreeByte : Prop :=
  ∀ (s : State) (rest : List Request), s.pending = .intAck :: rest → s.cfg.admissible = true →
    (s.fault = none → s.vdpInt = true →
      step s = .next { s with pending := rest, draws := s.draws + 1,
                              replies := s.replies ++ [.bus (Config.unmappedRead s.draws)] })
    ∧ (s.fault = none → s.vdpInt = false → step s = .refused .noInterruptRequest)
    ∧ (∀ f, s.fault = some f → step s = .fault f)

/-- RESET: the listed elements take their reset values, VRAM and the paging flag as their parameters say, and everything
else is unchanged (R221, R245: the spec's decisions D22, D24, D36). -/
def Obligations.ResetReinitialisesTheController : Prop :=
  ∀ s : State, s.fault = none →
    ∃ t, exec .reset s = .next t
      ∧ t = { s with reg := t.reg, status := 0, latchFull := false, latchByte := 0, ptr := 0, line := 0, accNs := 0,
                     fb := t.fb, vram := if s.cfg.vramClearedOnReset then [] else s.vram,
                     paged := if s.cfg.pagedClearedOnReset then false else s.paged,
                     tstates := 0, govMark := 0, cfMode := .idle, cfPos := 0, cfBase := 0 }
      ∧ (∀ k : Fin 8, t.reg[k] = 0) ∧ (∀ (r : Fin 240) (c : Fin 320), t.fb[r][c] = 0)

/-- Once the fault is set, in either variant, every bus transaction answers the fault and every K = 5 operation but the four
host reads and GOV_ITERATION is refused (R229: the spec's decision D37). The names of the stops and the order of the
fault among the other checks are the model's (log entry 18): GOV_START, GOV_STOP and, with
DEBUGGER_ADVANCES_VIDEO = never, RASTER_ADVANCE are refused in the debugger variant under the names they have there
without a fault (R220; log entry 20). -/
def Obligations.FaultLeavesOnlyTheHostReads : Prop :=
  ∀ (i : Instr) (s : State), s.fault = some .cpuCoreFailure →
    ((wordKind (encode i).1).toNat ≤ 4 → exec i s = .fault .cpuCoreFailure)
    ∧ (wordKind (encode i).1 = 5 → (∀ a, i ≠ .hostRamRead a) → (∀ a, i ≠ .hostVramRead a) → (∀ k, i ≠ .hostRegRead k) →
        (∀ r c, i ≠ .hostFbRead r c) → (∀ target cpu, i ≠ .govIteration target cpu) →
        (i = .govStart ∨ i = .govStop → s.cfg.variant = .machine) →
        ((∃ dns, i = .rasterAdvance dns) → ¬ (s.cfg.variant = .debugger ∧ s.cfg.debuggerVideo = .never)) →
        exec i s = .refused .stuckAfterFault)
    ∧ (s.cfg.variant = .debugger →
        exec .govStart s = .refused .noGovernorInDebugger ∧ exec .govStop s = .refused .noGovernorInDebugger
        ∧ (s.cfg.debuggerVideo = .never → ∀ dns, exec (.rasterAdvance dns) s = .refused .rasterNeverAdvances))

/-! ### Host accessors -/

/-- The host reads return the raw byte or pixel and change nothing, fault or no fault; a pixel out of range is refused
(R224, R225, R227, R229). -/
def Obligations.HostReadsReturnRawState : Prop :=
  ∀ (a : Addr) (va : VAddr) (k : Fin 8) (r c : Nat) (s : State),
    exec (.hostRamRead a) s = .next { s with replies := s.replies ++ [.host (Mem.read s.ram a.toNat)] }
    ∧ exec (.hostVramRead va) s = .next { s with replies := s.replies ++ [.host (Mem.read s.vram va.toNat)] }
    ∧ exec (.hostRegRead (BitVec.ofNat 3 k.val)) s = .next { s with replies := s.replies ++ [.host s.reg[k]] }
    ∧ (∀ (hr : r < 240) (hc : c < 320),
        exec (.hostFbRead r c) s = .next { s with replies := s.replies ++ [.pixel (s.fb[r][c])] })
    ∧ (240 ≤ r ∨ 320 ≤ c → exec (.hostFbRead r c) s = .refused .pixelOutOfRange)

/-- The host writes change the one byte they name, past the ROM overlay, the latch and the pointer, at no t-states
(R224, R225, R80: the spec's decision D43). -/
def Obligations.HostWritesChangeOneByte : Prop :=
  ∀ (a : Addr) (va : VAddr) (k : Fin 8) (v : Byte) (s : State), s.fault = none → Mem.wf s.ram 65536 = true →
    Mem.wf s.vram 16384 = true →
    (∃ t, exec (.hostRamWrite a v) s = .next t ∧ t = { s with ram := t.ram }
      ∧ ∀ b : Nat, Mem.read t.ram b = if b = a.toNat then v else Mem.read s.ram b)
    ∧ (∃ t, exec (.hostVramWrite va v) s = .next t ∧ t = { s with vram := t.vram }
      ∧ ∀ b : Nat, Mem.read t.vram b = if b = va.toNat then v else Mem.read s.vram b)
    ∧ (∃ t, exec (.hostRegWrite (BitVec.ofNat 3 k.val) v) s = .next t ∧ t = { s with reg := t.reg }
      ∧ ∀ j : Fin 8, t.reg[j] = if j = k then v else s.reg[j])
end

