-- ==== Sys2Proof/Laws/Mem.lean ====
section
/-! SUPPORT. The laws of the byte stores: a read after a write, the canonical form kept by every operation, and equal
reads of canonical stores mean equal stores. -/

namespace Sys2Proof.Machine

@[simp] theorem Mem.read_nil (a : Nat) : Mem.read [] a = 0 := rfl

/-- A canonical store from `lo` lists nothing below `lo`. -/
theorem Mem.read_below {hi : Nat} : ∀ {lo : Nat} {m : Mem} {a : Nat},
    Mem.canonFrom hi lo m = true → a < lo → Mem.read m a = 0
  | _, [], _, _, _ => rfl
  | lo, (b, w) :: rest, a, h, ha => by
    simp only [Mem.canonFrom, Bool.and_eq_true, decide_eq_true_eq] at h
    have hne : a ≠ b := by omega
    simp only [Mem.read, hne, if_false]
    exact Mem.read_below h.2 (by omega)

/-- A canonical store lists nothing from its size on. -/
theorem Mem.read_above {hi : Nat} : ∀ {lo : Nat} {m : Mem} {a : Nat},
    Mem.canonFrom hi lo m = true → hi ≤ a → Mem.read m a = 0
  | _, [], _, _, _ => rfl
  | lo, (b, w) :: rest, a, h, ha => by
    simp only [Mem.canonFrom, Bool.and_eq_true, decide_eq_true_eq] at h
    have hne : a ≠ b := by omega
    simp only [Mem.read, hne, if_false]
    exact Mem.read_above h.2 ha

theorem Mem.read_insert (m : Mem) (a : Nat) (v : Byte) (c : Nat) :
    Mem.read (Mem.insert m a v) c = if c = a then v else Mem.read m c := by
  induction m with
  | nil => simp [Mem.insert, Mem.read]
  | cons cell rest ih =>
    obtain ⟨b, w⟩ := cell
    simp only [Mem.insert]
    split
    · simp [Mem.read]
    · split
      · rename_i h; subst h; simp only [Mem.read]; split <;> simp_all
      · simp only [Mem.read, ih]
        by_cases h1 : c = b
        · subst h1; simp_all; intro h; omega
        · simp [h1]

theorem Mem.read_erase {hi : Nat} : ∀ {lo : Nat} {m : Mem} (_ : Mem.canonFrom hi lo m = true) (a c : Nat),
    Mem.read (Mem.erase m a) c = if c = a then 0 else Mem.read m c
  | _, [], _, a, c => by simp [Mem.erase]
  | lo, (b, w) :: rest, h, a, c => by
    simp only [Mem.canonFrom, Bool.and_eq_true, decide_eq_true_eq] at h
    simp only [Mem.erase]
    by_cases hab : a = b
    · subst hab
      simp only [if_true]
      by_cases hca : c = a
      · subst hca; simp only [if_true]; exact Mem.read_below h.2 (by omega)
      · simp [Mem.read, hca]
    · simp only [hab, if_false, Mem.read]
      by_cases hcb : c = b
      · subst hcb; simp; intro h'; omega
      · simp only [hcb, if_false]; exact Mem.read_erase h.2 a c

/-- A byte read after a write to a canonical store. -/
theorem Mem.read_write {m : Mem} {size : Nat} (h : Mem.wf m size = true) (a : Nat) (v : Byte) (c : Nat) :
    Mem.read (Mem.write m a v) c = if c = a then v else Mem.read m c := by
  unfold Mem.write
  split
  · rename_i hv; rw [Mem.read_erase h]; simp [hv, Mem.unlisted]
  · exact Mem.read_insert m a v c

theorem Mem.read_write_same {m : Mem} {size : Nat} (h : Mem.wf m size = true) (a : Nat) (v : Byte) :
    Mem.read (Mem.write m a v) a = v := by simp [Mem.read_write h]

/-- A write leaves every other address alone, in any store at all. -/
theorem Mem.read_write_other (m : Mem) (a : Nat) (v : Byte) {c : Nat} (hc : c ≠ a) :
    Mem.read (Mem.write m a v) c = Mem.read m c := by
  unfold Mem.write
  split
  · induction m with
    | nil => rfl
    | cons cell rest ih =>
      obtain ⟨b, w⟩ := cell
      simp only [Mem.erase]
      split
      · rename_i hab; subst hab; simp [Mem.read, hc]
      · simp only [Mem.read, ih]
  · rw [Mem.read_insert]; simp [hc]

theorem Mem.canonFrom_lower {hi : Nat} {lo lo' : Nat} {m : Mem} (h : Mem.canonFrom hi lo m = true) (hl : lo' ≤ lo) :
    Mem.canonFrom hi lo' m = true := by
  cases m with
  | nil => rfl
  | cons cell rest =>
    obtain ⟨b, w⟩ := cell
    simp only [Mem.canonFrom, Bool.and_eq_true, decide_eq_true_eq] at h ⊢
    exact ⟨⟨⟨by omega, h.1.1.2⟩, h.1.2⟩, h.2⟩

theorem Mem.canonFrom_widen {hi hi' : Nat} (hh : hi ≤ hi') : ∀ {lo : Nat} {m : Mem},
    Mem.canonFrom hi lo m = true → Mem.canonFrom hi' lo m = true
  | _, [], _ => rfl
  | lo, (b, w) :: rest, h => by
    simp only [Mem.canonFrom, Bool.and_eq_true, decide_eq_true_eq] at h ⊢
    exact ⟨⟨⟨h.1.1.1, by omega⟩, h.1.2⟩, Mem.canonFrom_widen hh h.2⟩

theorem Mem.wf_widen {m : Mem} {size size' : Nat} (hs : size ≤ size') (h : Mem.wf m size = true) :
    Mem.wf m size' = true := Mem.canonFrom_widen hs h

theorem Mem.canonFrom_insert {hi a : Nat} {v : Byte} (ha : a < hi) (hv : v ≠ Mem.unlisted) :
    ∀ {lo : Nat} {m : Mem}, lo ≤ a → Mem.canonFrom hi lo m = true → Mem.canonFrom hi lo (Mem.insert m a v) = true
  | lo, [], hlo, _ => by simp [Mem.insert, Mem.canonFrom, hlo, ha, hv]
  | lo, (b, w) :: rest, hlo, h => by
    simp only [Mem.insert]
    simp only [Mem.canonFrom, Bool.and_eq_true, decide_eq_true_eq] at h
    split
    · simp only [Mem.canonFrom, Bool.and_eq_true, decide_eq_true_eq]
      exact ⟨⟨⟨hlo, ha⟩, hv⟩, ⟨⟨by omega, h.1.1.2⟩, h.1.2⟩, h.2⟩
    · split
      · rename_i hab; subst hab
        simp only [Mem.canonFrom, Bool.and_eq_true, decide_eq_true_eq]
        exact ⟨⟨⟨hlo, ha⟩, hv⟩, h.2⟩
      · simp only [Mem.canonFrom, Bool.and_eq_true, decide_eq_true_eq]
        exact ⟨h.1, Mem.canonFrom_insert ha hv (by omega) h.2⟩

theorem Mem.canonFrom_erase {hi a : Nat} : ∀ {lo : Nat} {m : Mem},
    Mem.canonFrom hi lo m = true → Mem.canonFrom hi lo (Mem.erase m a) = true
  | _, [], _ => rfl
  | lo, (b, w) :: rest, h => by
    simp only [Mem.canonFrom, Bool.and_eq_true, decide_eq_true_eq] at h
    simp only [Mem.erase]
    split
    · exact Mem.canonFrom_lower h.2 (by omega)
    · simp only [Mem.canonFrom, Bool.and_eq_true, decide_eq_true_eq]
      exact ⟨h.1, Mem.canonFrom_erase h.2⟩

/-- A write inside the store keeps the canonical form. -/
theorem Mem.wf_write {m : Mem} {size a : Nat} (v : Byte) (ha : a < size) (h : Mem.wf m size = true) :
    Mem.wf (Mem.write m a v) size = true := by
  unfold Mem.write
  split
  · exact Mem.canonFrom_erase h
  · rename_i hv; exact Mem.canonFrom_insert ha hv (Nat.zero_le _) h

theorem Mem.wf_nil (size : Nat) : Mem.wf [] size = true := rfl

/-- The store made of given cells is canonical, whatever the cells. -/
theorem Mem.wf_ofCells (size : Nat) (cells : List Host.Cell) : Mem.wf (Mem.ofCells size cells) size = true := by
  induction cells with
  | nil => rfl
  | cons c cs ih =>
    simp only [Mem.ofCells, List.foldr_cons] at ih ⊢
    split
    · rename_i hc; exact Mem.wf_write _ hc ih
    · exact ih

/-- Canonical stores that read alike are equal. -/
theorem Mem.ext_of_canon {hi : Nat} : ∀ {lo : Nat} {m m' : Mem}, Mem.canonFrom hi lo m = true →
    Mem.canonFrom hi lo m' = true → (∀ a, Mem.read m a = Mem.read m' a) → m = m'
  | _, [], [], _, _, _ => rfl
  | _, [], (b, w) :: rest, _, h', hr => by
    simp only [Mem.canonFrom, Bool.and_eq_true, decide_eq_true_eq] at h'
    have := hr b
    simp [Mem.read] at this
    exact absurd this.symm h'.1.2
  | _, (b, w) :: rest, [], h, _, hr => by
    simp only [Mem.canonFrom, Bool.and_eq_true, decide_eq_true_eq] at h
    have := hr b
    simp [Mem.read] at this
    exact absurd this h.1.2
  | lo, (b, w) :: rest, (b', w') :: rest', h, h', hr => by
    simp only [Mem.canonFrom, Bool.and_eq_true, decide_eq_true_eq] at h h'
    have hb : b = b' := by
      by_contra hne
      rcases Nat.lt_or_ge b b' with hlt | hge
      · have := hr b
        simp only [Mem.read, if_true, hne, if_false] at this
        rw [Mem.read_below h'.2 (by omega)] at this
        exact h.1.2 this
      · have := hr b'
        simp only [Mem.read, if_true, (Ne.symm hne : b' ≠ b), if_false] at this
        rw [Mem.read_below h.2 (by omega)] at this
        exact h'.1.2 this.symm
    subst hb
    have hw : w = w' := by have := hr b; simpa [Mem.read] using this
    subst hw
    have : rest = rest' := by
      refine Mem.ext_of_canon h.2 h'.2 fun a => ?_
      by_cases hab : a = b
      · subst hab
        rw [Mem.read_below h.2 (by omega), Mem.read_below h'.2 (by omega)]
      · have := hr a
        simpa [Mem.read, hab] using this
    rw [this]

theorem Mem.ext_of_wf {m m' : Mem} {size : Nat} (h : Mem.wf m size = true) (h' : Mem.wf m' size = true)
    (hr : ∀ a, Mem.read m a = Mem.read m' a) : m = m' := Mem.ext_of_canon h h' hr

/-- Writing what an unlisted address reads as over a canonical store's own byte changes nothing it reads. -/
theorem Mem.write_read {m : Mem} {size : Nat} (h : Mem.wf m size = true) {a : Nat} (ha : a < size) :
    Mem.write m a (Mem.read m a) = m :=
  Mem.ext_of_wf (Mem.wf_write _ ha h) h fun c => by
    rw [Mem.read_write h]; split <;> simp_all

/-- The bytes of the store made of canonical cells are the cells' own. -/
theorem Mem.ofCells_of_wf {cells : Mem} {size : Nat} (h : Mem.wf cells size = true) :
    Mem.ofCells size cells = cells := by
  suffices hs : ∀ lo, Mem.canonFrom size lo cells = true → Mem.ofCells size cells = cells from hs 0 h
  clear h
  induction cells with
  | nil => intro _ _; rfl
  | cons c cs ih =>
    intro lo h
    obtain ⟨b, w⟩ := c
    simp only [Mem.canonFrom, Bool.and_eq_true, decide_eq_true_eq] at h
    have hcs := ih _ h.2
    simp only [Mem.ofCells, List.foldr_cons] at hcs ⊢
    rw [hcs]
    simp only [h.1.1.2, if_true, Mem.write, h.1.2, if_false]
    cases cs with
    | nil => rfl
    | cons c' cs' =>
      obtain ⟨b', w'⟩ := c'
      have h2 := h.2
      simp only [Mem.canonFrom, Bool.and_eq_true, decide_eq_true_eq] at h2
      simp [Mem.insert, (by omega : b < b')]

end Sys2Proof.Machine
end

