-- ==== Sys2Proof/Laws/State.lean ====
section
/-! SUPPORT. One lemma per field per named update of the state, each true by rfl: later proofs unfold no record update. -/

namespace Sys2Proof.Machine

@[simp] theorem State.tick_cfg (s : State) (n : Nat) : (s.tick n).cfg = s.cfg := rfl
@[simp] theorem State.tick_ram (s : State) (n : Nat) : (s.tick n).ram = s.ram := rfl
@[simp] theorem State.tick_rom (s : State) (n : Nat) : (s.tick n).rom = s.rom := rfl
@[simp] theorem State.tick_paged (s : State) (n : Nat) : (s.tick n).paged = s.paged := rfl
@[simp] theorem State.tick_tstates (s : State) (n : Nat) : (s.tick n).tstates = s.tstates + n := rfl
@[simp] theorem State.tick_vram (s : State) (n : Nat) : (s.tick n).vram = s.vram := rfl
@[simp] theorem State.tick_reg (s : State) (n : Nat) : (s.tick n).reg = s.reg := rfl
@[simp] theorem State.tick_line (s : State) (n : Nat) : (s.tick n).line = s.line := rfl
@[simp] theorem State.tick_accNs (s : State) (n : Nat) : (s.tick n).accNs = s.accNs := rfl
@[simp] theorem State.tick_status (s : State) (n : Nat) : (s.tick n).status = s.status := rfl
@[simp] theorem State.tick_latchFull (s : State) (n : Nat) : (s.tick n).latchFull = s.latchFull := rfl
@[simp] theorem State.tick_latchByte (s : State) (n : Nat) : (s.tick n).latchByte = s.latchByte := rfl
@[simp] theorem State.tick_ptr (s : State) (n : Nat) : (s.tick n).ptr = s.ptr := rfl
@[simp] theorem State.tick_fb (s : State) (n : Nat) : (s.tick n).fb = s.fb := rfl
@[simp] theorem State.tick_rxqA (s : State) (n : Nat) : (s.tick n).rxqA = s.rxqA := rfl
@[simp] theorem State.tick_rxqB (s : State) (n : Nat) : (s.tick n).rxqB = s.rxqB := rfl
@[simp] theorem State.tick_cfFeat (s : State) (n : Nat) : (s.tick n).cfFeat = s.cfFeat := rfl
@[simp] theorem State.tick_cfCount (s : State) (n : Nat) : (s.tick n).cfCount = s.cfCount := rfl
@[simp] theorem State.tick_cfLba (s : State) (n : Nat) : (s.tick n).cfLba = s.cfLba := rfl
@[simp] theorem State.tick_cfMode (s : State) (n : Nat) : (s.tick n).cfMode = s.cfMode := rfl
@[simp] theorem State.tick_cfPos (s : State) (n : Nat) : (s.tick n).cfPos = s.cfPos := rfl
@[simp] theorem State.tick_cfBase (s : State) (n : Nat) : (s.tick n).cfBase = s.cfBase := rfl
@[simp] theorem State.tick_cfPresent (s : State) (n : Nat) : (s.tick n).cfPresent = s.cfPresent := rfl
@[simp] theorem State.tick_cfSize (s : State) (n : Nat) : (s.tick n).cfSize = s.cfSize := rfl
@[simp] theorem State.tick_cfImage (s : State) (n : Nat) : (s.tick n).cfImage = s.cfImage := rfl
@[simp] theorem State.tick_govMark (s : State) (n : Nat) : (s.tick n).govMark = s.govMark := rfl
@[simp] theorem State.tick_govRunning (s : State) (n : Nat) : (s.tick n).govRunning = s.govRunning := rfl
@[simp] theorem State.tick_events (s : State) (n : Nat) : (s.tick n).events = s.events := rfl
@[simp] theorem State.tick_fault (s : State) (n : Nat) : (s.tick n).fault = s.fault := rfl
@[simp] theorem State.tick_replies (s : State) (n : Nat) : (s.tick n).replies = s.replies := rfl
@[simp] theorem State.tick_draws (s : State) (n : Nat) : (s.tick n).draws = s.draws := rfl
@[simp] theorem State.tick_pending (s : State) (n : Nat) : (s.tick n).pending = s.pending := rfl

@[simp] theorem State.reply_cfg (s : State) (r : Reply) : (s.reply r).cfg = s.cfg := rfl
@[simp] theorem State.reply_ram (s : State) (r : Reply) : (s.reply r).ram = s.ram := rfl
@[simp] theorem State.reply_rom (s : State) (r : Reply) : (s.reply r).rom = s.rom := rfl
@[simp] theorem State.reply_paged (s : State) (r : Reply) : (s.reply r).paged = s.paged := rfl
@[simp] theorem State.reply_tstates (s : State) (r : Reply) : (s.reply r).tstates = s.tstates := rfl
@[simp] theorem State.reply_vram (s : State) (r : Reply) : (s.reply r).vram = s.vram := rfl
@[simp] theorem State.reply_reg (s : State) (r : Reply) : (s.reply r).reg = s.reg := rfl
@[simp] theorem State.reply_line (s : State) (r : Reply) : (s.reply r).line = s.line := rfl
@[simp] theorem State.reply_accNs (s : State) (r : Reply) : (s.reply r).accNs = s.accNs := rfl
@[simp] theorem State.reply_status (s : State) (r : Reply) : (s.reply r).status = s.status := rfl
@[simp] theorem State.reply_latchFull (s : State) (r : Reply) : (s.reply r).latchFull = s.latchFull := rfl
@[simp] theorem State.reply_latchByte (s : State) (r : Reply) : (s.reply r).latchByte = s.latchByte := rfl
@[simp] theorem State.reply_ptr (s : State) (r : Reply) : (s.reply r).ptr = s.ptr := rfl
@[simp] theorem State.reply_fb (s : State) (r : Reply) : (s.reply r).fb = s.fb := rfl
@[simp] theorem State.reply_rxqA (s : State) (r : Reply) : (s.reply r).rxqA = s.rxqA := rfl
@[simp] theorem State.reply_rxqB (s : State) (r : Reply) : (s.reply r).rxqB = s.rxqB := rfl
@[simp] theorem State.reply_cfFeat (s : State) (r : Reply) : (s.reply r).cfFeat = s.cfFeat := rfl
@[simp] theorem State.reply_cfCount (s : State) (r : Reply) : (s.reply r).cfCount = s.cfCount := rfl
@[simp] theorem State.reply_cfLba (s : State) (r : Reply) : (s.reply r).cfLba = s.cfLba := rfl
@[simp] theorem State.reply_cfMode (s : State) (r : Reply) : (s.reply r).cfMode = s.cfMode := rfl
@[simp] theorem State.reply_cfPos (s : State) (r : Reply) : (s.reply r).cfPos = s.cfPos := rfl
@[simp] theorem State.reply_cfBase (s : State) (r : Reply) : (s.reply r).cfBase = s.cfBase := rfl
@[simp] theorem State.reply_cfPresent (s : State) (r : Reply) : (s.reply r).cfPresent = s.cfPresent := rfl
@[simp] theorem State.reply_cfSize (s : State) (r : Reply) : (s.reply r).cfSize = s.cfSize := rfl
@[simp] theorem State.reply_cfImage (s : State) (r : Reply) : (s.reply r).cfImage = s.cfImage := rfl
@[simp] theorem State.reply_govMark (s : State) (r : Reply) : (s.reply r).govMark = s.govMark := rfl
@[simp] theorem State.reply_govRunning (s : State) (r : Reply) : (s.reply r).govRunning = s.govRunning := rfl
@[simp] theorem State.reply_events (s : State) (r : Reply) : (s.reply r).events = s.events := rfl
@[simp] theorem State.reply_fault (s : State) (r : Reply) : (s.reply r).fault = s.fault := rfl
@[simp] theorem State.reply_replies (s : State) (r : Reply) : (s.reply r).replies = s.replies ++ [r] := rfl
@[simp] theorem State.reply_draws (s : State) (r : Reply) : (s.reply r).draws = s.draws := rfl
@[simp] theorem State.reply_pending (s : State) (r : Reply) : (s.reply r).pending = s.pending := rfl

@[simp] theorem State.drawn_cfg (s : State) : (s.drawn).cfg = s.cfg := rfl
@[simp] theorem State.drawn_ram (s : State) : (s.drawn).ram = s.ram := rfl
@[simp] theorem State.drawn_rom (s : State) : (s.drawn).rom = s.rom := rfl
@[simp] theorem State.drawn_paged (s : State) : (s.drawn).paged = s.paged := rfl
@[simp] theorem State.drawn_tstates (s : State) : (s.drawn).tstates = s.tstates := rfl
@[simp] theorem State.drawn_vram (s : State) : (s.drawn).vram = s.vram := rfl
@[simp] theorem State.drawn_reg (s : State) : (s.drawn).reg = s.reg := rfl
@[simp] theorem State.drawn_line (s : State) : (s.drawn).line = s.line := rfl
@[simp] theorem State.drawn_accNs (s : State) : (s.drawn).accNs = s.accNs := rfl
@[simp] theorem State.drawn_status (s : State) : (s.drawn).status = s.status := rfl
@[simp] theorem State.drawn_latchFull (s : State) : (s.drawn).latchFull = s.latchFull := rfl
@[simp] theorem State.drawn_latchByte (s : State) : (s.drawn).latchByte = s.latchByte := rfl
@[simp] theorem State.drawn_ptr (s : State) : (s.drawn).ptr = s.ptr := rfl
@[simp] theorem State.drawn_fb (s : State) : (s.drawn).fb = s.fb := rfl
@[simp] theorem State.drawn_rxqA (s : State) : (s.drawn).rxqA = s.rxqA := rfl
@[simp] theorem State.drawn_rxqB (s : State) : (s.drawn).rxqB = s.rxqB := rfl
@[simp] theorem State.drawn_cfFeat (s : State) : (s.drawn).cfFeat = s.cfFeat := rfl
@[simp] theorem State.drawn_cfCount (s : State) : (s.drawn).cfCount = s.cfCount := rfl
@[simp] theorem State.drawn_cfLba (s : State) : (s.drawn).cfLba = s.cfLba := rfl
@[simp] theorem State.drawn_cfMode (s : State) : (s.drawn).cfMode = s.cfMode := rfl
@[simp] theorem State.drawn_cfPos (s : State) : (s.drawn).cfPos = s.cfPos := rfl
@[simp] theorem State.drawn_cfBase (s : State) : (s.drawn).cfBase = s.cfBase := rfl
@[simp] theorem State.drawn_cfPresent (s : State) : (s.drawn).cfPresent = s.cfPresent := rfl
@[simp] theorem State.drawn_cfSize (s : State) : (s.drawn).cfSize = s.cfSize := rfl
@[simp] theorem State.drawn_cfImage (s : State) : (s.drawn).cfImage = s.cfImage := rfl
@[simp] theorem State.drawn_govMark (s : State) : (s.drawn).govMark = s.govMark := rfl
@[simp] theorem State.drawn_govRunning (s : State) : (s.drawn).govRunning = s.govRunning := rfl
@[simp] theorem State.drawn_events (s : State) : (s.drawn).events = s.events := rfl
@[simp] theorem State.drawn_fault (s : State) : (s.drawn).fault = s.fault := rfl
@[simp] theorem State.drawn_replies (s : State) : (s.drawn).replies = s.replies := rfl
@[simp] theorem State.drawn_draws (s : State) : (s.drawn).draws = s.draws + 1 := rfl
@[simp] theorem State.drawn_pending (s : State) : (s.drawn).pending = s.pending := rfl

@[simp] theorem State.emit_cfg (s : State) (e : Event) : (s.emit e).cfg = s.cfg := rfl
@[simp] theorem State.emit_ram (s : State) (e : Event) : (s.emit e).ram = s.ram := rfl
@[simp] theorem State.emit_rom (s : State) (e : Event) : (s.emit e).rom = s.rom := rfl
@[simp] theorem State.emit_paged (s : State) (e : Event) : (s.emit e).paged = s.paged := rfl
@[simp] theorem State.emit_tstates (s : State) (e : Event) : (s.emit e).tstates = s.tstates := rfl
@[simp] theorem State.emit_vram (s : State) (e : Event) : (s.emit e).vram = s.vram := rfl
@[simp] theorem State.emit_reg (s : State) (e : Event) : (s.emit e).reg = s.reg := rfl
@[simp] theorem State.emit_line (s : State) (e : Event) : (s.emit e).line = s.line := rfl
@[simp] theorem State.emit_accNs (s : State) (e : Event) : (s.emit e).accNs = s.accNs := rfl
@[simp] theorem State.emit_status (s : State) (e : Event) : (s.emit e).status = s.status := rfl
@[simp] theorem State.emit_latchFull (s : State) (e : Event) : (s.emit e).latchFull = s.latchFull := rfl
@[simp] theorem State.emit_latchByte (s : State) (e : Event) : (s.emit e).latchByte = s.latchByte := rfl
@[simp] theorem State.emit_ptr (s : State) (e : Event) : (s.emit e).ptr = s.ptr := rfl
@[simp] theorem State.emit_fb (s : State) (e : Event) : (s.emit e).fb = s.fb := rfl
@[simp] theorem State.emit_rxqA (s : State) (e : Event) : (s.emit e).rxqA = s.rxqA := rfl
@[simp] theorem State.emit_rxqB (s : State) (e : Event) : (s.emit e).rxqB = s.rxqB := rfl
@[simp] theorem State.emit_cfFeat (s : State) (e : Event) : (s.emit e).cfFeat = s.cfFeat := rfl
@[simp] theorem State.emit_cfCount (s : State) (e : Event) : (s.emit e).cfCount = s.cfCount := rfl
@[simp] theorem State.emit_cfLba (s : State) (e : Event) : (s.emit e).cfLba = s.cfLba := rfl
@[simp] theorem State.emit_cfMode (s : State) (e : Event) : (s.emit e).cfMode = s.cfMode := rfl
@[simp] theorem State.emit_cfPos (s : State) (e : Event) : (s.emit e).cfPos = s.cfPos := rfl
@[simp] theorem State.emit_cfBase (s : State) (e : Event) : (s.emit e).cfBase = s.cfBase := rfl
@[simp] theorem State.emit_cfPresent (s : State) (e : Event) : (s.emit e).cfPresent = s.cfPresent := rfl
@[simp] theorem State.emit_cfSize (s : State) (e : Event) : (s.emit e).cfSize = s.cfSize := rfl
@[simp] theorem State.emit_cfImage (s : State) (e : Event) : (s.emit e).cfImage = s.cfImage := rfl
@[simp] theorem State.emit_govMark (s : State) (e : Event) : (s.emit e).govMark = s.govMark := rfl
@[simp] theorem State.emit_govRunning (s : State) (e : Event) : (s.emit e).govRunning = s.govRunning := rfl
@[simp] theorem State.emit_events (s : State) (e : Event) : (s.emit e).events = s.events ++ [e] := rfl
@[simp] theorem State.emit_fault (s : State) (e : Event) : (s.emit e).fault = s.fault := rfl
@[simp] theorem State.emit_replies (s : State) (e : Event) : (s.emit e).replies = s.replies := rfl
@[simp] theorem State.emit_draws (s : State) (e : Event) : (s.emit e).draws = s.draws := rfl
@[simp] theorem State.emit_pending (s : State) (e : Event) : (s.emit e).pending = s.pending := rfl

@[simp] theorem State.finishRead_cfg (n : Nat) (r : Byte × State) : (State.finishRead n r).cfg = r.2.cfg := rfl
@[simp] theorem State.finishRead_ram (n : Nat) (r : Byte × State) : (State.finishRead n r).ram = r.2.ram := rfl
@[simp] theorem State.finishRead_rom (n : Nat) (r : Byte × State) : (State.finishRead n r).rom = r.2.rom := rfl
@[simp] theorem State.finishRead_paged (n : Nat) (r : Byte × State) : (State.finishRead n r).paged = r.2.paged := rfl
@[simp] theorem State.finishRead_tstates (n : Nat) (r : Byte × State) : (State.finishRead n r).tstates = r.2.tstates + n := rfl
@[simp] theorem State.finishRead_vram (n : Nat) (r : Byte × State) : (State.finishRead n r).vram = r.2.vram := rfl
@[simp] theorem State.finishRead_reg (n : Nat) (r : Byte × State) : (State.finishRead n r).reg = r.2.reg := rfl
@[simp] theorem State.finishRead_line (n : Nat) (r : Byte × State) : (State.finishRead n r).line = r.2.line := rfl
@[simp] theorem State.finishRead_accNs (n : Nat) (r : Byte × State) : (State.finishRead n r).accNs = r.2.accNs := rfl
@[simp] theorem State.finishRead_status (n : Nat) (r : Byte × State) : (State.finishRead n r).status = r.2.status := rfl
@[simp] theorem State.finishRead_latchFull (n : Nat) (r : Byte × State) : (State.finishRead n r).latchFull = r.2.latchFull := rfl
@[simp] theorem State.finishRead_latchByte (n : Nat) (r : Byte × State) : (State.finishRead n r).latchByte = r.2.latchByte := rfl
@[simp] theorem State.finishRead_ptr (n : Nat) (r : Byte × State) : (State.finishRead n r).ptr = r.2.ptr := rfl
@[simp] theorem State.finishRead_fb (n : Nat) (r : Byte × State) : (State.finishRead n r).fb = r.2.fb := rfl
@[simp] theorem State.finishRead_rxqA (n : Nat) (r : Byte × State) : (State.finishRead n r).rxqA = r.2.rxqA := rfl
@[simp] theorem State.finishRead_rxqB (n : Nat) (r : Byte × State) : (State.finishRead n r).rxqB = r.2.rxqB := rfl
@[simp] theorem State.finishRead_cfFeat (n : Nat) (r : Byte × State) : (State.finishRead n r).cfFeat = r.2.cfFeat := rfl
@[simp] theorem State.finishRead_cfCount (n : Nat) (r : Byte × State) : (State.finishRead n r).cfCount = r.2.cfCount := rfl
@[simp] theorem State.finishRead_cfLba (n : Nat) (r : Byte × State) : (State.finishRead n r).cfLba = r.2.cfLba := rfl
@[simp] theorem State.finishRead_cfMode (n : Nat) (r : Byte × State) : (State.finishRead n r).cfMode = r.2.cfMode := rfl
@[simp] theorem State.finishRead_cfPos (n : Nat) (r : Byte × State) : (State.finishRead n r).cfPos = r.2.cfPos := rfl
@[simp] theorem State.finishRead_cfBase (n : Nat) (r : Byte × State) : (State.finishRead n r).cfBase = r.2.cfBase := rfl
@[simp] theorem State.finishRead_cfPresent (n : Nat) (r : Byte × State) : (State.finishRead n r).cfPresent = r.2.cfPresent := rfl
@[simp] theorem State.finishRead_cfSize (n : Nat) (r : Byte × State) : (State.finishRead n r).cfSize = r.2.cfSize := rfl
@[simp] theorem State.finishRead_cfImage (n : Nat) (r : Byte × State) : (State.finishRead n r).cfImage = r.2.cfImage := rfl
@[simp] theorem State.finishRead_govMark (n : Nat) (r : Byte × State) : (State.finishRead n r).govMark = r.2.govMark := rfl
@[simp] theorem State.finishRead_govRunning (n : Nat) (r : Byte × State) : (State.finishRead n r).govRunning = r.2.govRunning := rfl
@[simp] theorem State.finishRead_events (n : Nat) (r : Byte × State) : (State.finishRead n r).events = r.2.events := rfl
@[simp] theorem State.finishRead_fault (n : Nat) (r : Byte × State) : (State.finishRead n r).fault = r.2.fault := rfl
@[simp] theorem State.finishRead_replies (n : Nat) (r : Byte × State) : (State.finishRead n r).replies = r.2.replies ++ [.bus r.1] := rfl
@[simp] theorem State.finishRead_draws (n : Nat) (r : Byte × State) : (State.finishRead n r).draws = r.2.draws := rfl
@[simp] theorem State.finishRead_pending (n : Nat) (r : Byte × State) : (State.finishRead n r).pending = r.2.pending := rfl

@[simp] theorem State.renderRow_cfg (s : State) (row : Nat) : (s.renderRow row).cfg = s.cfg := rfl
@[simp] theorem State.renderRow_ram (s : State) (row : Nat) : (s.renderRow row).ram = s.ram := rfl
@[simp] theorem State.renderRow_rom (s : State) (row : Nat) : (s.renderRow row).rom = s.rom := rfl
@[simp] theorem State.renderRow_paged (s : State) (row : Nat) : (s.renderRow row).paged = s.paged := rfl
@[simp] theorem State.renderRow_tstates (s : State) (row : Nat) : (s.renderRow row).tstates = s.tstates := rfl
@[simp] theorem State.renderRow_vram (s : State) (row : Nat) : (s.renderRow row).vram = s.vram := rfl
@[simp] theorem State.renderRow_reg (s : State) (row : Nat) : (s.renderRow row).reg = s.reg := rfl
@[simp] theorem State.renderRow_line (s : State) (row : Nat) : (s.renderRow row).line = s.line := rfl
@[simp] theorem State.renderRow_accNs (s : State) (row : Nat) : (s.renderRow row).accNs = s.accNs := rfl
@[simp] theorem State.renderRow_status (s : State) (row : Nat) : (s.renderRow row).status = s.status := rfl
@[simp] theorem State.renderRow_latchFull (s : State) (row : Nat) : (s.renderRow row).latchFull = s.latchFull := rfl
@[simp] theorem State.renderRow_latchByte (s : State) (row : Nat) : (s.renderRow row).latchByte = s.latchByte := rfl
@[simp] theorem State.renderRow_ptr (s : State) (row : Nat) : (s.renderRow row).ptr = s.ptr := rfl
@[simp] theorem State.renderRow_fb (s : State) (row : Nat) : (s.renderRow row).fb = s.fb.setIfInBounds row (rowPixels s.cfg.spriteYOffset s.reg s.vram row) := rfl
@[simp] theorem State.renderRow_rxqA (s : State) (row : Nat) : (s.renderRow row).rxqA = s.rxqA := rfl
@[simp] theorem State.renderRow_rxqB (s : State) (row : Nat) : (s.renderRow row).rxqB = s.rxqB := rfl
@[simp] theorem State.renderRow_cfFeat (s : State) (row : Nat) : (s.renderRow row).cfFeat = s.cfFeat := rfl
@[simp] theorem State.renderRow_cfCount (s : State) (row : Nat) : (s.renderRow row).cfCount = s.cfCount := rfl
@[simp] theorem State.renderRow_cfLba (s : State) (row : Nat) : (s.renderRow row).cfLba = s.cfLba := rfl
@[simp] theorem State.renderRow_cfMode (s : State) (row : Nat) : (s.renderRow row).cfMode = s.cfMode := rfl
@[simp] theorem State.renderRow_cfPos (s : State) (row : Nat) : (s.renderRow row).cfPos = s.cfPos := rfl
@[simp] theorem State.renderRow_cfBase (s : State) (row : Nat) : (s.renderRow row).cfBase = s.cfBase := rfl
@[simp] theorem State.renderRow_cfPresent (s : State) (row : Nat) : (s.renderRow row).cfPresent = s.cfPresent := rfl
@[simp] theorem State.renderRow_cfSize (s : State) (row : Nat) : (s.renderRow row).cfSize = s.cfSize := rfl
@[simp] theorem State.renderRow_cfImage (s : State) (row : Nat) : (s.renderRow row).cfImage = s.cfImage := rfl
@[simp] theorem State.renderRow_govMark (s : State) (row : Nat) : (s.renderRow row).govMark = s.govMark := rfl
@[simp] theorem State.renderRow_govRunning (s : State) (row : Nat) : (s.renderRow row).govRunning = s.govRunning := rfl
@[simp] theorem State.renderRow_events (s : State) (row : Nat) : (s.renderRow row).events = s.events := rfl
@[simp] theorem State.renderRow_fault (s : State) (row : Nat) : (s.renderRow row).fault = s.fault := rfl
@[simp] theorem State.renderRow_replies (s : State) (row : Nat) : (s.renderRow row).replies = s.replies := rfl
@[simp] theorem State.renderRow_draws (s : State) (row : Nat) : (s.renderRow row).draws = s.draws := rfl
@[simp] theorem State.renderRow_pending (s : State) (row : Nat) : (s.renderRow row).pending = s.pending := rfl

@[simp] theorem State.vdpDataWrite_cfg (s : State) (v : Byte) : (s.vdpDataWrite v).cfg = s.cfg := rfl
@[simp] theorem State.vdpDataWrite_ram (s : State) (v : Byte) : (s.vdpDataWrite v).ram = s.ram := rfl
@[simp] theorem State.vdpDataWrite_rom (s : State) (v : Byte) : (s.vdpDataWrite v).rom = s.rom := rfl
@[simp] theorem State.vdpDataWrite_paged (s : State) (v : Byte) : (s.vdpDataWrite v).paged = s.paged := rfl
@[simp] theorem State.vdpDataWrite_tstates (s : State) (v : Byte) : (s.vdpDataWrite v).tstates = s.tstates := rfl
@[simp] theorem State.vdpDataWrite_vram (s : State) (v : Byte) : (s.vdpDataWrite v).vram = Mem.write s.vram s.ptr.toNat v := rfl
@[simp] theorem State.vdpDataWrite_reg (s : State) (v : Byte) : (s.vdpDataWrite v).reg = s.reg := rfl
@[simp] theorem State.vdpDataWrite_line (s : State) (v : Byte) : (s.vdpDataWrite v).line = s.line := rfl
@[simp] theorem State.vdpDataWrite_accNs (s : State) (v : Byte) : (s.vdpDataWrite v).accNs = s.accNs := rfl
@[simp] theorem State.vdpDataWrite_status (s : State) (v : Byte) : (s.vdpDataWrite v).status = s.status := rfl
@[simp] theorem State.vdpDataWrite_latchFull (s : State) (v : Byte) : (s.vdpDataWrite v).latchFull = s.latchAfterAccess := rfl
@[simp] theorem State.vdpDataWrite_latchByte (s : State) (v : Byte) : (s.vdpDataWrite v).latchByte = s.latchByte := rfl
@[simp] theorem State.vdpDataWrite_ptr (s : State) (v : Byte) : (s.vdpDataWrite v).ptr = s.ptr + 1 := rfl
@[simp] theorem State.vdpDataWrite_fb (s : State) (v : Byte) : (s.vdpDataWrite v).fb = s.fb := rfl
@[simp] theorem State.vdpDataWrite_rxqA (s : State) (v : Byte) : (s.vdpDataWrite v).rxqA = s.rxqA := rfl
@[simp] theorem State.vdpDataWrite_rxqB (s : State) (v : Byte) : (s.vdpDataWrite v).rxqB = s.rxqB := rfl
@[simp] theorem State.vdpDataWrite_cfFeat (s : State) (v : Byte) : (s.vdpDataWrite v).cfFeat = s.cfFeat := rfl
@[simp] theorem State.vdpDataWrite_cfCount (s : State) (v : Byte) : (s.vdpDataWrite v).cfCount = s.cfCount := rfl
@[simp] theorem State.vdpDataWrite_cfLba (s : State) (v : Byte) : (s.vdpDataWrite v).cfLba = s.cfLba := rfl
@[simp] theorem State.vdpDataWrite_cfMode (s : State) (v : Byte) : (s.vdpDataWrite v).cfMode = s.cfMode := rfl
@[simp] theorem State.vdpDataWrite_cfPos (s : State) (v : Byte) : (s.vdpDataWrite v).cfPos = s.cfPos := rfl
@[simp] theorem State.vdpDataWrite_cfBase (s : State) (v : Byte) : (s.vdpDataWrite v).cfBase = s.cfBase := rfl
@[simp] theorem State.vdpDataWrite_cfPresent (s : State) (v : Byte) : (s.vdpDataWrite v).cfPresent = s.cfPresent := rfl
@[simp] theorem State.vdpDataWrite_cfSize (s : State) (v : Byte) : (s.vdpDataWrite v).cfSize = s.cfSize := rfl
@[simp] theorem State.vdpDataWrite_cfImage (s : State) (v : Byte) : (s.vdpDataWrite v).cfImage = s.cfImage := rfl
@[simp] theorem State.vdpDataWrite_govMark (s : State) (v : Byte) : (s.vdpDataWrite v).govMark = s.govMark := rfl
@[simp] theorem State.vdpDataWrite_govRunning (s : State) (v : Byte) : (s.vdpDataWrite v).govRunning = s.govRunning := rfl
@[simp] theorem State.vdpDataWrite_events (s : State) (v : Byte) : (s.vdpDataWrite v).events = s.events := rfl
@[simp] theorem State.vdpDataWrite_fault (s : State) (v : Byte) : (s.vdpDataWrite v).fault = s.fault := rfl
@[simp] theorem State.vdpDataWrite_replies (s : State) (v : Byte) : (s.vdpDataWrite v).replies = s.replies := rfl
@[simp] theorem State.vdpDataWrite_draws (s : State) (v : Byte) : (s.vdpDataWrite v).draws = s.draws := rfl
@[simp] theorem State.vdpDataWrite_pending (s : State) (v : Byte) : (s.vdpDataWrite v).pending = s.pending := rfl

@[simp] theorem State.vdpDataRead_snd_cfg (s : State) : (s.vdpDataRead.2).cfg = s.cfg := rfl
@[simp] theorem State.vdpDataRead_snd_ram (s : State) : (s.vdpDataRead.2).ram = s.ram := rfl
@[simp] theorem State.vdpDataRead_snd_rom (s : State) : (s.vdpDataRead.2).rom = s.rom := rfl
@[simp] theorem State.vdpDataRead_snd_paged (s : State) : (s.vdpDataRead.2).paged = s.paged := rfl
@[simp] theorem State.vdpDataRead_snd_tstates (s : State) : (s.vdpDataRead.2).tstates = s.tstates := rfl
@[simp] theorem State.vdpDataRead_snd_vram (s : State) : (s.vdpDataRead.2).vram = s.vram := rfl
@[simp] theorem State.vdpDataRead_snd_reg (s : State) : (s.vdpDataRead.2).reg = s.reg := rfl
@[simp] theorem State.vdpDataRead_snd_line (s : State) : (s.vdpDataRead.2).line = s.line := rfl
@[simp] theorem State.vdpDataRead_snd_accNs (s : State) : (s.vdpDataRead.2).accNs = s.accNs := rfl
@[simp] theorem State.vdpDataRead_snd_status (s : State) : (s.vdpDataRead.2).status = s.status := rfl
@[simp] theorem State.vdpDataRead_snd_latchFull (s : State) : (s.vdpDataRead.2).latchFull = s.latchAfterAccess := rfl
@[simp] theorem State.vdpDataRead_snd_latchByte (s : State) : (s.vdpDataRead.2).latchByte = s.latchByte := rfl
@[simp] theorem State.vdpDataRead_snd_ptr (s : State) : (s.vdpDataRead.2).ptr = s.ptr + 1 := rfl
@[simp] theorem State.vdpDataRead_snd_fb (s : State) : (s.vdpDataRead.2).fb = s.fb := rfl
@[simp] theorem State.vdpDataRead_snd_rxqA (s : State) : (s.vdpDataRead.2).rxqA = s.rxqA := rfl
@[simp] theorem State.vdpDataRead_snd_rxqB (s : State) : (s.vdpDataRead.2).rxqB = s.rxqB := rfl
@[simp] theorem State.vdpDataRead_snd_cfFeat (s : State) : (s.vdpDataRead.2).cfFeat = s.cfFeat := rfl
@[simp] theorem State.vdpDataRead_snd_cfCount (s : State) : (s.vdpDataRead.2).cfCount = s.cfCount := rfl
@[simp] theorem State.vdpDataRead_snd_cfLba (s : State) : (s.vdpDataRead.2).cfLba = s.cfLba := rfl
@[simp] theorem State.vdpDataRead_snd_cfMode (s : State) : (s.vdpDataRead.2).cfMode = s.cfMode := rfl
@[simp] theorem State.vdpDataRead_snd_cfPos (s : State) : (s.vdpDataRead.2).cfPos = s.cfPos := rfl
@[simp] theorem State.vdpDataRead_snd_cfBase (s : State) : (s.vdpDataRead.2).cfBase = s.cfBase := rfl
@[simp] theorem State.vdpDataRead_snd_cfPresent (s : State) : (s.vdpDataRead.2).cfPresent = s.cfPresent := rfl
@[simp] theorem State.vdpDataRead_snd_cfSize (s : State) : (s.vdpDataRead.2).cfSize = s.cfSize := rfl
@[simp] theorem State.vdpDataRead_snd_cfImage (s : State) : (s.vdpDataRead.2).cfImage = s.cfImage := rfl
@[simp] theorem State.vdpDataRead_snd_govMark (s : State) : (s.vdpDataRead.2).govMark = s.govMark := rfl
@[simp] theorem State.vdpDataRead_snd_govRunning (s : State) : (s.vdpDataRead.2).govRunning = s.govRunning := rfl
@[simp] theorem State.vdpDataRead_snd_events (s : State) : (s.vdpDataRead.2).events = s.events := rfl
@[simp] theorem State.vdpDataRead_snd_fault (s : State) : (s.vdpDataRead.2).fault = s.fault := rfl
@[simp] theorem State.vdpDataRead_snd_replies (s : State) : (s.vdpDataRead.2).replies = s.replies := rfl
@[simp] theorem State.vdpDataRead_snd_draws (s : State) : (s.vdpDataRead.2).draws = s.draws := rfl
@[simp] theorem State.vdpDataRead_snd_pending (s : State) : (s.vdpDataRead.2).pending = s.pending := rfl

@[simp] theorem State.vdpStatusRead_snd_cfg (s : State) : (s.vdpStatusRead.2).cfg = s.cfg := rfl
@[simp] theorem State.vdpStatusRead_snd_ram (s : State) : (s.vdpStatusRead.2).ram = s.ram := rfl
@[simp] theorem State.vdpStatusRead_snd_rom (s : State) : (s.vdpStatusRead.2).rom = s.rom := rfl
@[simp] theorem State.vdpStatusRead_snd_paged (s : State) : (s.vdpStatusRead.2).paged = s.paged := rfl
@[simp] theorem State.vdpStatusRead_snd_tstates (s : State) : (s.vdpStatusRead.2).tstates = s.tstates := rfl
@[simp] theorem State.vdpStatusRead_snd_vram (s : State) : (s.vdpStatusRead.2).vram = s.vram := rfl
@[simp] theorem State.vdpStatusRead_snd_reg (s : State) : (s.vdpStatusRead.2).reg = s.reg := rfl
@[simp] theorem State.vdpStatusRead_snd_line (s : State) : (s.vdpStatusRead.2).line = s.line := rfl
@[simp] theorem State.vdpStatusRead_snd_accNs (s : State) : (s.vdpStatusRead.2).accNs = s.accNs := rfl
@[simp] theorem State.vdpStatusRead_snd_status (s : State) : (s.vdpStatusRead.2).status = statusClearF s.status := rfl
@[simp] theorem State.vdpStatusRead_snd_latchFull (s : State) : (s.vdpStatusRead.2).latchFull = s.latchAfterAccess := rfl
@[simp] theorem State.vdpStatusRead_snd_latchByte (s : State) : (s.vdpStatusRead.2).latchByte = s.latchByte := rfl
@[simp] theorem State.vdpStatusRead_snd_ptr (s : State) : (s.vdpStatusRead.2).ptr = s.ptr := rfl
@[simp] theorem State.vdpStatusRead_snd_fb (s : State) : (s.vdpStatusRead.2).fb = s.fb := rfl
@[simp] theorem State.vdpStatusRead_snd_rxqA (s : State) : (s.vdpStatusRead.2).rxqA = s.rxqA := rfl
@[simp] theorem State.vdpStatusRead_snd_rxqB (s : State) : (s.vdpStatusRead.2).rxqB = s.rxqB := rfl
@[simp] theorem State.vdpStatusRead_snd_cfFeat (s : State) : (s.vdpStatusRead.2).cfFeat = s.cfFeat := rfl
@[simp] theorem State.vdpStatusRead_snd_cfCount (s : State) : (s.vdpStatusRead.2).cfCount = s.cfCount := rfl
@[simp] theorem State.vdpStatusRead_snd_cfLba (s : State) : (s.vdpStatusRead.2).cfLba = s.cfLba := rfl
@[simp] theorem State.vdpStatusRead_snd_cfMode (s : State) : (s.vdpStatusRead.2).cfMode = s.cfMode := rfl
@[simp] theorem State.vdpStatusRead_snd_cfPos (s : State) : (s.vdpStatusRead.2).cfPos = s.cfPos := rfl
@[simp] theorem State.vdpStatusRead_snd_cfBase (s : State) : (s.vdpStatusRead.2).cfBase = s.cfBase := rfl
@[simp] theorem State.vdpStatusRead_snd_cfPresent (s : State) : (s.vdpStatusRead.2).cfPresent = s.cfPresent := rfl
@[simp] theorem State.vdpStatusRead_snd_cfSize (s : State) : (s.vdpStatusRead.2).cfSize = s.cfSize := rfl
@[simp] theorem State.vdpStatusRead_snd_cfImage (s : State) : (s.vdpStatusRead.2).cfImage = s.cfImage := rfl
@[simp] theorem State.vdpStatusRead_snd_govMark (s : State) : (s.vdpStatusRead.2).govMark = s.govMark := rfl
@[simp] theorem State.vdpStatusRead_snd_govRunning (s : State) : (s.vdpStatusRead.2).govRunning = s.govRunning := rfl
@[simp] theorem State.vdpStatusRead_snd_events (s : State) : (s.vdpStatusRead.2).events = s.events := rfl
@[simp] theorem State.vdpStatusRead_snd_fault (s : State) : (s.vdpStatusRead.2).fault = s.fault := rfl
@[simp] theorem State.vdpStatusRead_snd_replies (s : State) : (s.vdpStatusRead.2).replies = s.replies := rfl
@[simp] theorem State.vdpStatusRead_snd_draws (s : State) : (s.vdpStatusRead.2).draws = s.draws + 1 := rfl
@[simp] theorem State.vdpStatusRead_snd_pending (s : State) : (s.vdpStatusRead.2).pending = s.pending := rfl

@[simp] theorem State.pageWrite_cfg (s : State) (v : Byte) : (s.pageWrite v).cfg = s.cfg := rfl
@[simp] theorem State.pageWrite_ram (s : State) (v : Byte) : (s.pageWrite v).ram = s.ram := rfl
@[simp] theorem State.pageWrite_rom (s : State) (v : Byte) : (s.pageWrite v).rom = s.rom := rfl
@[simp] theorem State.pageWrite_paged (s : State) (v : Byte) : (s.pageWrite v).paged = decide (v = 0x01) := rfl
@[simp] theorem State.pageWrite_tstates (s : State) (v : Byte) : (s.pageWrite v).tstates = s.tstates := rfl
@[simp] theorem State.pageWrite_vram (s : State) (v : Byte) : (s.pageWrite v).vram = s.vram := rfl
@[simp] theorem State.pageWrite_reg (s : State) (v : Byte) : (s.pageWrite v).reg = s.reg := rfl
@[simp] theorem State.pageWrite_line (s : State) (v : Byte) : (s.pageWrite v).line = s.line := rfl
@[simp] theorem State.pageWrite_accNs (s : State) (v : Byte) : (s.pageWrite v).accNs = s.accNs := rfl
@[simp] theorem State.pageWrite_status (s : State) (v : Byte) : (s.pageWrite v).status = s.status := rfl
@[simp] theorem State.pageWrite_latchFull (s : State) (v : Byte) : (s.pageWrite v).latchFull = s.latchFull := rfl
@[simp] theorem State.pageWrite_latchByte (s : State) (v : Byte) : (s.pageWrite v).latchByte = s.latchByte := rfl
@[simp] theorem State.pageWrite_ptr (s : State) (v : Byte) : (s.pageWrite v).ptr = s.ptr := rfl
@[simp] theorem State.pageWrite_fb (s : State) (v : Byte) : (s.pageWrite v).fb = s.fb := rfl
@[simp] theorem State.pageWrite_rxqA (s : State) (v : Byte) : (s.pageWrite v).rxqA = s.rxqA := rfl
@[simp] theorem State.pageWrite_rxqB (s : State) (v : Byte) : (s.pageWrite v).rxqB = s.rxqB := rfl
@[simp] theorem State.pageWrite_cfFeat (s : State) (v : Byte) : (s.pageWrite v).cfFeat = s.cfFeat := rfl
@[simp] theorem State.pageWrite_cfCount (s : State) (v : Byte) : (s.pageWrite v).cfCount = s.cfCount := rfl
@[simp] theorem State.pageWrite_cfLba (s : State) (v : Byte) : (s.pageWrite v).cfLba = s.cfLba := rfl
@[simp] theorem State.pageWrite_cfMode (s : State) (v : Byte) : (s.pageWrite v).cfMode = s.cfMode := rfl
@[simp] theorem State.pageWrite_cfPos (s : State) (v : Byte) : (s.pageWrite v).cfPos = s.cfPos := rfl
@[simp] theorem State.pageWrite_cfBase (s : State) (v : Byte) : (s.pageWrite v).cfBase = s.cfBase := rfl
@[simp] theorem State.pageWrite_cfPresent (s : State) (v : Byte) : (s.pageWrite v).cfPresent = s.cfPresent := rfl
@[simp] theorem State.pageWrite_cfSize (s : State) (v : Byte) : (s.pageWrite v).cfSize = s.cfSize := rfl
@[simp] theorem State.pageWrite_cfImage (s : State) (v : Byte) : (s.pageWrite v).cfImage = s.cfImage := rfl
@[simp] theorem State.pageWrite_govMark (s : State) (v : Byte) : (s.pageWrite v).govMark = s.govMark := rfl
@[simp] theorem State.pageWrite_govRunning (s : State) (v : Byte) : (s.pageWrite v).govRunning = s.govRunning := rfl
@[simp] theorem State.pageWrite_events (s : State) (v : Byte) : (s.pageWrite v).events = s.events := rfl
@[simp] theorem State.pageWrite_fault (s : State) (v : Byte) : (s.pageWrite v).fault = s.fault := rfl
@[simp] theorem State.pageWrite_replies (s : State) (v : Byte) : (s.pageWrite v).replies = s.replies := rfl
@[simp] theorem State.pageWrite_draws (s : State) (v : Byte) : (s.pageWrite v).draws = s.draws := rfl
@[simp] theorem State.pageWrite_pending (s : State) (v : Byte) : (s.pageWrite v).pending = s.pending := rfl

@[simp] theorem State.uartDataWrite_cfg (s : State) (ch : Channel) (v : Byte) : (s.uartDataWrite ch v).cfg = s.cfg := rfl
@[simp] theorem State.uartDataWrite_ram (s : State) (ch : Channel) (v : Byte) : (s.uartDataWrite ch v).ram = s.ram := rfl
@[simp] theorem State.uartDataWrite_rom (s : State) (ch : Channel) (v : Byte) : (s.uartDataWrite ch v).rom = s.rom := rfl
@[simp] theorem State.uartDataWrite_paged (s : State) (ch : Channel) (v : Byte) : (s.uartDataWrite ch v).paged = s.paged := rfl
@[simp] theorem State.uartDataWrite_tstates (s : State) (ch : Channel) (v : Byte) : (s.uartDataWrite ch v).tstates = s.tstates := rfl
@[simp] theorem State.uartDataWrite_vram (s : State) (ch : Channel) (v : Byte) : (s.uartDataWrite ch v).vram = s.vram := rfl
@[simp] theorem State.uartDataWrite_reg (s : State) (ch : Channel) (v : Byte) : (s.uartDataWrite ch v).reg = s.reg := rfl
@[simp] theorem State.uartDataWrite_line (s : State) (ch : Channel) (v : Byte) : (s.uartDataWrite ch v).line = s.line := rfl
@[simp] theorem State.uartDataWrite_accNs (s : State) (ch : Channel) (v : Byte) : (s.uartDataWrite ch v).accNs = s.accNs := rfl
@[simp] theorem State.uartDataWrite_status (s : State) (ch : Channel) (v : Byte) : (s.uartDataWrite ch v).status = s.status := rfl
@[simp] theorem State.uartDataWrite_latchFull (s : State) (ch : Channel) (v : Byte) : (s.uartDataWrite ch v).latchFull = s.latchFull := rfl
@[simp] theorem State.uartDataWrite_latchByte (s : State) (ch : Channel) (v : Byte) : (s.uartDataWrite ch v).latchByte = s.latchByte := rfl
@[simp] theorem State.uartDataWrite_ptr (s : State) (ch : Channel) (v : Byte) : (s.uartDataWrite ch v).ptr = s.ptr := rfl
@[simp] theorem State.uartDataWrite_fb (s : State) (ch : Channel) (v : Byte) : (s.uartDataWrite ch v).fb = s.fb := rfl
@[simp] theorem State.uartDataWrite_rxqA (s : State) (ch : Channel) (v : Byte) : (s.uartDataWrite ch v).rxqA = s.rxqA := rfl
@[simp] theorem State.uartDataWrite_rxqB (s : State) (ch : Channel) (v : Byte) : (s.uartDataWrite ch v).rxqB = s.rxqB := rfl
@[simp] theorem State.uartDataWrite_cfFeat (s : State) (ch : Channel) (v : Byte) : (s.uartDataWrite ch v).cfFeat = s.cfFeat := rfl
@[simp] theorem State.uartDataWrite_cfCount (s : State) (ch : Channel) (v : Byte) : (s.uartDataWrite ch v).cfCount = s.cfCount := rfl
@[simp] theorem State.uartDataWrite_cfLba (s : State) (ch : Channel) (v : Byte) : (s.uartDataWrite ch v).cfLba = s.cfLba := rfl
@[simp] theorem State.uartDataWrite_cfMode (s : State) (ch : Channel) (v : Byte) : (s.uartDataWrite ch v).cfMode = s.cfMode := rfl
@[simp] theorem State.uartDataWrite_cfPos (s : State) (ch : Channel) (v : Byte) : (s.uartDataWrite ch v).cfPos = s.cfPos := rfl
@[simp] theorem State.uartDataWrite_cfBase (s : State) (ch : Channel) (v : Byte) : (s.uartDataWrite ch v).cfBase = s.cfBase := rfl
@[simp] theorem State.uartDataWrite_cfPresent (s : State) (ch : Channel) (v : Byte) : (s.uartDataWrite ch v).cfPresent = s.cfPresent := rfl
@[simp] theorem State.uartDataWrite_cfSize (s : State) (ch : Channel) (v : Byte) : (s.uartDataWrite ch v).cfSize = s.cfSize := rfl
@[simp] theorem State.uartDataWrite_cfImage (s : State) (ch : Channel) (v : Byte) : (s.uartDataWrite ch v).cfImage = s.cfImage := rfl
@[simp] theorem State.uartDataWrite_govMark (s : State) (ch : Channel) (v : Byte) : (s.uartDataWrite ch v).govMark = s.govMark := rfl
@[simp] theorem State.uartDataWrite_govRunning (s : State) (ch : Channel) (v : Byte) : (s.uartDataWrite ch v).govRunning = s.govRunning := rfl
@[simp] theorem State.uartDataWrite_events (s : State) (ch : Channel) (v : Byte) : (s.uartDataWrite ch v).events = s.events ++ [.uartTx ch v] := rfl
@[simp] theorem State.uartDataWrite_fault (s : State) (ch : Channel) (v : Byte) : (s.uartDataWrite ch v).fault = s.fault := rfl
@[simp] theorem State.uartDataWrite_replies (s : State) (ch : Channel) (v : Byte) : (s.uartDataWrite ch v).replies = s.replies := rfl
@[simp] theorem State.uartDataWrite_draws (s : State) (ch : Channel) (v : Byte) : (s.uartDataWrite ch v).draws = s.draws := rfl
@[simp] theorem State.uartDataWrite_pending (s : State) (ch : Channel) (v : Byte) : (s.uartDataWrite ch v).pending = s.pending := rfl

@[simp] theorem State.setCfLba_cfg (s : State) (i : Fin 4) (v : Byte) : (s.setCfLba i v).cfg = s.cfg := rfl
@[simp] theorem State.setCfLba_ram (s : State) (i : Fin 4) (v : Byte) : (s.setCfLba i v).ram = s.ram := rfl
@[simp] theorem State.setCfLba_rom (s : State) (i : Fin 4) (v : Byte) : (s.setCfLba i v).rom = s.rom := rfl
@[simp] theorem State.setCfLba_paged (s : State) (i : Fin 4) (v : Byte) : (s.setCfLba i v).paged = s.paged := rfl
@[simp] theorem State.setCfLba_tstates (s : State) (i : Fin 4) (v : Byte) : (s.setCfLba i v).tstates = s.tstates := rfl
@[simp] theorem State.setCfLba_vram (s : State) (i : Fin 4) (v : Byte) : (s.setCfLba i v).vram = s.vram := rfl
@[simp] theorem State.setCfLba_reg (s : State) (i : Fin 4) (v : Byte) : (s.setCfLba i v).reg = s.reg := rfl
@[simp] theorem State.setCfLba_line (s : State) (i : Fin 4) (v : Byte) : (s.setCfLba i v).line = s.line := rfl
@[simp] theorem State.setCfLba_accNs (s : State) (i : Fin 4) (v : Byte) : (s.setCfLba i v).accNs = s.accNs := rfl
@[simp] theorem State.setCfLba_status (s : State) (i : Fin 4) (v : Byte) : (s.setCfLba i v).status = s.status := rfl
@[simp] theorem State.setCfLba_latchFull (s : State) (i : Fin 4) (v : Byte) : (s.setCfLba i v).latchFull = s.latchFull := rfl
@[simp] theorem State.setCfLba_latchByte (s : State) (i : Fin 4) (v : Byte) : (s.setCfLba i v).latchByte = s.latchByte := rfl
@[simp] theorem State.setCfLba_ptr (s : State) (i : Fin 4) (v : Byte) : (s.setCfLba i v).ptr = s.ptr := rfl
@[simp] theorem State.setCfLba_fb (s : State) (i : Fin 4) (v : Byte) : (s.setCfLba i v).fb = s.fb := rfl
@[simp] theorem State.setCfLba_rxqA (s : State) (i : Fin 4) (v : Byte) : (s.setCfLba i v).rxqA = s.rxqA := rfl
@[simp] theorem State.setCfLba_rxqB (s : State) (i : Fin 4) (v : Byte) : (s.setCfLba i v).rxqB = s.rxqB := rfl
@[simp] theorem State.setCfLba_cfFeat (s : State) (i : Fin 4) (v : Byte) : (s.setCfLba i v).cfFeat = s.cfFeat := rfl
@[simp] theorem State.setCfLba_cfCount (s : State) (i : Fin 4) (v : Byte) : (s.setCfLba i v).cfCount = s.cfCount := rfl
@[simp] theorem State.setCfLba_cfLba (s : State) (i : Fin 4) (v : Byte) : (s.setCfLba i v).cfLba = s.cfLba.set i.val v i.isLt := rfl
@[simp] theorem State.setCfLba_cfMode (s : State) (i : Fin 4) (v : Byte) : (s.setCfLba i v).cfMode = s.cfMode := rfl
@[simp] theorem State.setCfLba_cfPos (s : State) (i : Fin 4) (v : Byte) : (s.setCfLba i v).cfPos = s.cfPos := rfl
@[simp] theorem State.setCfLba_cfBase (s : State) (i : Fin 4) (v : Byte) : (s.setCfLba i v).cfBase = s.cfBase := rfl
@[simp] theorem State.setCfLba_cfPresent (s : State) (i : Fin 4) (v : Byte) : (s.setCfLba i v).cfPresent = s.cfPresent := rfl
@[simp] theorem State.setCfLba_cfSize (s : State) (i : Fin 4) (v : Byte) : (s.setCfLba i v).cfSize = s.cfSize := rfl
@[simp] theorem State.setCfLba_cfImage (s : State) (i : Fin 4) (v : Byte) : (s.setCfLba i v).cfImage = s.cfImage := rfl
@[simp] theorem State.setCfLba_govMark (s : State) (i : Fin 4) (v : Byte) : (s.setCfLba i v).govMark = s.govMark := rfl
@[simp] theorem State.setCfLba_govRunning (s : State) (i : Fin 4) (v : Byte) : (s.setCfLba i v).govRunning = s.govRunning := rfl
@[simp] theorem State.setCfLba_events (s : State) (i : Fin 4) (v : Byte) : (s.setCfLba i v).events = s.events := rfl
@[simp] theorem State.setCfLba_fault (s : State) (i : Fin 4) (v : Byte) : (s.setCfLba i v).fault = s.fault := rfl
@[simp] theorem State.setCfLba_replies (s : State) (i : Fin 4) (v : Byte) : (s.setCfLba i v).replies = s.replies := rfl
@[simp] theorem State.setCfLba_draws (s : State) (i : Fin 4) (v : Byte) : (s.setCfLba i v).draws = s.draws := rfl
@[simp] theorem State.setCfLba_pending (s : State) (i : Fin 4) (v : Byte) : (s.setCfLba i v).pending = s.pending := rfl

@[simp] theorem State.cfClose_cfg (s : State) : (s.cfClose).cfg = s.cfg := rfl
@[simp] theorem State.cfClose_ram (s : State) : (s.cfClose).ram = s.ram := rfl
@[simp] theorem State.cfClose_rom (s : State) : (s.cfClose).rom = s.rom := rfl
@[simp] theorem State.cfClose_paged (s : State) : (s.cfClose).paged = s.paged := rfl
@[simp] theorem State.cfClose_tstates (s : State) : (s.cfClose).tstates = s.tstates := rfl
@[simp] theorem State.cfClose_vram (s : State) : (s.cfClose).vram = s.vram := rfl
@[simp] theorem State.cfClose_reg (s : State) : (s.cfClose).reg = s.reg := rfl
@[simp] theorem State.cfClose_line (s : State) : (s.cfClose).line = s.line := rfl
@[simp] theorem State.cfClose_accNs (s : State) : (s.cfClose).accNs = s.accNs := rfl
@[simp] theorem State.cfClose_status (s : State) : (s.cfClose).status = s.status := rfl
@[simp] theorem State.cfClose_latchFull (s : State) : (s.cfClose).latchFull = s.latchFull := rfl
@[simp] theorem State.cfClose_latchByte (s : State) : (s.cfClose).latchByte = s.latchByte := rfl
@[simp] theorem State.cfClose_ptr (s : State) : (s.cfClose).ptr = s.ptr := rfl
@[simp] theorem State.cfClose_fb (s : State) : (s.cfClose).fb = s.fb := rfl
@[simp] theorem State.cfClose_rxqA (s : State) : (s.cfClose).rxqA = s.rxqA := rfl
@[simp] theorem State.cfClose_rxqB (s : State) : (s.cfClose).rxqB = s.rxqB := rfl
@[simp] theorem State.cfClose_cfFeat (s : State) : (s.cfClose).cfFeat = s.cfFeat := rfl
@[simp] theorem State.cfClose_cfCount (s : State) : (s.cfClose).cfCount = s.cfCount := rfl
@[simp] theorem State.cfClose_cfLba (s : State) : (s.cfClose).cfLba = s.cfLba := rfl
@[simp] theorem State.cfClose_cfMode (s : State) : (s.cfClose).cfMode = .idle := rfl
@[simp] theorem State.cfClose_cfPos (s : State) : (s.cfClose).cfPos = 0 := rfl
@[simp] theorem State.cfClose_cfBase (s : State) : (s.cfClose).cfBase = s.cfBase := rfl
@[simp] theorem State.cfClose_cfPresent (s : State) : (s.cfClose).cfPresent = false := rfl
@[simp] theorem State.cfClose_cfSize (s : State) : (s.cfClose).cfSize = s.cfSize := rfl
@[simp] theorem State.cfClose_cfImage (s : State) : (s.cfClose).cfImage = s.cfImage := rfl
@[simp] theorem State.cfClose_govMark (s : State) : (s.cfClose).govMark = s.govMark := rfl
@[simp] theorem State.cfClose_govRunning (s : State) : (s.cfClose).govRunning = s.govRunning := rfl
@[simp] theorem State.cfClose_events (s : State) : (s.cfClose).events = s.events := rfl
@[simp] theorem State.cfClose_fault (s : State) : (s.cfClose).fault = s.fault := rfl
@[simp] theorem State.cfClose_replies (s : State) : (s.cfClose).replies = s.replies := rfl
@[simp] theorem State.cfClose_draws (s : State) : (s.cfClose).draws = s.draws := rfl
@[simp] theorem State.cfClose_pending (s : State) : (s.cfClose).pending = s.pending := rfl

@[simp] theorem State.cfOpen_cfg (s : State) (image : List Host.Cell) (size : Nat) : (s.cfOpen image size).cfg = s.cfg := rfl
@[simp] theorem State.cfOpen_ram (s : State) (image : List Host.Cell) (size : Nat) : (s.cfOpen image size).ram = s.ram := rfl
@[simp] theorem State.cfOpen_rom (s : State) (image : List Host.Cell) (size : Nat) : (s.cfOpen image size).rom = s.rom := rfl
@[simp] theorem State.cfOpen_paged (s : State) (image : List Host.Cell) (size : Nat) : (s.cfOpen image size).paged = s.paged := rfl
@[simp] theorem State.cfOpen_tstates (s : State) (image : List Host.Cell) (size : Nat) : (s.cfOpen image size).tstates = s.tstates := rfl
@[simp] theorem State.cfOpen_vram (s : State) (image : List Host.Cell) (size : Nat) : (s.cfOpen image size).vram = s.vram := rfl
@[simp] theorem State.cfOpen_reg (s : State) (image : List Host.Cell) (size : Nat) : (s.cfOpen image size).reg = s.reg := rfl
@[simp] theorem State.cfOpen_line (s : State) (image : List Host.Cell) (size : Nat) : (s.cfOpen image size).line = s.line := rfl
@[simp] theorem State.cfOpen_accNs (s : State) (image : List Host.Cell) (size : Nat) : (s.cfOpen image size).accNs = s.accNs := rfl
@[simp] theorem State.cfOpen_status (s : State) (image : List Host.Cell) (size : Nat) : (s.cfOpen image size).status = s.status := rfl
@[simp] theorem State.cfOpen_latchFull (s : State) (image : List Host.Cell) (size : Nat) : (s.cfOpen image size).latchFull = s.latchFull := rfl
@[simp] theorem State.cfOpen_latchByte (s : State) (image : List Host.Cell) (size : Nat) : (s.cfOpen image size).latchByte = s.latchByte := rfl
@[simp] theorem State.cfOpen_ptr (s : State) (image : List Host.Cell) (size : Nat) : (s.cfOpen image size).ptr = s.ptr := rfl
@[simp] theorem State.cfOpen_fb (s : State) (image : List Host.Cell) (size : Nat) : (s.cfOpen image size).fb = s.fb := rfl
@[simp] theorem State.cfOpen_rxqA (s : State) (image : List Host.Cell) (size : Nat) : (s.cfOpen image size).rxqA = s.rxqA := rfl
@[simp] theorem State.cfOpen_rxqB (s : State) (image : List Host.Cell) (size : Nat) : (s.cfOpen image size).rxqB = s.rxqB := rfl
@[simp] theorem State.cfOpen_cfFeat (s : State) (image : List Host.Cell) (size : Nat) : (s.cfOpen image size).cfFeat = s.cfFeat := rfl
@[simp] theorem State.cfOpen_cfCount (s : State) (image : List Host.Cell) (size : Nat) : (s.cfOpen image size).cfCount = s.cfCount := rfl
@[simp] theorem State.cfOpen_cfLba (s : State) (image : List Host.Cell) (size : Nat) : (s.cfOpen image size).cfLba = s.cfLba := rfl
@[simp] theorem State.cfOpen_cfMode (s : State) (image : List Host.Cell) (size : Nat) : (s.cfOpen image size).cfMode = .idle := rfl
@[simp] theorem State.cfOpen_cfPos (s : State) (image : List Host.Cell) (size : Nat) : (s.cfOpen image size).cfPos = 0 := rfl
@[simp] theorem State.cfOpen_cfBase (s : State) (image : List Host.Cell) (size : Nat) : (s.cfOpen image size).cfBase = s.cfBase := rfl
@[simp] theorem State.cfOpen_cfPresent (s : State) (image : List Host.Cell) (size : Nat) : (s.cfOpen image size).cfPresent = true := rfl
@[simp] theorem State.cfOpen_cfSize (s : State) (image : List Host.Cell) (size : Nat) : (s.cfOpen image size).cfSize = size := rfl
@[simp] theorem State.cfOpen_cfImage (s : State) (image : List Host.Cell) (size : Nat) : (s.cfOpen image size).cfImage = Mem.ofCells size image := rfl
@[simp] theorem State.cfOpen_govMark (s : State) (image : List Host.Cell) (size : Nat) : (s.cfOpen image size).govMark = s.govMark := rfl
@[simp] theorem State.cfOpen_govRunning (s : State) (image : List Host.Cell) (size : Nat) : (s.cfOpen image size).govRunning = s.govRunning := rfl
@[simp] theorem State.cfOpen_events (s : State) (image : List Host.Cell) (size : Nat) : (s.cfOpen image size).events = s.events := rfl
@[simp] theorem State.cfOpen_fault (s : State) (image : List Host.Cell) (size : Nat) : (s.cfOpen image size).fault = s.fault := rfl
@[simp] theorem State.cfOpen_replies (s : State) (image : List Host.Cell) (size : Nat) : (s.cfOpen image size).replies = s.replies := rfl
@[simp] theorem State.cfOpen_draws (s : State) (image : List Host.Cell) (size : Nat) : (s.cfOpen image size).draws = s.draws := rfl
@[simp] theorem State.cfOpen_pending (s : State) (image : List Host.Cell) (size : Nat) : (s.cfOpen image size).pending = s.pending := rfl

@[simp] theorem State.resetOp_cfg (s : State) : (s.resetOp).cfg = s.cfg := rfl
@[simp] theorem State.resetOp_ram (s : State) : (s.resetOp).ram = s.ram := rfl
@[simp] theorem State.resetOp_rom (s : State) : (s.resetOp).rom = s.rom := rfl
@[simp] theorem State.resetOp_paged (s : State) : (s.resetOp).paged = if s.cfg.pagedClearedOnReset then false else s.paged := rfl
@[simp] theorem State.resetOp_tstates (s : State) : (s.resetOp).tstates = 0 := rfl
@[simp] theorem State.resetOp_vram (s : State) : (s.resetOp).vram = if s.cfg.vramClearedOnReset then [] else s.vram := rfl
@[simp] theorem State.resetOp_reg (s : State) : (s.resetOp).reg = Vector.replicate 8 0 := rfl
@[simp] theorem State.resetOp_line (s : State) : (s.resetOp).line = 0 := rfl
@[simp] theorem State.resetOp_accNs (s : State) : (s.resetOp).accNs = 0 := rfl
@[simp] theorem State.resetOp_status (s : State) : (s.resetOp).status = 0 := rfl
@[simp] theorem State.resetOp_latchFull (s : State) : (s.resetOp).latchFull = false := rfl
@[simp] theorem State.resetOp_latchByte (s : State) : (s.resetOp).latchByte = 0 := rfl
@[simp] theorem State.resetOp_ptr (s : State) : (s.resetOp).ptr = 0 := rfl
@[simp] theorem State.resetOp_fb (s : State) : (s.resetOp).fb = Vector.replicate 240 (Vector.replicate 320 0) := rfl
@[simp] theorem State.resetOp_rxqA (s : State) : (s.resetOp).rxqA = s.rxqA := rfl
@[simp] theorem State.resetOp_rxqB (s : State) : (s.resetOp).rxqB = s.rxqB := rfl
@[simp] theorem State.resetOp_cfFeat (s : State) : (s.resetOp).cfFeat = s.cfFeat := rfl
@[simp] theorem State.resetOp_cfCount (s : State) : (s.resetOp).cfCount = s.cfCount := rfl
@[simp] theorem State.resetOp_cfLba (s : State) : (s.resetOp).cfLba = s.cfLba := rfl
@[simp] theorem State.resetOp_cfMode (s : State) : (s.resetOp).cfMode = .idle := rfl
@[simp] theorem State.resetOp_cfPos (s : State) : (s.resetOp).cfPos = 0 := rfl
@[simp] theorem State.resetOp_cfBase (s : State) : (s.resetOp).cfBase = 0 := rfl
@[simp] theorem State.resetOp_cfPresent (s : State) : (s.resetOp).cfPresent = s.cfPresent := rfl
@[simp] theorem State.resetOp_cfSize (s : State) : (s.resetOp).cfSize = s.cfSize := rfl
@[simp] theorem State.resetOp_cfImage (s : State) : (s.resetOp).cfImage = s.cfImage := rfl
@[simp] theorem State.resetOp_govMark (s : State) : (s.resetOp).govMark = 0 := rfl
@[simp] theorem State.resetOp_govRunning (s : State) : (s.resetOp).govRunning = s.govRunning := rfl
@[simp] theorem State.resetOp_events (s : State) : (s.resetOp).events = s.events := rfl
@[simp] theorem State.resetOp_fault (s : State) : (s.resetOp).fault = s.fault := rfl
@[simp] theorem State.resetOp_replies (s : State) : (s.resetOp).replies = s.replies := rfl
@[simp] theorem State.resetOp_draws (s : State) : (s.resetOp).draws = s.draws := rfl
@[simp] theorem State.resetOp_pending (s : State) : (s.resetOp).pending = s.pending := rfl

/-! The queue update depends on the channel. -/

@[simp] theorem State.setRxq_cfg (s : State) (ch : Channel) (q : List Byte) : (s.setRxq ch q).cfg = s.cfg := by
  cases ch <;> rfl
@[simp] theorem State.setRxq_ram (s : State) (ch : Channel) (q : List Byte) : (s.setRxq ch q).ram = s.ram := by
  cases ch <;> rfl
@[simp] theorem State.setRxq_rom (s : State) (ch : Channel) (q : List Byte) : (s.setRxq ch q).rom = s.rom := by
  cases ch <;> rfl
@[simp] theorem State.setRxq_paged (s : State) (ch : Channel) (q : List Byte) : (s.setRxq ch q).paged = s.paged := by
  cases ch <;> rfl
@[simp] theorem State.setRxq_tstates (s : State) (ch : Channel) (q : List Byte) : (s.setRxq ch q).tstates = s.tstates := by
  cases ch <;> rfl
@[simp] theorem State.setRxq_vram (s : State) (ch : Channel) (q : List Byte) : (s.setRxq ch q).vram = s.vram := by
  cases ch <;> rfl
@[simp] theorem State.setRxq_reg (s : State) (ch : Channel) (q : List Byte) : (s.setRxq ch q).reg = s.reg := by
  cases ch <;> rfl
@[simp] theorem State.setRxq_line (s : State) (ch : Channel) (q : List Byte) : (s.setRxq ch q).line = s.line := by
  cases ch <;> rfl
@[simp] theorem State.setRxq_accNs (s : State) (ch : Channel) (q : List Byte) : (s.setRxq ch q).accNs = s.accNs := by
  cases ch <;> rfl
@[simp] theorem State.setRxq_status (s : State) (ch : Channel) (q : List Byte) : (s.setRxq ch q).status = s.status := by
  cases ch <;> rfl
@[simp] theorem State.setRxq_latchFull (s : State) (ch : Channel) (q : List Byte) : (s.setRxq ch q).latchFull = s.latchFull := by
  cases ch <;> rfl
@[simp] theorem State.setRxq_latchByte (s : State) (ch : Channel) (q : List Byte) : (s.setRxq ch q).latchByte = s.latchByte := by
  cases ch <;> rfl
@[simp] theorem State.setRxq_ptr (s : State) (ch : Channel) (q : List Byte) : (s.setRxq ch q).ptr = s.ptr := by
  cases ch <;> rfl
@[simp] theorem State.setRxq_fb (s : State) (ch : Channel) (q : List Byte) : (s.setRxq ch q).fb = s.fb := by
  cases ch <;> rfl
@[simp] theorem State.setRxq_cfFeat (s : State) (ch : Channel) (q : List Byte) : (s.setRxq ch q).cfFeat = s.cfFeat := by
  cases ch <;> rfl
@[simp] theorem State.setRxq_cfCount (s : State) (ch : Channel) (q : List Byte) : (s.setRxq ch q).cfCount = s.cfCount := by
  cases ch <;> rfl
@[simp] theorem State.setRxq_cfLba (s : State) (ch : Channel) (q : List Byte) : (s.setRxq ch q).cfLba = s.cfLba := by
  cases ch <;> rfl
@[simp] theorem State.setRxq_cfMode (s : State) (ch : Channel) (q : List Byte) : (s.setRxq ch q).cfMode = s.cfMode := by
  cases ch <;> rfl
@[simp] theorem State.setRxq_cfPos (s : State) (ch : Channel) (q : List Byte) : (s.setRxq ch q).cfPos = s.cfPos := by
  cases ch <;> rfl
@[simp] theorem State.setRxq_cfBase (s : State) (ch : Channel) (q : List Byte) : (s.setRxq ch q).cfBase = s.cfBase := by
  cases ch <;> rfl
@[simp] theorem State.setRxq_cfPresent (s : State) (ch : Channel) (q : List Byte) : (s.setRxq ch q).cfPresent = s.cfPresent := by
  cases ch <;> rfl
@[simp] theorem State.setRxq_cfSize (s : State) (ch : Channel) (q : List Byte) : (s.setRxq ch q).cfSize = s.cfSize := by
  cases ch <;> rfl
@[simp] theorem State.setRxq_cfImage (s : State) (ch : Channel) (q : List Byte) : (s.setRxq ch q).cfImage = s.cfImage := by
  cases ch <;> rfl
@[simp] theorem State.setRxq_govMark (s : State) (ch : Channel) (q : List Byte) : (s.setRxq ch q).govMark = s.govMark := by
  cases ch <;> rfl
@[simp] theorem State.setRxq_govRunning (s : State) (ch : Channel) (q : List Byte) : (s.setRxq ch q).govRunning = s.govRunning := by
  cases ch <;> rfl
@[simp] theorem State.setRxq_events (s : State) (ch : Channel) (q : List Byte) : (s.setRxq ch q).events = s.events := by
  cases ch <;> rfl
@[simp] theorem State.setRxq_fault (s : State) (ch : Channel) (q : List Byte) : (s.setRxq ch q).fault = s.fault := by
  cases ch <;> rfl
@[simp] theorem State.setRxq_replies (s : State) (ch : Channel) (q : List Byte) : (s.setRxq ch q).replies = s.replies := by
  cases ch <;> rfl
@[simp] theorem State.setRxq_draws (s : State) (ch : Channel) (q : List Byte) : (s.setRxq ch q).draws = s.draws := by
  cases ch <;> rfl
@[simp] theorem State.setRxq_pending (s : State) (ch : Channel) (q : List Byte) : (s.setRxq ch q).pending = s.pending := by
  cases ch <;> rfl
@[simp] theorem State.setRxq_rxq_self (s : State) (ch : Channel) (q : List Byte) : (s.setRxq ch q).rxq ch = q := by
  cases ch <;> rfl
theorem State.setRxq_rxq_other (s : State) {ch ch' : Channel} (q : List Byte) (h : ch' ≠ ch) :
    (s.setRxq ch q).rxq ch' = s.rxq ch' := by
  cases ch <;> cases ch' <;> first | rfl | exact absurd rfl h

/-! What a read leaves in its first component. -/

@[simp] theorem State.vdpDataRead_fst (s : State) : s.vdpDataRead.1 = Mem.read s.vram s.ptr.toNat := rfl
@[simp] theorem State.vdpStatusRead_fst (s : State) :
    s.vdpStatusRead.1 = statusByte s.flagF (Config.statusLow s.draws) := rfl
@[simp] theorem State.drawUnmapped_fst (s : State) : s.drawUnmapped.1 = Config.unmappedRead s.draws := rfl
@[simp] theorem State.drawUnmapped_snd (s : State) : s.drawUnmapped.2 = s.drawn := rfl
@[simp] theorem State.uartStatus_fst (s : State) (ch : Channel) : (s.uartStatus ch).1 = uartStatusByte (s.rxq ch) := rfl
@[simp] theorem State.uartStatus_snd (s : State) (ch : Channel) : (s.uartStatus ch).2 = s := rfl
@[simp] theorem State.cfStatus_fst (s : State) : s.cfStatus.1 = cfStatusByte s.cfPresent s.cfMode := rfl
@[simp] theorem State.cfStatus_snd (s : State) : s.cfStatus.2 = s := rfl
@[simp] theorem State.uartCtrlWrite_eq (s : State) (ch : Channel) (v : Byte) : s.uartCtrlWrite ch v = s := rfl

end Sys2Proof.Machine
end

