-- ==== Sys2Proof/Laws/Ops.lean ====
section
/-! SUPPORT. What each shared operation can do, said once: the two ways a meaning answers, the memory selector, the free
values, the fault, the latch pair, the image accesses and the command of the CF task file. -/

namespace Sys2Proof.Machine

/-! ### How a meaning answers -/

/-- A CPU transaction completes exactly when no fault is recorded (R229, R230). -/
theorem busStep_next {s t : State} {k : State → State} : busStep s k = .next t ↔ s.fault = none ∧ t = k s := by
  unfold busStep
  cases s.fault <;> simp [eq_comm]

theorem busStep_ok {s : State} (k : State → State) (h : s.fault = none) : busStep s k = .next (k s) :=
  busStep_next.mpr ⟨h, rfl⟩

theorem busStep_fault {s : State} (k : State → State) {f : Fault} (h : s.fault = some f) : busStep s k = .fault f := by
  simp [busStep, h]

/-- A K = 5 operation that a fault refuses completes exactly when no fault is recorded (R229). -/
theorem hostStep_next {s t : State} {k : State → State} : hostStep s k = .next t ↔ s.fault = none ∧ t = k s := by
  unfold hostStep
  cases s.fault <;> simp [eq_comm]

theorem hostStep_ok {s : State} (k : State → State) (h : s.fault = none) : hostStep s k = .next (k s) :=
  hostStep_next.mpr ⟨h, rfl⟩

theorem hostStep_refused {s : State} (k : State → State) {f : Fault} (h : s.fault = some f) :
    hostStep s k = .refused .stuckAfterFault := by
  simp [hostStep, h]

/-! ### Main memory -/

/-- A memory write changes main RAM alone: the one byte, or nothing under a visible ROM with `discard` (R62). -/
theorem State.writeSel_eq (s : State) (a : Addr) (v : Byte) :
    s.writeSel a v = { s with ram :=
      if s.paged = true ∨ s.cfg.romLen ≤ a.toNat ∨ s.cfg.writeUnderRom = .ram then Mem.write s.ram a.toNat v
      else s.ram } := by
  unfold State.writeSel
  by_cases h : s.paged = true ∨ s.cfg.romLen ≤ a.toNat
  · rw [if_pos h, if_pos (by tauto)]
  · rw [if_neg h]
    cases hw : s.cfg.writeUnderRom
    · rw [if_pos (by tauto)]
    · rw [if_neg (by simpa using h)]

/-- A read of a memory address from the selector (R60). -/
theorem State.readSel_rom {s : State} {a : Addr} (hp : s.paged = false) (ha : a.toNat < s.cfg.romLen) :
    s.readSel a = romByte s.rom a.toNat := by
  simp [State.readSel, hp, ha]

theorem State.readSel_ram {s : State} {a : Addr} (h : s.paged = true ∨ s.cfg.romLen ≤ a.toNat) :
    s.readSel a = Mem.read s.ram a.toNat := by
  unfold State.readSel
  rw [if_neg]
  rintro ⟨hp, ha⟩
  rcases h with h | h
  · simp [hp] at h
  · omega

/-! ### Free values, the fault -/

/-- An access to the image asks for a free value only with CF_IO_FAULTS = any (R207). -/
theorem State.drawIoFails_eq (s : State) :
    s.drawIoFails = (s.cfg.cfIoFaults && Config.ioFails s.draws,
      { s with draws := s.draws + if s.cfg.cfIoFaults then 1 else 0 }) := by
  unfold State.drawIoFails
  by_cases h : s.cfg.cfIoFaults <;> simp [h, State.drawn]

/-- The first fault recorded stays (R229). -/
theorem State.raise_fault (s : State) (f : Fault) : (s.raise f).fault = some (s.fault.getD f) := by
  unfold State.raise
  cases h : s.fault <;> simp [h]

theorem State.raise_eq (s : State) (f : Fault) : s.raise f = { s with fault := some (s.fault.getD f) } := by
  unfold State.raise
  cases h : s.fault
  · simp
  · simp [← h]

/-! ### The VDP's control pair -/

/-- A first byte fills the latch (R129). -/
theorem State.vdpCtrlWrite_first {s : State} (v : Byte) (h : s.latchFull = false) :
    s.vdpCtrlWrite v = { s with latchByte := v, latchFull := true } := by
  simp [State.vdpCtrlWrite, h]

/-- A second byte with bit 7 set writes a register (R130). -/
theorem State.vdpCtrlWrite_register {s : State} {v : Byte} (h : s.latchFull = true) (hv : pairIsReg v = true) :
    s.vdpCtrlWrite v = { s with latchFull := false, reg := Regs.set3 s.reg (pairReg v) s.latchByte } := by
  simp [State.vdpCtrlWrite, State.vdpPair, h, hv]

/-- A second byte with bit 7 clear sets the pointer (R131). -/
theorem State.vdpCtrlWrite_pointer {s : State} {v : Byte} (h : s.latchFull = true) (hv : pairIsReg v = false) :
    s.vdpCtrlWrite v = { s with latchFull := false, ptr := pairPtr v s.latchByte } := by
  simp [State.vdpCtrlWrite, State.vdpPair, h, hv]

/-- Bit 7 of a second byte, as a number. -/
theorem pairIsReg_iff (v : Byte) : pairIsReg v = true ↔ 128 ≤ v.toNat := by
  revert v
  decide

/-- The pointer a pair sets, as a number (R131). -/
theorem pairPtr_toNat (s f : Byte) : (pairPtr s f).toNat = (s.toNat * 256 + f.toNat) % 16384 := by
  have e : pairPtr s f = (s.setWidth 14 <<< 8) + f.setWidth 14 := by
    unfold pairPtr
    rw [BitVec.add_eq_or_of_and_eq_zero]
    ext i hi
    interval_cases i <;> simp [BitVec.getLsbD_of_ge]
  rw [e, BitVec.toNat_add, BitVec.toNat_shiftLeft, BitVec.toNat_setWidth, BitVec.toNat_setWidth]
  have := s.isLt
  have := f.isLt
  simp only [Nat.shiftLeft_eq]
  omega

/-! ### The register file -/

/-- What a register reads after a write of register `i` (R93). -/
theorem Regs.get_set3 (r : Regs) (i : BitVec 3) (v : Byte) (k : Fin 8) :
    (Regs.set3 r i v)[k] = if k.val = i.toNat then v else r[k] := by
  unfold Regs.set3
  rw [Fin.getElem_fin, Vector.getElem_set]
  by_cases h : k.val = i.toNat <;> simp [h, eq_comm]

/-! ### The CF image and transfers -/

/-- A data access moves the transfer on; the 512th ends it (R206). -/
theorem State.cfAdvance_eq (s : State) :
    s.cfAdvance = { s with cfMode := if s.cfPos + 1 = 512 then .idle else s.cfMode,
                           cfPos := if s.cfPos + 1 = 512 then 0 else s.cfPos + 1 } := by
  unfold State.cfAdvance cfSector
  split_ifs <;> rfl

/-- An image read that fails reads 0x00 (R207). -/
theorem State.imageRead_fails {s : State} (o : Nat) (h : (s.cfg.cfIoFaults && Config.ioFails s.draws) = true) :
    s.imageRead o = (0x00, { s with draws := s.draws + if s.cfg.cfIoFaults then 1 else 0 }) := by
  simp only [State.imageRead, State.drawIoFails_eq, h, if_true]

/-- An image read inside the image (R208). -/
theorem State.imageRead_inside {s : State} {o : Nat} (h : (s.cfg.cfIoFaults && Config.ioFails s.draws) = false)
    (ho : o < s.cfSize) :
    s.imageRead o = (Mem.read s.cfImage o, { s with draws := s.draws + if s.cfg.cfIoFaults then 1 else 0 }) := by
  simp only [State.imageRead, State.drawIoFails_eq, h, Bool.false_eq_true, if_false, ho, if_true]

/-- An image read past the end reads a free value (R208). -/
theorem State.imageRead_pastEnd {s : State} {o : Nat} (h : (s.cfg.cfIoFaults && Config.ioFails s.draws) = false)
    (ho : s.cfSize ≤ o) :
    s.imageRead o = (Config.cfEofRead (s.draws + if s.cfg.cfIoFaults then 1 else 0),
      { s with draws := (s.draws + if s.cfg.cfIoFaults then 1 else 0) + 1 }) := by
  simp only [State.imageRead, State.drawIoFails_eq, h, Bool.false_eq_true, if_false, Nat.not_lt.mpr ho]
  rfl

/-- An image read changes the count of free values alone (R208). -/
theorem State.imageRead_snd (s : State) (o : Nat) : ∃ n, (s.imageRead o).2 = { s with draws := n } := by
  cases h : (s.cfg.cfIoFaults && Config.ioFails s.draws)
  · by_cases ho : o < s.cfSize
    · exact ⟨_, congrArg Prod.snd (State.imageRead_inside h ho)⟩
    · exact ⟨_, congrArg Prod.snd (State.imageRead_pastEnd h (Nat.not_lt.mp ho))⟩
  · exact ⟨_, congrArg Prod.snd (State.imageRead_fails o h)⟩

/-- An image write that fails (R207). -/
theorem State.imageWrite_fails {s : State} (o : Nat) (v : Byte)
    (h : (s.cfg.cfIoFaults && Config.ioFails s.draws) = true) :
    s.imageWrite o v = { s with draws := s.draws + if s.cfg.cfIoFaults then 1 else 0 } := by
  simp only [State.imageWrite, State.drawIoFails_eq, h, if_true]

/-- An image write that does not fail stores the byte and grows the image to hold it (R208). -/
theorem State.imageWrite_ok {s : State} (o : Nat) (v : Byte)
    (h : (s.cfg.cfIoFaults && Config.ioFails s.draws) = false) :
    s.imageWrite o v = { s with draws := s.draws + if s.cfg.cfIoFaults then 1 else 0,
                                cfImage := Mem.write s.cfImage o v, cfSize := max s.cfSize (o + 1) } := by
  simp only [State.imageWrite, State.drawIoFails_eq, h, Bool.false_eq_true, if_false]
  congr 1
  split_ifs <;> omega

/-- The offset a command seeks, in natural numbers (R205). -/
theorem cfLbaOf_toNat (l : Vector Byte 4) :
    (cfLbaOf l).toNat = (l[3].toNat % 16) * 2 ^ 24 + l[2].toNat * 2 ^ 16 + l[1].toNat * 2 ^ 8 + l[0].toNat := by
  unfold cfLbaOf
  generalize l[3] = d, l[2] = c, l[1] = b, l[0] = a
  have hd : (d &&& 0x0F).toNat = d.toNat % 16 := by
    rw [BitVec.toNat_and]
    exact Nat.and_two_pow_sub_one_eq_mod _ 4
  have ha := a.isLt
  have hb := b.isLt
  have hc := c.isLt
  have hba : b.toNat <<< 8 + a.toNat < 2 ^ 16 := by rw [Nat.shiftLeft_eq]; omega
  have hcba : c.toNat <<< 16 + (b.toNat <<< 8 + a.toNat) < 2 ^ 24 := by rw [Nat.shiftLeft_eq]; omega
  have small : ∀ (x : Byte) (k : Nat), k ≤ 16 → (x.toNat % 2 ^ 28) <<< k % 2 ^ 28 = x.toNat <<< k := by
    intro x k hk
    have := x.isLt
    have : x.toNat * 2 ^ k < 2 ^ 8 * 2 ^ 16 :=
      Nat.mul_lt_mul_of_lt_of_le this (Nat.pow_le_pow_right (by decide) hk) (by positivity)
    rw [Nat.shiftLeft_eq, Nat.shiftLeft_eq, Nat.mod_eq_of_lt (by omega : x.toNat < 2 ^ 28),
      Nat.mod_eq_of_lt (by omega)]
  have top : ((d &&& 0x0F).toNat % 2 ^ 28) <<< 24 % 2 ^ 28 = (d.toNat % 16) <<< 24 := by
    rw [hd, Nat.shiftLeft_eq, Nat.shiftLeft_eq]
    omega
  rw [BitVec.toNat_or, BitVec.toNat_or, BitVec.toNat_or, BitVec.toNat_shiftLeft, BitVec.toNat_shiftLeft,
    BitVec.toNat_shiftLeft, BitVec.toNat_setWidth, BitVec.toNat_setWidth, BitVec.toNat_setWidth, BitVec.toNat_setWidth,
    top, small c 16 (by decide), small b 8 (by decide), Nat.mod_eq_of_lt (by omega : a.toNat < 2 ^ 28), Nat.or_assoc,
    Nat.or_assoc, ← Nat.shiftLeft_add_eq_or_of_lt ha, ← Nat.shiftLeft_add_eq_or_of_lt hba,
    ← Nat.shiftLeft_add_eq_or_of_lt hcba]
  simp only [Nat.shiftLeft_eq]
  omega

/-- A seek stays below 2^37 (R205). -/
theorem cfLbaOf_lt (l : Vector Byte 4) : (cfLbaOf l).toNat < 2 ^ 28 := (cfLbaOf l).isLt

end Sys2Proof.Machine
end

