-- ==== Sys2Proof/Laws/Bus.lean ====
section
/-! SUPPORT. What every bus transaction of the CPU Core leaves alone and keeps, said once for each unit and then for any
run of transactions (40_bus_memory to 46_cf_taskfile; 20_memory R74). -/

namespace Sys2Proof.Machine

/-- `t` follows from `s` by bus transactions: what they never touch, how the histories grow, F never set, status bits
6..0 never written, and the two parts of the invariant they can move kept. -/
structure BusFrame (s t : State) : Prop where
  cfg : t.cfg = s.cfg
  rom : t.rom = s.rom
  line : t.line = s.line
  accNs : t.accNs = s.accNs
  fb : t.fb = s.fb
  cfPresent : t.cfPresent = s.cfPresent
  govMark : t.govMark = s.govMark
  govRunning : t.govRunning = s.govRunning
  fault : t.fault = s.fault
  pending : t.pending = s.pending
  events : ∃ more, t.events = s.events ++ more ∧ Event.vsync ∉ more
  replies : ∃ more, t.replies = s.replies ++ more
  flagF : t.flagF = true → s.flagF = true
  statusLow : t.status &&& 0x7F = s.status &&& 0x7F
  tstates : s.tstates ≤ t.tstates
  storesWf : s.storesWf = true → t.storesWf = true
  cfWf : s.cfWf = true → t.cfWf = true

theorem BusFrame.refl (s : State) : BusFrame s s :=
  { cfg := rfl, rom := rfl, line := rfl, accNs := rfl, fb := rfl, cfPresent := rfl, govMark := rfl, govRunning := rfl,
    fault := rfl, pending := rfl, events := ⟨[], by simp⟩, replies := ⟨[], by simp⟩, flagF := id, statusLow := rfl,
    tstates := Nat.le_refl _, storesWf := id, cfWf := id }

theorem BusFrame.trans {s t u : State} (h : BusFrame s t) (g : BusFrame t u) : BusFrame s u where
  cfg := g.cfg.trans h.cfg
  rom := g.rom.trans h.rom
  line := g.line.trans h.line
  accNs := g.accNs.trans h.accNs
  fb := g.fb.trans h.fb
  cfPresent := g.cfPresent.trans h.cfPresent
  govMark := g.govMark.trans h.govMark
  govRunning := g.govRunning.trans h.govRunning
  fault := g.fault.trans h.fault
  pending := g.pending.trans h.pending
  events := by
    obtain ⟨a, ha, na⟩ := h.events
    obtain ⟨b, hb, nb⟩ := g.events
    exact ⟨a ++ b, by rw [hb, ha, List.append_assoc], by simp [na, nb]⟩
  replies := by
    obtain ⟨a, ha⟩ := h.replies
    obtain ⟨b, hb⟩ := g.replies
    exact ⟨a ++ b, by rw [hb, ha, List.append_assoc]⟩
  flagF := fun x => h.flagF (g.flagF x)
  statusLow := g.statusLow.trans h.statusLow
  tstates := h.tstates.trans g.tstates
  storesWf := fun x => g.storesWf (h.storesWf x)
  cfWf := fun x => g.cfWf (h.cfWf x)

/-- The parts of the three stores' invariant. -/
theorem State.storesWf_iff (s : State) : s.storesWf = true ↔
    Mem.wf s.ram ramSize = true ∧ Mem.wf s.vram vramSize = true ∧ Mem.wf s.cfImage s.cfSize = true := by
  simp [State.storesWf, and_assoc]

/-- The parts of the task file's invariant. -/
theorem State.cfWf_iff (s : State) : s.cfWf = true ↔
    s.cfPos < cfSector ∧ (s.cfMode ≠ .idle ∨ s.cfPos = 0) ∧ (s.cfMode = .idle ∨ s.cfPresent = true)
      ∧ s.cfBase % cfSector = 0 ∧ s.cfBase < 2 ^ 37 := by
  simp [State.cfWf, and_assoc]

/-! ### The shared operations -/

theorem State.tick_frame (s : State) (n : Nat) : BusFrame s (s.tick n) :=
  { BusFrame.refl s with tstates := Nat.le_add_right _ _ }

theorem State.drawn_frame (s : State) : BusFrame s s.drawn := { BusFrame.refl s with }

theorem State.finishRead_frame {s : State} (n : Nat) {r : Byte × State} (h : BusFrame s r.2) :
    BusFrame s (State.finishRead n r) :=
  h.trans { BusFrame.refl r.2 with replies := ⟨[.bus r.1], rfl⟩, tstates := Nat.le_add_right _ _ }

theorem State.writeSel_frame (s : State) (a : Addr) (v : Byte) : BusFrame s (s.writeSel a v) := by
  rw [State.writeSel_eq]
  refine { BusFrame.refl s with storesWf := fun h => ?_ }
  rw [State.storesWf_iff] at h ⊢
  refine ⟨?_, h.2⟩
  show Mem.wf (if _ then _ else _) _ = true
  split_ifs
  · exact Mem.wf_write v a.isLt h.1
  · exact h.1

/-! ### The VDP -/

/-- Clearing F. -/
theorem statusClearF_keeps (st : Byte) : (statusClearF st).getLsbD 7 = false ∧ statusClearF st &&& 0x7F = st &&& 0x7F := by
  revert st
  decide

/-- Setting F. -/
theorem statusSetF_keeps (st : Byte) : (statusSetF st).getLsbD 7 = true ∧ statusSetF st &&& 0x7F = st &&& 0x7F := by
  revert st
  decide

theorem State.vdpDataWrite_frame (s : State) (v : Byte) : BusFrame s (s.vdpDataWrite v) := by
  refine { BusFrame.refl s with storesWf := fun h => ?_ }
  rw [State.storesWf_iff] at h ⊢
  exact ⟨h.1, Mem.wf_write v s.ptr.isLt h.2.1, h.2.2⟩

theorem State.vdpDataRead_frame (s : State) : BusFrame s s.vdpDataRead.2 := { BusFrame.refl s with }

theorem State.vdpStatusRead_frame (s : State) : BusFrame s s.vdpStatusRead.2 :=
  { BusFrame.refl s with
    flagF := fun h => absurd ((statusClearF_keeps s.status).1.symm.trans h) (by simp)
    statusLow := (statusClearF_keeps s.status).2 }

theorem State.vdpCtrlWrite_frame (s : State) (v : Byte) : BusFrame s (s.vdpCtrlWrite v) := by
  cases hl : s.latchFull
  · rw [State.vdpCtrlWrite_first v hl]
    exact { BusFrame.refl s with }
  · cases hv : pairIsReg v
    · rw [State.vdpCtrlWrite_pointer hl hv]
      exact { BusFrame.refl s with }
    · rw [State.vdpCtrlWrite_register hl hv]
      exact { BusFrame.refl s with }

/-! ### The UART -/

theorem State.setRxq_frame (s : State) (ch : Channel) (q : List Byte) : BusFrame s (s.setRxq ch q) := by
  cases ch <;> exact { BusFrame.refl s with }

theorem State.uartDataRead_frame (s : State) (ch : Channel) : BusFrame s (s.uartDataRead ch).2 := by
  unfold State.uartDataRead
  cases s.rxq ch
  · exact BusFrame.refl s
  · exact s.setRxq_frame ch _

theorem State.uartDataWrite_frame (s : State) (ch : Channel) (v : Byte) : BusFrame s (s.uartDataWrite ch v) :=
  { BusFrame.refl s with events := ⟨[.uartTx ch v], rfl, by simp⟩ }

/-! ### The CF task file -/

/-- A data access inside a transfer. -/
theorem State.cfAdvance_frame {s : State} (hm : s.cfMode ≠ .idle) : BusFrame s s.cfAdvance := by
  rw [State.cfAdvance_eq]
  refine { BusFrame.refl s with cfWf := fun h => ?_ }
  rw [State.cfWf_iff] at h ⊢
  unfold cfSector at h ⊢
  by_cases hp : s.cfPos + 1 = 512
  · simp only [hp, if_true]
    exact ⟨by decide, .inr trivial, .inl trivial, h.2.2.2⟩
  · simp only [hp, if_false]
    exact ⟨by omega, .inl hm, h.2.2⟩

theorem State.imageRead_frame (s : State) (o : Nat) : BusFrame s (s.imageRead o).2 := by
  obtain ⟨n, hn⟩ := s.imageRead_snd o
  rw [hn]
  exact { BusFrame.refl s with }

theorem State.imageWrite_frame (s : State) (o : Nat) (v : Byte) : BusFrame s (s.imageWrite o v) := by
  cases h : (s.cfg.cfIoFaults && Config.ioFails s.draws)
  · rw [State.imageWrite_ok o v h]
    refine { BusFrame.refl s with storesWf := fun w => ?_ }
    rw [State.storesWf_iff] at w ⊢
    exact ⟨w.1, w.2.1, Mem.wf_write v (Nat.lt_of_lt_of_le (Nat.lt_succ_self o) (Nat.le_max_right _ _))
      (Mem.wf_widen (Nat.le_max_left _ _) w.2.2)⟩
  · rw [State.imageWrite_fails o v h]
    exact { BusFrame.refl s with }

/-- An image access leaves the transfer alone. -/
theorem State.imageRead_cfMode (s : State) (o : Nat) : (s.imageRead o).2.cfMode = s.cfMode := by
  obtain ⟨n, hn⟩ := s.imageRead_snd o
  rw [hn]

theorem State.imageWrite_cfMode (s : State) (o : Nat) (v : Byte) : (s.imageWrite o v).cfMode = s.cfMode := by
  cases h : (s.cfg.cfIoFaults && Config.ioFails s.draws)
  · rw [State.imageWrite_ok o v h]
  · rw [State.imageWrite_fails o v h]

theorem State.cfDataRead_frame (s : State) : BusFrame s s.cfDataRead.2 := by
  unfold State.cfDataRead
  split_ifs with h
  · refine (s.imageRead_frame _).trans (State.cfAdvance_frame ?_)
    rw [State.imageRead_cfMode, h]
    decide
  · exact BusFrame.refl s

theorem State.cfDataWrite_frame (s : State) (v : Byte) : BusFrame s (s.cfDataWrite v) := by
  unfold State.cfDataWrite
  split_ifs with h
  · refine (s.imageWrite_frame _ v).trans (State.cfAdvance_frame ?_)
    rw [State.imageWrite_cfMode, h]
    decide
  · exact BusFrame.refl s

theorem State.cfStage_frame (s : State) (m : CfMode) (hm : m ≠ .idle) : BusFrame s (s.cfStage m) := by
  unfold State.cfStage
  split_ifs with hp
  · refine { BusFrame.refl s with cfWf := fun h => ?_ }
    rw [State.cfWf_iff] at h ⊢
    have := cfLbaOf_lt s.cfLba
    exact ⟨show 0 < 512 by decide, .inl hm, .inr hp, Nat.mul_mod_left _ _, by unfold cfSector; show _ * 512 < _; omega⟩
  · exact BusFrame.refl s

theorem State.cfCommand_frame (s : State) (v : Byte) : BusFrame s (s.cfCommand v) := by
  unfold State.cfCommand
  split_ifs
  · exact s.cfStage_frame .read (by decide)
  · exact s.cfStage_frame .write (by decide)
  · exact BusFrame.refl s

/-! ### The port dispatch and whole transactions -/

theorem State.portRead_frame (s : State) (p : Port) : BusFrame s (s.portRead p).2 := by
  unfold State.portRead
  split
  · exact s.vdpDataRead_frame
  · exact s.vdpStatusRead_frame
  · exact BusFrame.refl s
  · exact s.uartDataRead_frame _
  · exact s.cfDataRead_frame
  · exact BusFrame.refl s
  · exact BusFrame.refl s
  · exact BusFrame.refl s
  · exact BusFrame.refl s
  · exact s.drawn_frame
  · exact s.drawn_frame

theorem State.portWrite_frame (s : State) (p : Port) (v : Byte) : BusFrame s (s.portWrite p v) := by
  unfold State.portWrite
  split
  · exact s.vdpDataWrite_frame v
  · exact s.vdpCtrlWrite_frame v
  · exact { BusFrame.refl s with }
  · exact BusFrame.refl s
  · exact s.uartDataWrite_frame _ v
  · exact s.cfDataWrite_frame v
  · exact { BusFrame.refl s with }
  · exact { BusFrame.refl s with }
  · exact { BusFrame.refl s with }
  · exact s.cfCommand_frame v
  · exact BusFrame.refl s

theorem State.ioRead_frame (s : State) (p : Port) : BusFrame s (s.ioRead p) :=
  State.finishRead_frame tIo (s.portRead_frame p)

theorem State.ioWrite_frame (s : State) (p : Port) (v : Byte) : BusFrame s (s.ioWrite p v) :=
  (s.portWrite_frame p v).trans (State.tick_frame _ tIo)

theorem State.busFetch_frame (s : State) (a : Addr) : BusFrame s (s.busFetch a) :=
  State.finishRead_frame tFetch (BusFrame.refl s)

theorem State.busMread_frame (s : State) (a : Addr) : BusFrame s (s.busMread a) :=
  State.finishRead_frame tMem (BusFrame.refl s)

theorem State.busMwrite_frame (s : State) (a : Addr) (v : Byte) : BusFrame s (s.busMwrite a v) :=
  (s.writeSel_frame a v).trans (State.tick_frame _ tMem)

/-- A bus transaction of the CPU Core. -/
theorem State.busTxn_frame (s : State) (x : Txn) : BusFrame s (s.busTxn x) := by
  cases x with
  | fetch a => exact s.busFetch_frame a
  | mread a => exact s.busMread_frame a
  | mwrite a v => exact s.busMwrite_frame a v
  | ioread port => exact s.ioRead_frame _
  | iowrite port v => exact s.ioWrite_frame _ v

@[simp] theorem State.busTxns_nil (s : State) : s.busTxns [] = s := rfl

@[simp] theorem State.busTxns_cons (s : State) (x : Txn) (xs : List Txn) :
    s.busTxns (x :: xs) = (s.busTxn x).busTxns xs := rfl

/-- Any run of transactions. -/
theorem State.busTxns_frame (xs : List Txn) : ∀ s : State, BusFrame s (s.busTxns xs) := by
  induction xs with
  | nil => exact BusFrame.refl
  | cons x xs ih => exact fun s => (s.busTxn_frame x).trans (ih _)

/-- The interrupt acknowledge (R234). -/
theorem State.intAckCycle_frame (s : State) : BusFrame s s.intAckCycle :=
  State.finishRead_frame 0 s.drawn_frame

/-! ### The t-state counter -/

/-- T-states of a transaction (R85, R109). -/
def txnCost : Txn → Nat
  | .fetch _ => 4
  | .mread _ => 3
  | .mwrite _ _ => 3
  | .ioread _ => 4
  | .iowrite _ _ => 4

theorem State.portRead_tstates (s : State) (p : Port) : (s.portRead p).2.tstates = s.tstates := by
  unfold State.portRead
  split <;> try rfl
  · unfold State.uartDataRead
    cases s.rxq _
    · rfl
    · exact State.setRxq_tstates ..
  · unfold State.cfDataRead
    split_ifs
    · obtain ⟨n, hn⟩ := s.imageRead_snd (s.cfBase + s.cfPos)
      simp only [hn, State.cfAdvance_eq]
    · rfl

theorem State.portWrite_tstates (s : State) (p : Port) (v : Byte) : (s.portWrite p v).tstates = s.tstates := by
  unfold State.portWrite
  split <;> try rfl
  · cases hl : s.latchFull
    · rw [State.vdpCtrlWrite_first v hl]
    · cases hv : pairIsReg v
      · rw [State.vdpCtrlWrite_pointer hl hv]
      · rw [State.vdpCtrlWrite_register hl hv]
  · unfold State.cfDataWrite
    split_ifs
    · rw [State.cfAdvance_eq]
      cases h : (s.cfg.cfIoFaults && Config.ioFails s.draws)
      · rw [State.imageWrite_ok _ v h]
      · rw [State.imageWrite_fails _ v h]
    · rfl
  · unfold State.cfCommand State.cfStage
    split_ifs <;> rfl

/-- Every transaction adds its kind's cost, nothing else moves the counter (R109, R113). -/
theorem State.busTxn_tstates (s : State) (x : Txn) : (s.busTxn x).tstates = s.tstates + txnCost x := by
  cases x with
  | fetch a => rfl
  | mread a => rfl
  | mwrite a v => simp [State.busTxn, State.busMwrite, State.writeSel_eq, txnCost, tMem]
  | ioread port => simp [State.busTxn, State.ioRead, State.portRead_tstates, txnCost, tIo]
  | iowrite port v => simp [State.busTxn, State.ioWrite, State.portWrite_tstates, txnCost, tIo]

theorem State.busTxns_tstates (xs : List Txn) : ∀ s : State,
    (s.busTxns xs).tstates = s.tstates + (xs.map txnCost).sum := by
  induction xs with
  | nil => intro s; rfl
  | cons x xs ih =>
    intro s
    rw [State.busTxns_cons, ih, State.busTxn_tstates, List.map_cons, List.sum_cons, Nat.add_assoc]

end Sys2Proof.Machine
end

