-- ==== Sys2Proof/Laws/Decode.lean ====
section
/-! SUPPORT. The fields of an assembled word (30_encoding R84): what the encoder puts in is what the decoder takes out. -/

namespace Sys2Proof

@[simp] theorem wordPad_mkWord (k : BitVec 3) (a : Addr) (d : Byte) : wordPad (mkWord k a d) = 0 := by
  simp only [wordPad, mkWord]
  ext i hi
  interval_cases i <;> simp [BitVec.getLsbD_of_ge]

@[simp] theorem wordKind_mkWord (k : BitVec 3) (a : Addr) (d : Byte) : wordKind (mkWord k a d) = k := by
  simp only [wordKind, mkWord]
  ext i hi
  interval_cases i <;> simp [BitVec.getLsbD_of_ge, BitVec.getLsbD_eq_getElem]

@[simp] theorem wordAddr_mkWord (k : BitVec 3) (a : Addr) (d : Byte) : wordAddr (mkWord k a d) = a := by
  simp only [wordAddr, mkWord]
  ext i hi
  interval_cases i <;> simp [BitVec.getLsbD_of_ge, BitVec.getLsbD_eq_getElem]

@[simp] theorem wordData_mkWord (k : BitVec 3) (a : Addr) (d : Byte) : wordData (mkWord k a d) = d := by
  simp only [wordData, mkWord]
  ext i hi
  interval_cases i <;> simp [BitVec.getLsbD_eq_getElem]

@[simp] theorem wordPort_mkWord (k : BitVec 3) (p : Port) (d : Byte) : wordPort (mkWord k (portAddr p) d) = p := by
  simp only [wordPort, mkWord, portAddr]
  ext i hi
  interval_cases i <;> simp [BitVec.getLsbD_of_ge, BitVec.getLsbD_eq_getElem]

@[simp] theorem opWord_beside (a : Addr) (v : Byte) (b : Beside) : (opWord a v b).2 = b := rfl

/-- The encoding of a conditional, case by case. -/
theorem encode_ite {c : Prop} [Decidable c] {i j : Instr} {r : Word × Beside} (hi : c → encode i = r)
    (hj : ¬c → encode j = r) : encode (if c then i else j) = r := by
  by_cases h : c
  · rw [if_pos h, hi h]
  · rw [if_neg h, hj h]

/-- A conditional answer: either its case or the rest. -/
theorem ok_of_ite {c : Prop} [Decidable c] {i j : Instr} {rest : Except Reject Instr}
    (h : (if c then .ok i else rest) = Except.ok j) : (c ∧ j = i) ∨ rest = .ok j := by
  by_cases hc : c
  · rw [if_pos hc] at h
    exact .inl ⟨hc, (Except.ok.inj h).symm⟩
  · rw [if_neg hc] at h
    exact .inr h

/-- A port's IOREAD row is encoded as an IOREAD of that port. -/
theorem encode_decodeRead (p : Port) : encode (decodeRead p) = readWord p := by
  unfold decodeRead
  iterate 17 refine encode_ite (by rintro rfl; rfl) fun _ => ?_
  rfl

/-- A port's IOWRITE row is encoded as an IOWRITE of that byte to that port. -/
theorem encode_decodeWrite (p : Port) (v : Byte) : encode (decodeWrite p v) = writeWord p v := by
  unfold decodeWrite
  iterate 7 refine encode_ite (by rintro rfl; rfl) fun _ => ?_
  refine encode_ite (by
    rintro rfl
    exact encode_ite (by rintro rfl; rfl) fun _ => encode_ite (by rintro rfl; rfl) fun _ => rfl) fun _ => ?_
  refine encode_ite (by
    rintro rfl
    exact encode_ite (by rintro rfl; rfl) fun _ => rfl) fun _ => ?_
  iterate 8 refine encode_ite (by rintro rfl; rfl) fun _ => ?_
  rfl

/-- A K = 5 row is encoded with its own op code, and with K = 5. -/
theorem encode_decodeOp {a : Addr} {v : Byte} {b : Beside} {i : Instr} (h : decodeOp a v b = .ok i) :
    ∃ d b', encode i = opWord a d b' := by
  unfold decodeOp at h
  iterate 17
    rcases ok_of_ite h with ⟨rfl, rfl⟩ | h
    · exact ⟨_, _, rfl⟩
  cases h

/-- An IOREAD row is never a K = 5 operation: decoding it back needs no operand beside the word. -/
theorem decode_readWord (p : Port) (b : Beside) : decode (readWord p).1 b = .ok (decodeRead p) := by
  simp [decode, readWord]

/-- Decoding an IOWRITE of a byte to a port. -/
theorem decode_writeWord (p : Port) (v : Byte) (b : Beside) : decode (writeWord p v).1 b = .ok (decodeWrite p v) := by
  simp [decode, writeWord]

/-- Decoding a K = 5 word. -/
theorem decode_opWord (a : Addr) (v : Byte) (b b' : Beside) : decode (opWord a v b).1 b' = decodeOp a v b' := by
  simp [decode, opWord]

/-- The kinds, by cases. -/
theorem kind_cases (k : BitVec 3) : k = 0 ∨ k = 1 ∨ k = 2 ∨ k = 3 ∨ k = 4 ∨ k = 5 ∨ k = 6 ∨ k = 7 := by
  revert k
  decide

end Sys2Proof
end

