-- ==== Sys2Proof/Laws/Raster.lean ====
section
/-! SUPPORT. The raster sequencer, said once (43_vdp_raster R138, R139, R146 to R149): the loop of RASTER_ADVANCE is a
number of row steps, and a number of row steps has a closed form. -/

namespace Sys2Proof.Machine

/-- `k` row steps. -/
def State.rowSteps (k : Nat) (s : State) : State := State.rowStep^[k] s

@[simp] theorem State.rowSteps_zero (s : State) : s.rowSteps 0 = s := rfl

theorem State.rowSteps_succ (k : Nat) (s : State) : s.rowSteps (k + 1) = (s.rowSteps k).rowStep :=
  Function.iterate_succ_apply' _ _ _

theorem State.rowSteps_succ' (k : Nat) (s : State) : s.rowSteps (k + 1) = s.rowStep.rowSteps k := rfl

theorem VideoStd.totalRows_pos (v : VideoStd) : 240 < v.totalRows := by cases v <;> decide

theorem VideoStd.rowNs_pos (v : VideoStd) : 0 < v.rowNs := by cases v <;> norm_num [VideoStd.rowNs]

/-- A row step renders the row the counter stands on, moves the counter, and on a wraparound sets F and emits Vsync
(R139); nothing else. -/
theorem State.rowStep_eq (s : State) : s.rowStep =
    { s with fb := if s.line < 240 then s.fb.setIfInBounds s.line (rowPixels s.cfg.spriteYOffset s.reg s.vram s.line)
                   else s.fb
             line := if s.line + 1 = s.totalRows then 0 else s.line + 1
             status := if s.line + 1 = s.totalRows then statusSetF s.status else s.status
             events := if s.line + 1 = s.totalRows then s.events ++ [.vsync] else s.events } := by
  unfold State.rowStep State.renderLine State.nextLine visibleRows State.renderRow State.emit State.totalRows
  split_ifs <;> rfl

/-- The accumulator plays no part in a row step. -/
theorem State.rowStep_accNs (s : State) (x : Rat) :
    State.rowStep { s with accNs := x } = { s.rowStep with accNs := x } := by
  rw [State.rowStep_eq, State.rowStep_eq]
  rfl

theorem State.rowSteps_accNs (k : Nat) (x : Rat) : ∀ s : State,
    State.rowSteps k { s with accNs := x } = { s.rowSteps k with accNs := x } := by
  induction k with
  | zero => exact fun _ => rfl
  | succ k ih =>
    intro s
    rw [State.rowSteps_succ, ih, State.rowStep_accNs, State.rowSteps_succ]

/-- What no row step touches. -/
theorem State.rowSteps_frame (k : Nat) (s : State) : s.rowSteps k =
    { s with fb := (s.rowSteps k).fb, line := (s.rowSteps k).line, status := (s.rowSteps k).status,
             events := (s.rowSteps k).events } := by
  induction k with
  | zero => rfl
  | succ k ih =>
    rw [State.rowSteps_succ, State.rowStep_eq]
    generalize s.rowSteps k = t at ih
    rw [ih]

theorem State.rowSteps_cfg (k : Nat) (s : State) : (s.rowSteps k).cfg = s.cfg := by rw [State.rowSteps_frame]
theorem State.rowSteps_reg (k : Nat) (s : State) : (s.rowSteps k).reg = s.reg := by rw [State.rowSteps_frame]
theorem State.rowSteps_vram (k : Nat) (s : State) : (s.rowSteps k).vram = s.vram := by rw [State.rowSteps_frame]

/-- The counter after `k` row steps (R146). -/
theorem State.rowSteps_line (k : Nat) (s : State) (h : s.line < s.totalRows) :
    (s.rowSteps k).line = (s.line + k) % s.totalRows := by
  induction k with
  | zero => exact (Nat.mod_eq_of_lt h).symm
  | succ k ih =>
    rw [State.rowSteps_succ, State.rowStep_eq]
    have hT : (s.rowSteps k).totalRows = s.totalRows := by unfold State.totalRows; rw [State.rowSteps_cfg]
    simp only [ih, hT]
    have hpos : 0 < s.totalRows := Nat.lt_of_le_of_lt (Nat.zero_le _) h
    rw [← Nat.add_assoc, Nat.add_mod (s.line + k) 1]
    have hlt := Nat.mod_lt (s.line + k) hpos
    have : 1 < s.totalRows := Nat.lt_trans (by decide) (VideoStd.totalRows_pos s.cfg.videoStd)
    rw [Nat.mod_eq_of_lt this]
    split_ifs with e
    · rw [e, Nat.mod_self]
    · exact (Nat.mod_eq_of_lt (by omega)).symm

/-- `(n + 1) / T` and `(n + 1) % T` by whether the step wraps. -/
theorem succ_div_wrap {n T : Nat} (hT : 0 < T) :
    (n + 1) / T = if n % T + 1 = T then n / T + 1 else n / T := by
  rw [Nat.succ_div]
  have := Nat.div_add_mod n T
  have := Nat.mod_lt n hT
  by_cases h : n % T + 1 = T
  · have : T ∣ n + 1 := ⟨n / T + 1, by rw [Nat.mul_add]; omega⟩
    simp [this, h]
  · have : ¬ T ∣ n + 1 := by
      rintro ⟨c, hc⟩
      apply h
      have h1 : (n + 1) % T = 0 := by rw [hc]; exact Nat.mul_mod_right _ _
      rw [Nat.add_mod] at h1
      rcases Nat.lt_or_ge 1 T with h1T | h1T
      · rw [Nat.mod_eq_of_lt h1T] at h1
        by_contra hne
        rw [Nat.mod_eq_of_lt (by omega)] at h1
        omega
      · omega
    simp [this, h]

/-- One Vsync per wraparound (R140, R149). -/
theorem State.rowSteps_events (k : Nat) (s : State) (h : s.line < s.totalRows) :
    (s.rowSteps k).events = s.events ++ List.replicate ((s.line + k) / s.totalRows) .vsync := by
  induction k with
  | zero => simp [Nat.div_eq_of_lt h]
  | succ k ih =>
    rw [State.rowSteps_succ, State.rowStep_eq]
    have hT : (s.rowSteps k).totalRows = s.totalRows := by unfold State.totalRows; rw [State.rowSteps_cfg]
    simp only [ih, hT, s.rowSteps_line k h, ← Nat.add_assoc]
    rw [succ_div_wrap (Nat.lt_of_le_of_lt (Nat.zero_le _) h)]
    split_ifs with e
    · rw [List.append_assoc, ← List.replicate_succ']
    · rfl

theorem statusSetF_idem (st : Byte) : statusSetF (statusSetF st) = statusSetF st := by
  revert st
  decide

/-- F after `k` row steps: set by the first wraparound, and it stays (R144). -/
theorem State.rowSteps_status (k : Nat) (s : State) (h : s.line < s.totalRows) :
    (s.rowSteps k).status = if s.totalRows ≤ s.line + k then statusSetF s.status else s.status := by
  have hpos : 0 < s.totalRows := Nat.lt_of_le_of_lt (Nat.zero_le _) h
  induction k with
  | zero => rw [State.rowSteps_zero, if_neg (by omega)]
  | succ k ih =>
    rw [State.rowSteps_succ, State.rowStep_eq]
    have hT : (s.rowSteps k).totalRows = s.totalRows := by unfold State.totalRows; rw [State.rowSteps_cfg]
    simp only [ih, hT, s.rowSteps_line k h]
    by_cases hk : s.totalRows ≤ s.line + k
    · rw [if_pos hk, if_pos (by omega : s.totalRows ≤ s.line + (k + 1)), statusSetF_idem, ite_self]
    · rw [if_neg hk, Nat.mod_eq_of_lt (by omega)]
      by_cases e : s.line + k + 1 = s.totalRows
      · rw [if_pos e, if_pos (by omega)]
      · rw [if_neg e, if_neg (by omega)]

/-- A row step renders the row the counter stands on, and no other. -/
theorem State.rowStep_fb (s : State) (r : Fin 240) : s.rowStep.fb[r] =
    if s.line = r.val then rowPixels s.cfg.spriteYOffset s.reg s.vram r.val else s.fb[r] := by
  have e : s.rowStep.fb = if s.line < 240 then
      s.fb.setIfInBounds s.line (rowPixels s.cfg.spriteYOffset s.reg s.vram s.line) else s.fb := by
    rw [State.rowStep_eq]
  rw [e, Fin.getElem_fin, Fin.getElem_fin]
  by_cases hl : s.line < 240
  · rw [if_pos hl, Vector.getElem_setIfInBounds]
    split_ifs with h
    · rw [h]
    · rfl
  · rw [if_neg hl, if_neg (by have := r.isLt; omega)]

/-- The framebuffer after `k` row steps: exactly the rows the counter stood on are rendered (R139, R147). -/
theorem State.rowSteps_fb (k : Nat) (s : State) (h : s.line < s.totalRows) (r : Fin 240) :
    (s.rowSteps k).fb[r] =
      if (r.val + s.totalRows - s.line) % s.totalRows < k then rowPixels s.cfg.spriteYOffset s.reg s.vram r.val
      else s.fb[r] := by
  have hpos : 0 < s.totalRows := Nat.lt_of_le_of_lt (Nat.zero_le _) h
  have hr : r.val < s.totalRows := Nat.lt_trans r.isLt (VideoStd.totalRows_pos s.cfg.videoStd)
  induction k with
  | zero => rw [State.rowSteps_zero, if_neg (Nat.not_lt_zero _)]
  | succ k ih =>
    rw [State.rowSteps_succ, State.rowStep_fb, State.rowSteps_cfg, State.rowSteps_reg, State.rowSteps_vram,
      s.rowSteps_line k h]
    have key : (s.line + k) % s.totalRows = r.val → (r.val + s.totalRows - s.line) % s.totalRows < k + 1 := by
      intro e
      have : (r.val + s.totalRows - s.line) % s.totalRows = k % s.totalRows := by
        have hk := Nat.div_add_mod (s.line + k) s.totalRows
        rw [e] at hk
        apply (Nat.ModEq.add_left_cancel' s.line)
        show (s.line + (r.val + s.totalRows - s.line)) % s.totalRows = (s.line + k) % s.totalRows
        rw [e, show s.line + (r.val + s.totalRows - s.line) = r.val + s.totalRows by omega, Nat.add_mod_right,
          Nat.mod_eq_of_lt hr]
      rw [this]
      exact Nat.lt_succ_of_le (Nat.mod_le _ _)
    have key' : (s.line + k) % s.totalRows ≠ r.val →
        ((r.val + s.totalRows - s.line) % s.totalRows < k + 1 ↔ (r.val + s.totalRows - s.line) % s.totalRows < k) := by
      intro e
      constructor
      · intro hlt
        rcases Nat.lt_or_eq_of_le (Nat.le_of_lt_succ hlt) with h1 | h1
        · exact h1
        · exfalso
          apply e
          rw [← h1, Nat.add_mod, Nat.mod_mod, ← Nat.add_mod,
            show s.line + (r.val + s.totalRows - s.line) = r.val + s.totalRows by omega, Nat.add_mod_right,
            Nat.mod_eq_of_lt hr]
      · exact fun h1 => Nat.lt_succ_of_lt h1
    by_cases e : (s.line + k) % s.totalRows = r.val
    · rw [if_pos (key e), if_pos e]
    · rw [if_congr (key' e) rfl rfl, ← ih, if_neg e]

/-! ### The advance -/

/-- The loop completes exactly the whole rows the accumulator holds, with any fuel that is enough (R138). -/
theorem State.rasterLoop_eq : ∀ (n k : Nat) (s : State), k ≤ n → (k : Rat) * s.rowNs ≤ s.accNs →
    s.accNs < (k + 1 : Nat) * s.rowNs →
    State.rasterLoop n s = { s.rowSteps k with accNs := s.accNs - k * s.rowNs }
  | 0, k, s, hk, _, _ => by
    obtain rfl : k = 0 := Nat.le_zero.mp hk
    simp [State.rasterLoop]
  | n + 1, k, s, hk, h1, h2 => by
    have hpos : 0 < s.rowNs := VideoStd.rowNs_pos _
    unfold State.rasterLoop
    cases k with
    | zero =>
      rw [if_neg (by simpa using h2)]
      simp
    | succ k =>
      have hle : s.rowNs ≤ s.accNs := by
        refine le_trans ?_ h1
        push_cast
        nlinarith [show (0 : Rat) ≤ k from Nat.cast_nonneg k]
      rw [if_pos hle]
      have hrow : (State.rowStep { s with accNs := s.accNs - s.rowNs }).rowNs = s.rowNs := by
        rw [State.rowStep_eq]
        rfl
      have hacc : (State.rowStep { s with accNs := s.accNs - s.rowNs }).accNs = s.accNs - s.rowNs := by
        rw [State.rowStep_eq]
      rw [State.rasterLoop_eq n k _ (by omega) (by rw [hrow, hacc]; push_cast at h1; linarith)
        (by rw [hrow, hacc]; push_cast at h2 ⊢; linarith), hrow, hacc, ← State.rowSteps_succ', State.rowSteps_accNs]
      rw [show s.accNs - s.rowNs - k * s.rowNs = s.accNs - ((k + 1 : Nat) : Rat) * s.rowNs by push_cast; ring]

/-- From any state and any time, an advance is some number of row steps and some rest of time. -/
theorem State.rasterLoop_rows : ∀ (n : Nat) (s : State), ∃ k x, State.rasterLoop n s = { s.rowSteps k with accNs := x }
  | 0, s => ⟨0, s.accNs, rfl⟩
  | n + 1, s => by
    unfold State.rasterLoop
    split_ifs
    · obtain ⟨k, x, h⟩ := State.rasterLoop_rows n (State.rowStep { s with accNs := s.accNs - s.rowNs })
      exact ⟨k + 1, x, by rw [h, ← State.rowSteps_succ', State.rowSteps_accNs]⟩
    · exact ⟨0, s.accNs, rfl⟩

theorem State.rasterAdvance_rows (s : State) (dns : Rat) :
    ∃ k x, s.rasterAdvance dns = { s.rowSteps k with accNs := x } := by
  obtain ⟨k, x, h⟩ := State.rasterLoop_rows _ { s with accNs := s.accNs + dns }
  exact ⟨k, x, by rw [State.rasterAdvance, h, State.rowSteps_accNs]⟩

/-- The event history only grows under row steps. -/
theorem State.rowSteps_events_grow (k : Nat) (s : State) : ∃ more, (s.rowSteps k).events = s.events ++ more := by
  induction k with
  | zero => exact ⟨[], by simp⟩
  | succ k ih =>
    obtain ⟨more, h⟩ := ih
    rw [State.rowSteps_succ, State.rowStep_eq]
    simp only [h]
    split_ifs
    · exact ⟨more ++ [.vsync], by simp⟩
    · exact ⟨more, rfl⟩

/-- How many whole rows a time holds. -/
theorem wholeRows {acc row : Rat} (hr : 0 < row) (ha : 0 ≤ acc) :
    (((acc / row).floor.toNat : Nat) : Rat) * row ≤ acc ∧ acc < (((acc / row).floor.toNat + 1 : Nat) : Rat) * row := by
  have h0 : 0 ≤ (acc / row).floor := Rat.le_floor_iff.mpr (by simpa using div_nonneg ha hr.le)
  have hc : (((acc / row).floor.toNat : Nat) : Rat) = ((acc / row).floor : Rat) := by
    rw [← Int.cast_natCast, Int.toNat_of_nonneg h0]
  constructor
  · rw [hc]
    exact (le_div_iff₀ hr).mp (Rat.floor_le _)
  · push_cast
    rw [hc]
    have hlt := Rat.lt_floor_add_one (acc / row)
    push_cast at hlt
    exact (div_lt_iff₀ hr).mp hlt

/-- `RasterAdvance` (R138): the whole rows of `acc_ns + dns` are stepped, the remainder is kept. -/
theorem State.rasterAdvance_eq (s : State) (dns : Rat) (h : 0 ≤ s.accNs + dns) :
    s.rasterAdvance dns =
      { s.rowSteps ((s.accNs + dns) / s.rowNs).floor.toNat with
        accNs := s.accNs + dns - ((s.accNs + dns) / s.rowNs).floor.toNat * s.rowNs } := by
  obtain ⟨h1, h2⟩ := wholeRows (VideoStd.rowNs_pos s.cfg.videoStd) h
  unfold State.rasterAdvance
  rw [State.rasterLoop_eq _ _ _ (Nat.le_refl _) h1 h2, State.rowSteps_accNs]
  rfl

end Sys2Proof.Machine
end

