-- ==== Sys2Proof/Laws/Governor.lean ====
section
/-! SUPPORT. Whole CPU instructions, the governor's loop and the checkpoint, said once (47_governor_host R216, R220;
60_exceptions R229, R234, R236). -/

namespace Sys2Proof.Machine

/-- The same step with another fault recorded on both sides. -/
theorem BusFrame.withFault {s t : State} (h : BusFrame s t) (f : Option Fault) :
    BusFrame { s with fault := f } { t with fault := f } :=
  { cfg := h.cfg, rom := h.rom, line := h.line, accNs := h.accNs, fb := h.fb, cfPresent := h.cfPresent,
    govMark := h.govMark, govRunning := h.govRunning, fault := rfl, pending := h.pending, events := h.events,
    replies := h.replies, flagF := h.flagF, statusLow := h.statusLow, tstates := h.tstates, storesWf := h.storesWf,
    cfWf := h.cfWf }

/-- What whole CPU instructions do: bus transactions, and at most the recording of a fault. -/
def CpuFrame (s t : State) : Prop := BusFrame s { t with fault := s.fault }

/-- Read it as the frame of the transactions. -/
theorem CpuFrame.bus {s t : State} (h : CpuFrame s t) : BusFrame s { t with fault := s.fault } := h

theorem CpuFrame.of_bus {s t : State} (h : BusFrame s t) : CpuFrame s t := by
  unfold CpuFrame
  rw [← h.fault]
  exact h

theorem CpuFrame.refl (s : State) : CpuFrame s s := .of_bus (BusFrame.refl s)

theorem CpuFrame.trans {s t u : State} (h : CpuFrame s t) (g : CpuFrame t u) : CpuFrame s u :=
  BusFrame.trans h (BusFrame.withFault g s.fault)

/-! ### One instruction -/

theorem State.acceptInterrupt_frame (s : State) (ack : Option (List Txn)) : BusFrame s (s.acceptInterrupt ack) := by
  unfold State.acceptInterrupt
  cases ack with
  | none => exact BusFrame.refl s
  | some ts =>
    dsimp only
    split_ifs
    · exact s.intAckCycle_frame.trans (State.busTxns_frame ts _)
    · exact BusFrame.refl s

/-- An instruction's own transactions, counting its opcode fetch at least (R236). -/
theorem State.instrTxns_frame (s : State) (opcode : Addr) (rest : List Txn) :
    BusFrame s (s.instrTxns opcode rest) ∧ s.tstates + 4 ≤ (s.instrTxns opcode rest).tstates := by
  have h2 := s.busTxn_frame (.fetch opcode)
  have h3 := State.busTxns_frame rest (s.busTxn (.fetch opcode))
  have t2 := s.busTxn_tstates (.fetch opcode)
  refine ⟨h2.trans h3, ?_⟩
  have t3 : (s.busTxn (.fetch opcode)).tstates ≤ (s.instrTxns opcode rest).tstates := h3.tstates
  simp only [txnCost] at t2
  omega

/-- Extra t-states move the counter alone, in the same configuration (R110). -/
theorem State.addExtra_eq {s t : State} (h : t.cfg = s.cfg) (extra : Nat) :
    t.addExtra extra = { t with tstates := t.tstates + if s.cfg.cpuReportsExtra then extra else 0 } := by
  rw [← h]
  unfold State.addExtra
  split_ifs <;> rfl

theorem State.addExtra_frame (s : State) (extra : Nat) : BusFrame s (s.addExtra extra) := by
  unfold State.addExtra
  split_ifs
  · exact s.tick_frame extra
  · exact BusFrame.refl s

/-- An instruction that does not fail is a run of transactions, and counts its opcode fetch at least (R236). -/
theorem State.cpuInstruction_runs (s : State) (ack : Option (List Txn)) (opcode : Addr) (rest : List Txn) (extra : Nat) :
    BusFrame s (s.cpuInstruction (.runs ack opcode rest extra))
      ∧ s.tstates + 4 ≤ (s.cpuInstruction (.runs ack opcode rest extra)).tstates := by
  have h1 := s.acceptInterrupt_frame ack
  have h2 := (s.acceptInterrupt ack).instrTxns_frame opcode rest
  have h3 := ((s.acceptInterrupt ack).instrTxns opcode rest).addExtra_frame extra
  have t1 := h1.tstates
  have t3 := h3.tstates
  exact ⟨(h1.trans h2.1).trans h3, Nat.le_trans (Nat.le_trans (Nat.add_le_add_right t1 4) h2.2) t3⟩

/-- The transactions of a failing instruction before its failure. -/
def State.beforeFailure (s : State) (ack : Option (List Txn)) (begun : Option (Addr × List Txn)) (extra : Nat) : State :=
  (match begun with
    | none => s.acceptInterrupt ack
    | some (opcode, rest) => (s.acceptInterrupt ack).instrTxns opcode rest).addExtra extra

theorem State.beforeFailure_frame (s : State) (ack : Option (List Txn)) (begun : Option (Addr × List Txn))
    (extra : Nat) : BusFrame s (s.beforeFailure ack begun extra) := by
  refine BusFrame.trans ?_ (State.addExtra_frame _ extra)
  cases begun with
  | none => exact s.acceptInterrupt_frame ack
  | some b => exact (s.acceptInterrupt_frame ack).trans (State.instrTxns_frame _ b.1 b.2).1

/-- An instruction that fails issues its transactions and records the fault (R229). -/
theorem State.cpuInstruction_fails (s : State) (ack : Option (List Txn)) (begun : Option (Addr × List Txn)) (extra : Nat) :
    s.cpuInstruction (.fails ack begun extra) =
      { s.beforeFailure ack begun extra with fault := some (s.fault.getD .cpuCoreFailure) } := by
  have h : s.cpuInstruction (.fails ack begun extra) = (s.beforeFailure ack begun extra).raise .cpuCoreFailure := by
    cases begun <;> rfl
  rw [h, State.raise_eq, (s.beforeFailure_frame ack begun extra).fault]

/-- Any instruction: transactions, perhaps a fault; without a fault the counter moved by its fetch at least. -/
theorem State.cpuInstruction_frame (s : State) (c : CpuInstr) : CpuFrame s (s.cpuInstruction c) := by
  cases c with
  | runs ack opcode rest extra => exact .of_bus (s.cpuInstruction_runs ack opcode rest extra).1
  | fails ack begun extra =>
    rw [State.cpuInstruction_fails]
    have h : CpuFrame s (s.beforeFailure ack begun extra) := .of_bus (s.beforeFailure_frame ack begun extra)
    exact h

/-- Without a fault before it, an instruction does what the statements spell out. -/
theorem State.cpuInstruction_eq {s : State} (h : s.fault = none) (c : CpuInstr) : s.cpuInstruction c = cpuEffect s c := by
  have ha : ∀ ack, s.acceptInterrupt ack = acknowledged s ack := fun ack => by cases ack <;> rfl
  have hf : ∀ ack opcode rest, (s.acceptInterrupt ack).instrTxns opcode rest =
      (Txn.fetch opcode :: rest).foldl State.busTxn (acknowledged s ack) := fun ack _ _ => by rw [← ha]; rfl
  cases c with
  | runs ack opcode rest extra =>
    have hc := ((s.acceptInterrupt_frame ack).trans (State.instrTxns_frame _ opcode rest).1).cfg
    simp only [State.cpuInstruction, cpuEffect]
    rw [State.addExtra_eq hc, hf]
  | fails ack begun extra =>
    rw [State.cpuInstruction_fails, h]
    cases begun with
    | none =>
      simp only [State.beforeFailure, cpuEffect]
      rw [State.addExtra_eq (s.acceptInterrupt_frame ack).cfg, ha]
      rfl
    | some b =>
      have hc := ((s.acceptInterrupt_frame ack).trans (State.instrTxns_frame _ b.1 b.2).1).cfg
      simp only [State.beforeFailure, cpuEffect]
      rw [State.addExtra_eq hc, hf]
      rfl

theorem State.cpuInstruction_progress {s : State} {c : CpuInstr} (h : (s.cpuInstruction c).fault = none) :
    s.tstates + 4 ≤ (s.cpuInstruction c).tstates := by
  cases c with
  | runs ack opcode rest extra => exact (s.cpuInstruction_runs ack opcode rest extra).2
  | fails ack begun extra =>
    rw [State.cpuInstruction_fails] at h
    cases h

/-- The one fault there is. -/
theorem fault_cases (f : Fault) : f = .cpuCoreFailure := by
  cases f
  rfl

/-! ### The loop -/

theorem State.govLoop_frame (target : Nat) : ∀ (n : Nat) (cpu : List CpuInstr) (s : State),
    CpuFrame s (State.govLoop target n cpu s)
  | 0, _, s => CpuFrame.refl s
  | n + 1, cpu, s => by
    unfold State.govLoop
    split_ifs
    · cases cpu with
      | nil =>
        exact ((CpuFrame.of_bus s.drawn_frame).trans (State.cpuInstruction_frame _ _)).trans
          (State.govLoop_frame target n _ _)
      | cons c cs => exact (s.cpuInstruction_frame c).trans (State.govLoop_frame target n cs _)
    · exact CpuFrame.refl s

/-- With `target - tstates` for fuel the loop ends as the spec's loop does: at the target, or at a fault (R216). -/
theorem State.govLoop_ends (target : Nat) : ∀ (n : Nat) (cpu : List CpuInstr) (s : State), target - s.tstates ≤ n →
    target ≤ (State.govLoop target n cpu s).tstates ∨ (State.govLoop target n cpu s).fault ≠ none
  | 0, _, s, h => .inl (by unfold State.govLoop; omega)
  | n + 1, cpu, s, h => by
    unfold State.govLoop
    split_ifs with hc
    · have go : ∀ (t : State) (cs : List CpuInstr), (t.fault = none → s.tstates + 4 ≤ t.tstates) →
          target ≤ (State.govLoop target n cs t).tstates ∨ (State.govLoop target n cs t).fault ≠ none := by
        intro t cs ht
        by_cases hf : t.fault = none
        · exact State.govLoop_ends target n cs t (by have := ht hf; omega)
        · right
          cases n with
          | zero => exact hf
          | succ n =>
            unfold State.govLoop
            rw [if_neg (fun x => hf x.2)]
            exact hf
      cases cpu with
      | nil => exact go _ _ fun h => State.cpuInstruction_progress h
      | cons c cs => exact go _ _ fun h => State.cpuInstruction_progress h
    · by_cases hf : s.fault = none
      · exact .inl (Nat.le_of_not_lt fun x => hc ⟨x, hf⟩)
      · exact .inr hf

/-- More fuel than the target needs changes nothing. -/
theorem State.govLoop_fuel (target : Nat) : ∀ (n m : Nat) (cpu : List CpuInstr) (s : State),
    target - s.tstates ≤ n → target - s.tstates ≤ m → State.govLoop target n cpu s = State.govLoop target m cpu s
  | 0, 0, _, _, _, _ => rfl
  | 0, m + 1, _, s, h, _ => by
    unfold State.govLoop
    rw [if_neg (fun x => by omega)]
  | n + 1, 0, _, s, _, h => by
    unfold State.govLoop
    rw [if_neg (fun x => by omega)]
  | n + 1, m + 1, cpu, s, hn, hm => by
    unfold State.govLoop
    split_ifs with hc
    · have go : ∀ (t : State) (cs : List CpuInstr), (t.fault = none → s.tstates + 4 ≤ t.tstates) →
          State.govLoop target n cs t = State.govLoop target m cs t := by
        intro t cs ht
        by_cases hf : t.fault = none
        · have := ht hf
          exact State.govLoop_fuel target n m cs t (by omega) (by omega)
        · have stop : ∀ k, State.govLoop target k cs t = t := by
            intro k
            cases k with
            | zero => rfl
            | succ k =>
              unfold State.govLoop
              rw [if_neg (fun x => hf x.2)]
          rw [stop, stop]
      cases cpu with
      | nil => exact go _ _ fun h => State.cpuInstruction_progress h
      | cons c cs => exact go _ _ fun h => State.cpuInstruction_progress h
    · rfl

/-- The loop ended with fuel enough is a whole iteration from the state reached (R216). -/
theorem State.govLoop_endBatch {target n : Nat} {cs : List CpuInstr} {t : State}
    (h : t.fault = none → target - t.tstates ≤ n) : (State.govLoop target n cs t).endBatch = t.govIteration target cs := by
  unfold State.govIteration
  congr 1
  by_cases hf : t.fault = none
  · exact State.govLoop_fuel target _ _ cs t (h hf) (Nat.le_refl _)
  · have stop : ∀ k, State.govLoop target k cs t = t := fun k => by
      cases k with
      | zero => rfl
      | succ k =>
        unfold State.govLoop
        rw [if_neg (fun x => hf x.2)]
    rw [stop, stop]

/-- A checkpoint is a raster advance by the time since the mark, which moves to the counter. -/
theorem State.checkpoint_eq (s : State) : s.checkpoint =
    State.rasterAdvance { s with govMark := s.tstates } (((s.tstates : Rat) - (s.govMark : Rat)) * s.cfg.clockPeriodNs) :=
  rfl

theorem State.endBatch_ok {s : State} (h : s.fault = none) : s.endBatch = s.checkpoint := by
  simp [State.endBatch, h]

theorem State.endBatch_failed {s : State} (h : s.fault ≠ none) : s.endBatch = s := by
  unfold State.endBatch
  cases hf : s.fault
  · exact absurd hf h
  · rfl

end Sys2Proof.Machine
end

