-- ==== Sys2Proof/Laws/Invariant.lean ====
section
/-! SUPPORT. The shared operations keep the invariant: transactions, whole instructions, the raster advance and the
checkpoint. -/

namespace Sys2Proof.Machine

/-- The parts of the raster's invariant. -/
theorem State.rasterWf_iff (s : State) : s.rasterWf = true ↔ s.line < s.totalRows ∧ 0 ≤ s.accNs ∧ s.accNs < s.rowNs := by
  simp [State.rasterWf, and_assoc]

/-- The parts of the invariant. -/
theorem State.inv_iff (s : State) : s.inv = true ↔
    s.storesWf = true ∧ s.rasterWf = true ∧ s.cfWf = true ∧ s.govMark ≤ s.tstates ∧ s.status &&& 0x7F = 0 := by
  simp [State.inv, and_assoc]

theorem BusFrame.rasterWf {s t : State} (h : BusFrame s t) : t.rasterWf = s.rasterWf := by
  unfold State.rasterWf State.totalRows State.rowNs
  rw [h.line, h.accNs, h.cfg]

/-- Transactions keep the invariant. -/
theorem BusFrame.inv {s t : State} (h : BusFrame s t) (hs : s.inv = true) : t.inv = true := by
  rw [State.inv_iff] at hs ⊢
  obtain ⟨h1, h2, h3, h4, h5⟩ := hs
  exact ⟨h.storesWf h1, h.rasterWf.trans h2, h.cfWf h3, by rw [h.govMark]; exact Nat.le_trans h4 h.tstates,
    h.statusLow.trans h5⟩

/-- Whole instructions keep the invariant. -/
theorem CpuFrame.inv {s t : State} (h : CpuFrame s t) (hs : s.inv = true) : t.inv = true := by
  have ht : State.inv { t with fault := s.fault } = true := BusFrame.inv h hs
  exact ht

/-- An advance by a time leaves the counter below TOTAL_ROWS and the accumulator below a row (R39, R138). -/
theorem State.rasterAdvance_rasterWf {s : State} {dns : Rat} (h : s.rasterWf = true) (hd : 0 ≤ dns) :
    (s.rasterAdvance dns).rasterWf = true := by
  rw [State.rasterWf_iff] at h ⊢
  obtain ⟨hl, h0, _⟩ := h
  have hacc : 0 ≤ s.accNs + dns := add_nonneg h0 hd
  have hrows := wholeRows (VideoStd.rowNs_pos s.cfg.videoStd) hacc
  have hk : (s.rowSteps ((s.accNs + dns) / s.rowNs).floor.toNat).line < s.totalRows := by
    rw [State.rowSteps_line _ _ hl]
    exact Nat.mod_lt _ (Nat.lt_of_le_of_lt (Nat.zero_le _) hl)
  rw [State.rasterAdvance_eq s dns hacc]
  unfold State.totalRows State.rowNs at *
  simp only [State.rowSteps_cfg]
  refine ⟨hk, sub_nonneg.mpr hrows.1, ?_⟩
  have := hrows.2
  push_cast at this
  linarith

/-- An advance by a time keeps the invariant. -/
theorem State.rasterAdvance_inv {s : State} {dns : Rat} (h : s.inv = true) (hd : 0 ≤ dns) :
    (s.rasterAdvance dns).inv = true := by
  rw [State.inv_iff] at h ⊢
  obtain ⟨h1, h2, h3, h4, h5⟩ := h
  refine ⟨?_, State.rasterAdvance_rasterWf h2 hd, ?_, ?_, ?_⟩ <;> rw [State.rasterWf_iff] at h2 <;>
    rw [State.rasterAdvance_eq s dns (add_nonneg h2.2.1 hd)]
  · show State.storesWf (s.rowSteps _) = true
    rw [State.rowSteps_frame]
    exact h1
  · show State.cfWf (s.rowSteps _) = true
    rw [State.rowSteps_frame]
    exact h3
  · show (s.rowSteps _).govMark ≤ (s.rowSteps _).tstates
    rw [State.rowSteps_frame]
    exact h4
  · show (s.rowSteps _).status &&& 0x7F = 0
    rw [State.rowSteps_status _ _ h2.1]
    split_ifs
    · rw [(statusSetF_keeps s.status).2, h5]
    · exact h5

/-- The time since the mark, at a clock that does not run backwards. -/
theorem State.sinceMark_nonneg {s : State} (h : s.govMark ≤ s.tstates) (hc : 0 ≤ s.cfg.clockPeriodNs) :
    0 ≤ ((s.tstates : Rat) - (s.govMark : Rat)) * s.cfg.clockPeriodNs :=
  mul_nonneg (sub_nonneg.mpr (by exact_mod_cast h)) hc

/-- A checkpoint keeps the invariant. -/
theorem State.checkpoint_inv {s : State} (h : s.inv = true) (hc : 0 ≤ s.cfg.clockPeriodNs) : s.checkpoint.inv = true := by
  rw [State.checkpoint_eq]
  have hm := ((State.inv_iff s).mp h).2.2.2.1
  refine State.rasterAdvance_inv ?_ (State.sinceMark_nonneg hm hc)
  rw [State.inv_iff] at h ⊢
  exact ⟨h.1, h.2.1, h.2.2.1, Nat.le_refl _, h.2.2.2.2⟩

/-- An admitted configuration's clock does not run backwards (R11). -/
theorem Config.admissible_clock {c : Config} (h : c.admissible = true) : 0 ≤ c.clockPeriodNs := by
  simp only [Config.admissible, Bool.and_eq_true, decide_eq_true_eq] at h
  exact Rat.num_nonneg.mp h.2

end Sys2Proof.Machine
end

