-- ==== Sys2Proof/Laws/PerInstr.lean ====
section
/-! SUPPORT. Statements about every instruction as syntax, one lemma per constructor. -/

namespace Sys2Proof.Laws

open Sys2Proof

/-- The encoding of the instruction is a word of 27 bits of one of the kinds 0 to 5 (R84, R85), well formed or not. -/
def EncodeFits.Statement (i : Instr) : Prop := wordPad (encode i).1 = 0 ∧ (wordKind (encode i).1).toNat ≤ 5

theorem encodeFits_mkWord (k : BitVec 3) (a : Addr) (d : Byte) (hk : k.toNat ≤ 5) :
    wordPad (mkWord k a d) = 0 ∧ (wordKind (mkWord k a d)).toNat ≤ 5 := by
  rw [wordPad_mkWord, wordKind_mkWord]
  exact ⟨rfl, hk⟩

theorem EncodeFits.fetch (a : Addr) : EncodeFits.Statement (.fetch a) := encodeFits_mkWord _ _ _ (by decide)
theorem EncodeFits.mread (a : Addr) : EncodeFits.Statement (.mread a) := encodeFits_mkWord _ _ _ (by decide)
theorem EncodeFits.mwrite (a : Addr) (v : Byte) : EncodeFits.Statement (.mwrite a v) :=
  encodeFits_mkWord _ _ _ (by decide)
theorem EncodeFits.cfDataRd : EncodeFits.Statement (.cfDataRd) := encodeFits_mkWord _ _ _ (by decide)
theorem EncodeFits.cfDataWr (v : Byte) : EncodeFits.Statement (.cfDataWr v) := encodeFits_mkWord _ _ _ (by decide)
theorem EncodeFits.cfErrRd : EncodeFits.Statement (.cfErrRd) := encodeFits_mkWord _ _ _ (by decide)
theorem EncodeFits.cfFeatWr (v : Byte) : EncodeFits.Statement (.cfFeatWr v) := encodeFits_mkWord _ _ _ (by decide)
theorem EncodeFits.cfCountRd : EncodeFits.Statement (.cfCountRd) := encodeFits_mkWord _ _ _ (by decide)
theorem EncodeFits.cfCountWr (v : Byte) : EncodeFits.Statement (.cfCountWr v) := encodeFits_mkWord _ _ _ (by decide)
theorem EncodeFits.cfLba0Rd : EncodeFits.Statement (.cfLba0Rd) := encodeFits_mkWord _ _ _ (by decide)
theorem EncodeFits.cfLba0Wr (v : Byte) : EncodeFits.Statement (.cfLba0Wr v) := encodeFits_mkWord _ _ _ (by decide)
theorem EncodeFits.cfLba1Rd : EncodeFits.Statement (.cfLba1Rd) := encodeFits_mkWord _ _ _ (by decide)
theorem EncodeFits.cfLba1Wr (v : Byte) : EncodeFits.Statement (.cfLba1Wr v) := encodeFits_mkWord _ _ _ (by decide)
theorem EncodeFits.cfLba2Rd : EncodeFits.Statement (.cfLba2Rd) := encodeFits_mkWord _ _ _ (by decide)
theorem EncodeFits.cfLba2Wr (v : Byte) : EncodeFits.Statement (.cfLba2Wr v) := encodeFits_mkWord _ _ _ (by decide)
theorem EncodeFits.cfLba3Rd : EncodeFits.Statement (.cfLba3Rd) := encodeFits_mkWord _ _ _ (by decide)
theorem EncodeFits.cfLba3Wr (v : Byte) : EncodeFits.Statement (.cfLba3Wr v) := encodeFits_mkWord _ _ _ (by decide)
theorem EncodeFits.cfStatusRd : EncodeFits.Statement (.cfStatusRd) := encodeFits_mkWord _ _ _ (by decide)
theorem EncodeFits.cfCmdRead : EncodeFits.Statement (.cfCmdRead) := encodeFits_mkWord _ _ _ (by decide)
theorem EncodeFits.cfCmdWrite : EncodeFits.Statement (.cfCmdWrite) := encodeFits_mkWord _ _ _ (by decide)
theorem EncodeFits.cfCmdOther (v : Byte) : EncodeFits.Statement (.cfCmdOther v) := encodeFits_mkWord _ _ _ (by decide)
theorem EncodeFits.pageOn : EncodeFits.Statement (.pageOn) := encodeFits_mkWord _ _ _ (by decide)
theorem EncodeFits.pageOff (v : Byte) : EncodeFits.Statement (.pageOff v) := encodeFits_mkWord _ _ _ (by decide)
theorem EncodeFits.pageRd : EncodeFits.Statement (.pageRd) := encodeFits_mkWord _ _ _ (by decide)
theorem EncodeFits.uartACtrlRd : EncodeFits.Statement (.uartACtrlRd) := encodeFits_mkWord _ _ _ (by decide)
theorem EncodeFits.uartACtrlWr (v : Byte) : EncodeFits.Statement (.uartACtrlWr v) :=
  encodeFits_mkWord _ _ _ (by decide)
theorem EncodeFits.uartADataRd : EncodeFits.Statement (.uartADataRd) := encodeFits_mkWord _ _ _ (by decide)
theorem EncodeFits.uartADataWr (v : Byte) : EncodeFits.Statement (.uartADataWr v) :=
  encodeFits_mkWord _ _ _ (by decide)
theorem EncodeFits.uartBCtrlRd : EncodeFits.Statement (.uartBCtrlRd) := encodeFits_mkWord _ _ _ (by decide)
theorem EncodeFits.uartBCtrlWr (v : Byte) : EncodeFits.Statement (.uartBCtrlWr v) :=
  encodeFits_mkWord _ _ _ (by decide)
theorem EncodeFits.uartBDataRd : EncodeFits.Statement (.uartBDataRd) := encodeFits_mkWord _ _ _ (by decide)
theorem EncodeFits.uartBDataWr (v : Byte) : EncodeFits.Statement (.uartBDataWr v) :=
  encodeFits_mkWord _ _ _ (by decide)
theorem EncodeFits.vdpDataWr (v : Byte) : EncodeFits.Statement (.vdpDataWr v) := encodeFits_mkWord _ _ _ (by decide)
theorem EncodeFits.vdpDataRd : EncodeFits.Statement (.vdpDataRd) := encodeFits_mkWord _ _ _ (by decide)
theorem EncodeFits.vdpCtrlWr (v : Byte) : EncodeFits.Statement (.vdpCtrlWr v) := encodeFits_mkWord _ _ _ (by decide)
theorem EncodeFits.vdpStatusRd : EncodeFits.Statement (.vdpStatusRd) := encodeFits_mkWord _ _ _ (by decide)
theorem EncodeFits.vdpDataWrDbg (v : Byte) : EncodeFits.Statement (.vdpDataWrDbg v) :=
  encodeFits_mkWord _ _ _ (by decide)
theorem EncodeFits.vdpDataRdDbg : EncodeFits.Statement (.vdpDataRdDbg) := encodeFits_mkWord _ _ _ (by decide)
theorem EncodeFits.vdpCtrlWrDbg (v : Byte) : EncodeFits.Statement (.vdpCtrlWrDbg v) :=
  encodeFits_mkWord _ _ _ (by decide)
theorem EncodeFits.vdpStatusRdDbg : EncodeFits.Statement (.vdpStatusRdDbg) := encodeFits_mkWord _ _ _ (by decide)
theorem EncodeFits.unmappedRead (p : Port) : EncodeFits.Statement (.unmappedRead p) :=
  encodeFits_mkWord _ _ _ (by decide)
theorem EncodeFits.unmappedWrite (p : Port) (v : Byte) : EncodeFits.Statement (.unmappedWrite p v) :=
  encodeFits_mkWord _ _ _ (by decide)
theorem EncodeFits.rasterAdvance (dns : Rat) : EncodeFits.Statement (.rasterAdvance dns) :=
  encodeFits_mkWord _ _ _ (by decide)
theorem EncodeFits.redrawFrame : EncodeFits.Statement (.redrawFrame) := encodeFits_mkWord _ _ _ (by decide)
theorem EncodeFits.reset : EncodeFits.Statement (.reset) := encodeFits_mkWord _ _ _ (by decide)
theorem EncodeFits.govIteration (target : Nat) (cpu : List CpuInstr) : EncodeFits.Statement (.govIteration target cpu) :=
  encodeFits_mkWord _ _ _ (by decide)
theorem EncodeFits.govStop : EncodeFits.Statement (.govStop) := encodeFits_mkWord _ _ _ (by decide)
theorem EncodeFits.govStart : EncodeFits.Statement (.govStart) := encodeFits_mkWord _ _ _ (by decide)
theorem EncodeFits.hostRamRead (a : Addr) : EncodeFits.Statement (.hostRamRead a) :=
  encodeFits_mkWord _ _ _ (by decide)
theorem EncodeFits.hostRamWrite (a : Addr) (v : Byte) : EncodeFits.Statement (.hostRamWrite a v) :=
  encodeFits_mkWord _ _ _ (by decide)
theorem EncodeFits.hostVramRead (a : VAddr) : EncodeFits.Statement (.hostVramRead a) :=
  encodeFits_mkWord _ _ _ (by decide)
theorem EncodeFits.hostVramWrite (a : VAddr) (v : Byte) : EncodeFits.Statement (.hostVramWrite a v) :=
  encodeFits_mkWord _ _ _ (by decide)
theorem EncodeFits.hostRegRead (i : BitVec 3) : EncodeFits.Statement (.hostRegRead i) :=
  encodeFits_mkWord _ _ _ (by decide)
theorem EncodeFits.hostRegWrite (i : BitVec 3) (v : Byte) : EncodeFits.Statement (.hostRegWrite i v) :=
  encodeFits_mkWord _ _ _ (by decide)
theorem EncodeFits.hostFbRead (r c : Nat) : EncodeFits.Statement (.hostFbRead r c) :=
  encodeFits_mkWord _ _ _ (by decide)
theorem EncodeFits.uartRxPushA (v : Byte) : EncodeFits.Statement (.uartRxPushA v) :=
  encodeFits_mkWord _ _ _ (by decide)
theorem EncodeFits.uartRxPushB (v : Byte) : EncodeFits.Statement (.uartRxPushB v) :=
  encodeFits_mkWord _ _ _ (by decide)
theorem EncodeFits.cfAttach (image : List (Nat × Byte)) (size : Nat) : EncodeFits.Statement (.cfAttach image size) :=
  encodeFits_mkWord _ _ _ (by decide)
theorem EncodeFits.cfDetach : EncodeFits.Statement (.cfDetach) := encodeFits_mkWord _ _ _ (by decide)

end Sys2Proof.Laws
end

