-- ==== Sys2Proof/Laws/Render.lean ====
section
/-! SUPPORT. The register fields as arithmetic on the register's number, and what painting one sprite does to one
column of a row. -/

namespace Sys2Proof.Machine

variable {r : Regs} {vram : Mem} {yoff y i row : Nat}

/-! ### Fields -/

theorem Regs.backdrop_toNat : r.backdrop.toNat = r[7].toNat % 16 := by simp [Regs.backdrop]

theorem Regs.displayOn_eq : r.displayOn = decide (r[1].toNat / 64 % 2 = 1) := by
  simp [Regs.displayOn, BitVec.getLsbD, Nat.testBit_eq_decide_div_mod_eq]

theorem Regs.m1_eq : r.m1 = decide (r[1].toNat / 16 % 2 = 1) := by
  simp [Regs.m1, BitVec.getLsbD, Nat.testBit_eq_decide_div_mod_eq]

theorem Regs.m2_eq : r.m2 = decide (r[1].toNat / 8 % 2 = 1) := by
  simp [Regs.m2, BitVec.getLsbD, Nat.testBit_eq_decide_div_mod_eq]

theorem Regs.m3_eq : r.m3 = decide (r[0].toNat / 2 % 2 = 1) := by
  simp [Regs.m3, BitVec.getLsbD, Nat.testBit_eq_decide_div_mod_eq]

/-- A field of the low `n` bits of a register, scaled by `2 ^ k`. -/
theorem maskedBase_eq (b : Byte) (n k : Nat) (h : n ≤ 8) :
    (b &&& BitVec.ofNat 8 (2 ^ n - 1)).toNat <<< k = (b.toNat % 2 ^ n) * 2 ^ k := by
  have h8 : 2 ^ n ≤ 2 ^ 8 := Nat.pow_le_pow_right (by decide) h
  have h0 := Nat.two_pow_pos n
  rw [BitVec.toNat_and, BitVec.toNat_ofNat, Nat.mod_eq_of_lt (by omega), Nat.and_two_pow_sub_one_eq_mod,
    Nat.shiftLeft_eq]

theorem Regs.nameBase_eq : r.nameBase = (r[2].toNat % 16) * 1024 := maskedBase_eq r[2] 4 10 (by decide)

theorem Regs.patternBase_eq : r.patternBase = (r[4].toNat % 8) * 2048 := maskedBase_eq r[4] 3 11 (by decide)

theorem Regs.colourBase_eq : r.colourBase = r[3].toNat * 64 := by simp [Regs.colourBase, Nat.shiftLeft_eq]

theorem patternBit_eq (p : Byte) (k : Nat) : patternBit p k = decide (p.toNat / 2 ^ (7 - k) % 2 = 1) := by
  simp [patternBit, BitVec.getLsbD, Nat.testBit_eq_decide_div_mod_eq]

theorem colourHi_toNat (b : Byte) : (colourHi b).toNat = b.toNat / 16 := by
  simp [colourHi, Nat.shiftRight_eq_div_pow]; omega

theorem colourLo_toNat (b : Byte) : (colourLo b).toNat = b.toNat % 16 := by simp [colourLo]

/-- `Col` on numbers (R154). -/
theorem Regs.col_toNat (c : Colour) : (r.col c).toNat = if c.toNat = 0 then r[7].toNat % 16 else c.toNat := by
  unfold Regs.col
  have hz : c = 0 ↔ c.toNat = 0 :=
    ⟨fun h => by simp [h], fun h => BitVec.eq_of_toNat_eq (by simpa using h)⟩
  by_cases h : c = 0
  · rw [if_pos h, if_pos (hz.1 h), Regs.backdrop_toNat]
  · rw [if_neg h, if_neg fun h' => h (hz.2 h')]

/-! ### Rows -/

theorem windowRow_get (left width : Nat) (f : Nat → Colour) (c : Fin 320) :
    (windowRow r left width f)[c] =
      if left ≤ c.val ∧ c.val < left + width then f (c.val - left) else r.backdrop := by
  simp [windowRow]

/-- `RenderRow` on an active row with the display on, by mode (R151). -/
theorem rowPixels_active (hd : r[1].toNat / 64 % 2 = 1) (hr : ¬ (row < 24 ∨ 216 ≤ row)) :
    rowPixels yoff r vram row =
      if r[1].toNat / 16 % 2 = 1 then windowRow r 40 240 fun c => textPixel r vram c (row - 24)
      else spriteLayer r vram yoff (row - 24)
        (if r[1].toNat / 8 % 2 = 1 then windowRow r 32 256 fun x => multicolorPixel r vram x (row - 24)
         else if r[0].toNat / 2 % 2 = 1 then windowRow r 32 256 fun x => graphics2Pixel r vram x (row - 24)
         else windowRow r 32 256 fun x => graphics1Pixel r vram x (row - 24)) := by
  unfold rowPixels
  simp only [Regs.displayOn_eq, hd, decide_true, Bool.true_eq_false, if_false, if_neg hr, Regs.mode, Regs.m1_eq,
    Regs.m2_eq, Regs.m3_eq, decide_eq_true_eq]
  split_ifs <;> rfl

/-! ### Sprites -/

/-- One column of a sprite changes at most the one canvas column it lands on (R171, R174). -/
theorem paintSpriteColumn_get (l : Row) (j : Nat) (c : Fin 320) :
    (paintSpriteColumn r vram yoff y i l j)[c] =
      if (c.val : Int) - 32 - spriteX0 r vram i = j ∧ 32 ≤ c.val ∧ c.val < 288
        ∧ spriteBit r vram i (spriteDy r vram yoff y i / r.spriteM) (j / r.spriteM) = true
      then spriteColour r vram i else l[c] := by
  unfold paintSpriteColumn
  dsimp only
  rw [Fin.getElem_fin, Fin.getElem_fin]
  by_cases h1 : 0 ≤ spriteX0 r vram i + (j : Int) ∧ spriteX0 r vram i + (j : Int) ≤ 255
      ∧ spriteBit r vram i (spriteDy r vram yoff y i / r.spriteM) (j / r.spriteM) = true
  · rw [if_pos h1, Vector.getElem_setIfInBounds c.isLt]
    by_cases h2 : 32 + (spriteX0 r vram i + (j : Int)).toNat = c.val
    · rw [if_pos h2, if_pos ⟨by omega, by omega, by omega, h1.2.2⟩]
    · rw [if_neg h2, if_neg]; rintro ⟨e, e2, _⟩; omega
  · rw [if_neg h1, if_neg]
    rintro ⟨e, e1, e2, e3⟩; exact h1 ⟨by omega, by omega, e3⟩

/-- The first `n` columns of a sprite, at one canvas column. -/
theorem paintSpriteColumns_get (n : Nat) (l : Row) (c : Fin 320) :
    ((List.range n).foldl (paintSpriteColumn r vram yoff y i) l)[c] =
      if 0 ≤ (c.val : Int) - 32 - spriteX0 r vram i ∧ (c.val : Int) - 32 - spriteX0 r vram i < n ∧ 32 ≤ c.val
        ∧ c.val < 288
        ∧ spriteBit r vram i (spriteDy r vram yoff y i / r.spriteM)
            (((c.val : Int) - 32 - spriteX0 r vram i).toNat / r.spriteM) = true
      then spriteColour r vram i else l[c] := by
  induction n with
  | zero => rw [if_neg (by omega)]; rfl
  | succ n ih =>
    rw [List.range_succ, List.foldl_append, List.foldl_cons, List.foldl_nil, paintSpriteColumn_get, ih]
    by_cases hn : (c.val : Int) - 32 - spriteX0 r vram i = n
    · have hq : ((c.val : Int) - 32 - spriteX0 r vram i).toNat = n := by omega
      rw [hq]
      by_cases hb : 32 ≤ c.val ∧ c.val < 288
          ∧ spriteBit r vram i (spriteDy r vram yoff y i / r.spriteM) (n / r.spriteM) = true
      · rw [if_pos ⟨hn, hb⟩, if_pos ⟨by omega, by push_cast; omega, hb⟩]
      · rw [if_neg fun h => hb h.2, if_neg (by omega), if_neg fun h => hb h.2.2]
    · rw [if_neg fun h => hn h.1]
      refine if_congr ⟨fun h => ⟨h.1, by push_cast; omega, h.2.2⟩, fun h => ⟨h.1, ?_, h.2.2⟩⟩ rfl rfl
      have := h.2.1
      push_cast at this
      omega

/-- Painting a sprite stores its colour at the columns of the window and of the sprite whose pattern bit is 1, unless the
colour is 0 (R171, R172, R174). -/
theorem paintSprite_get (l : Row) (c : Fin 320) :
    (paintSprite r vram yoff y l i)[c] =
      if spriteColour r vram i ≠ 0 ∧ 0 ≤ (c.val : Int) - 32 - spriteX0 r vram i
        ∧ (c.val : Int) - 32 - spriteX0 r vram i < r.spriteS ∧ 32 ≤ c.val ∧ c.val < 288
        ∧ spriteBit r vram i (spriteDy r vram yoff y i / r.spriteM)
            (((c.val : Int) - 32 - spriteX0 r vram i).toNat / r.spriteM) = true
      then spriteColour r vram i else l[c] := by
  unfold paintSprite
  by_cases h0 : spriteColour r vram i = 0
  · rw [if_pos h0, if_neg fun h => h.1 h0]
  · rw [if_neg h0, paintSpriteColumns_get]
    exact if_congr ⟨fun h => ⟨h0, h⟩, fun h => h.2⟩ rfl rfl

/-! ### Sprite geometry in arithmetic -/

theorem Regs.size16_eq : r.size16 = decide (r[1].toNat / 2 % 2 = 1) := by
  simp [Regs.size16, BitVec.getLsbD, Nat.testBit_eq_decide_div_mod_eq]

theorem Regs.mag_eq : r.mag = decide (r[1].toNat % 2 = 1) := by
  simp [Regs.mag, BitVec.getLsbD, Nat.testBit_eq_decide_div_mod_eq]

theorem Regs.spriteM_eq : r.spriteM = magNat r := by simp [Regs.spriteM, magNat, Regs.mag_eq]

theorem Regs.spriteS_eq : r.spriteS = sizeNat r := by
  simp [Regs.spriteS, Regs.spriteH, sizeNat, Regs.spriteM_eq, Regs.size16_eq]

theorem Regs.spriteAttrBase_eq : r.spriteAttrBase = (r[5].toNat % 128) * 128 := maskedBase_eq r[5] 7 7 (by decide)

theorem Regs.spritePatBase_eq : r.spritePatBase = (r[6].toNat % 8) * 2048 := maskedBase_eq r[6] 3 11 (by decide)

theorem vread_toNat (vram : Mem) (a : Nat) : (vread vram a).toNat = vramNat vram a := rfl

theorem spriteAttr_toNat (r : Regs) (vram : Mem) (i k : Nat) : (spriteAttr r vram i k).toNat = attrNat r vram i k := by
  rw [spriteAttr, vread_toNat, Regs.spriteAttrBase_eq, attrNat]

theorem spriteDy_eq : spriteDy r vram yoff y i = dyNat r vram yoff y i := by
  rw [spriteDy, dyNat, spriteAttr_toNat]

theorem spriteCovers_eq : spriteCovers r vram yoff y i = decide (dyNat r vram yoff y i < sizeNat r) := by
  rw [spriteCovers, spriteDy_eq, Regs.spriteS_eq]

theorem spriteColour_toNat (r : Regs) (vram : Mem) (i : Nat) :
    (spriteColour r vram i).toNat = attrNat r vram i 3 % 16 := by
  rw [← spriteAttr_toNat]
  simp [spriteColour]

theorem spriteX0_eq (r : Regs) (vram : Mem) (i : Nat) :
    spriteX0 r vram i = (attrNat r vram i 1 : Int) - if attrNat r vram i 3 / 128 = 1 then 32 else 0 := by
  have h : spriteEc r vram i = decide (attrNat r vram i 3 / 128 = 1) := by
    have hb := (spriteAttr r vram i 3).isLt
    rw [← spriteAttr_toNat]
    simp only [spriteEc, BitVec.getLsbD, Nat.testBit_eq_decide_div_mod_eq]
    exact decide_eq_decide.mpr (by omega)
  rw [spriteX0, spriteAttr_toNat, h]
  simp

/-- The name of a 16 x 16 sprite drops its two low bits (R168). -/
theorem maskedName_toNat (b : Byte) : (b &&& 0xFC).toNat = b.toNat / 4 * 4 := by
  revert b
  decide +kernel

theorem spriteBit_eq (r : Regs) (vram : Mem) (i k q : Nat) :
    spriteBit r vram i k q = decide (patternNat r vram i k q = 1) := by
  unfold spriteBit patternNat
  simp only [Regs.size16_eq, decide_eq_true_eq, patternBit_eq, vread_toNat, Regs.spritePatBase_eq, maskedName_toNat,
    spriteAttr_toNat]
  split_ifs <;> rfl

/-- Painting a sprite, in arithmetic: its colour stands exactly where the sprite shows. -/
theorem paintSprite_toNat (l : Row) (c : Fin 320) :
    ((paintSprite r vram yoff y l i)[c]).toNat =
      if spriteShows r vram yoff y i c.val = true then attrNat r vram i 3 % 16 else (l[c]).toNat := by
  have hc : spriteColour r vram i ≠ 0 ↔ attrNat r vram i 3 % 16 ≠ 0 := by
    rw [← spriteColour_toNat, ne_eq, ne_eq, ← BitVec.toNat_inj]
    rfl
  rw [paintSprite_get, apply_ite BitVec.toNat, spriteColour_toNat]
  refine if_congr ?_ rfl rfl
  rw [hc, spriteX0_eq, spriteDy_eq, Regs.spriteS_eq, Regs.spriteM_eq, spriteBit_eq]
  simp only [spriteShows, decide_eq_true_eq]
  tauto

end Sys2Proof.Machine
end

