-- ==== Sys2Proof/Laws/Step.lean ====
section
/-! SUPPORT. What a step can do, said once: which request it served and how, and what every CPU transaction row leaves
alone. -/

namespace Sys2Proof.Machine

/-- The port of a word is the low byte of its address field (R89, R115). -/
theorem decodedPort_wordAddr (w : Word) : decodedPort (wordAddr w) = wordPort w := by
  unfold decodedPort wordAddr wordPort
  ext i hi
  have : i < 16 := by omega
  simp [this]

/-- A row of K = 0 to 4 is a CPU transaction. -/
theorem exec_bus_frame {i : Instr} {s t : State} (hk : (wordKind (encode i).1).toNat ≤ 4) (h : exec i s = .next t) :
    BusFrame s t := by
  cases i <;> simp [encode, readWord, writeWord, opWord] at hk <;>
    simp only [exec, execFetch, execMread, execMwrite, execCfDataRd, execCfDataWr, execCfErrRd, execCfFeatWr,
      execCfCountRd, execCfCountWr, execCfLba0Rd, execCfLba0Wr, execCfLba1Rd, execCfLba1Wr, execCfLba2Rd,
      execCfLba2Wr, execCfLba3Rd, execCfLba3Wr, execCfStatusRd, execCfCmdRead, execCfCmdWrite, execCfCmdOther,
      execPageOn, execPageOff, execPageRd, execUartACtrlRd, execUartACtrlWr, execUartADataRd, execUartADataWr,
      execUartBCtrlRd, execUartBCtrlWr, execUartBDataRd, execUartBDataWr, execVdpDataWr, execVdpDataRd,
      execVdpCtrlWr, execVdpStatusRd, execVdpDataWrDbg, execVdpDataRdDbg, execVdpCtrlWrDbg, execVdpStatusRdDbg,
      execUnmappedRead, execUnmappedWrite] at h <;>
    (obtain ⟨-, rfl⟩ := busStep_next.mp h)
  · exact s.busFetch_frame _
  · exact s.busMread_frame _
  · exact s.busMwrite_frame _ _
  · exact State.finishRead_frame tIo s.cfDataRead_frame
  · exact (s.cfDataWrite_frame _).trans (State.tick_frame _ _)
  all_goals first
    | exact s.ioRead_frame _ | exact s.ioWrite_frame _ _
    | exact State.finishRead_frame tIo (BusFrame.refl s)
    | exact State.finishRead_frame tIo (s.drawn_frame)
    | exact State.finishRead_frame tIo (s.uartDataRead_frame _)
    | exact (s.uartDataWrite_frame _ _).trans (State.tick_frame _ _)
    | exact (s.cfStage_frame _ (by decide)).trans (State.tick_frame _ _)
    | exact State.tick_frame _ _
    | (refine BusFrame.trans ?_ (State.tick_frame _ _); exact { BusFrame.refl s with })

/-- A row of an I/O write to a port of no fixed device goes through the dispatch of the configuration (R117, R123). -/
theorem exec_ioWriteRow {i : Instr} {p : Port} {v : Byte} {s : State} (hf : s.fault = none) (h : ioWriteRow i p v) :
    encode i = writeWord p v ∧ exec i s = .next (s.ioWrite p v) ∧ p ∉ fixedPorts := by
  rcases h with ⟨rfl, rfl⟩ | ⟨rfl, rfl⟩ | ⟨rfl, rfl⟩ | ⟨rfl, rfl⟩ | ⟨rfl, hp⟩
  iterate 4 exact ⟨rfl, busStep_ok (fun s => s.ioWrite _ v) hf, by decide⟩
  exact ⟨rfl, busStep_ok (fun s => s.ioWrite p v) hf, fun h => hp (List.mem_append_left [0x98, 0x99, 0x40, 0x41] h)⟩

/-- A row of an I/O read of a port of no fixed device, in the same way (R116, R123). -/
theorem exec_ioReadRow {i : Instr} {p : Port} {s : State} (hf : s.fault = none) (h : ioReadRow i p) :
    encode i = readWord p ∧ exec i s = .next (s.ioRead p) ∧ p ∉ fixedPorts := by
  rcases h with ⟨rfl, rfl⟩ | ⟨rfl, rfl⟩ | ⟨rfl, rfl⟩ | ⟨rfl, rfl⟩ | ⟨rfl, hp⟩
  iterate 4 exact ⟨rfl, busStep_ok (fun s => s.ioRead _) hf, by decide⟩
  exact ⟨rfl, busStep_ok (fun s => s.ioRead p) hf, fun h => hp (List.mem_append_left [0x98, 0x99, 0x40, 0x41] h)⟩

/-- The VDP's data port, when it is no fixed device's. -/
theorem portUnit_data {c : Config} (h : c.vdpDataPort ∉ fixedPorts) : portUnit c c.vdpDataPort = .vdpData := by
  simp [fixedPorts] at h
  simp [portUnit, pagePort, h]

/-- The VDP's control port, when it is no fixed device's and not the data port. -/
theorem portUnit_ctrl {c : Config} (h : c.vdpCtrlPort ∉ fixedPorts) (hd : c.vdpDataPort ≠ c.vdpCtrlPort) :
    portUnit c c.vdpCtrlPort = .vdpCtrl := by
  simp [fixedPorts] at h
  simp [portUnit, pagePort, h, Ne.symm hd]

/-- A redraw writes the framebuffer alone (R223). -/
theorem State.redraw_eq (s : State) : ∃ fb, s.redraw = { s with fb := fb } := by
  unfold State.redraw
  generalize List.range visibleRows = l
  induction l generalizing s with
  | nil => exact ⟨_, rfl⟩
  | cons r l ih => obtain ⟨fb, h⟩ := ih (s.renderRow r); exact ⟨fb, h⟩

/-- A step that answers a next state rested, or served the next request in an admitted configuration: a word that holds
the lock where it must, the debugger's call, or an interrupt acknowledge. -/
theorem step_cases {s t : State} (h : step s = .next t) : s.pending = [] ∧ t = s ∨
    ∃ r rest, s.pending = r :: rest ∧ s.cfg.admissible = true ∧
      ((∃ w b l i, r = .word w b l ∧ decode w b = .ok i ∧ (wordKind w = 5 → l = true) ∧ i.wf = true ∧
          exec i { s with pending := rest } = .next t)
       ∨ (∃ c, r = .debuggerInstr c false ∧ s.cfg.variant = .debugger ∧ s.fault = none ∧
          t = State.debuggerInstr { s with pending := rest } c)
       ∨ (r = .intAck ∧ s.vdpInt = true ∧ s.fault = none ∧ t = State.intAckCycle { s with pending := rest })) := by
  unfold step at h
  cases hp : s.pending with
  | nil => simp [hp] at h; exact .inl ⟨rfl, h.symm⟩
  | cons r rest =>
    right
    refine ⟨r, rest, rfl, ?_⟩
    simp only [hp, serve] at h
    split_ifs at h with ha
    have ha' : s.cfg.admissible = true := by simpa using ha
    refine ⟨ha', ?_⟩
    cases r with
    | word w b l =>
      left
      simp only [serveWord] at h
      split at h
      · cases h
      · rename_i i hd
        split_ifs at h with h1 h2
        exact ⟨w, b, l, i, rfl, hd, fun hk => by simpa [hk] using h1, h2, h⟩
    | debuggerInstr c f =>
      right; left
      simp only [serveDebuggerInstr] at h
      split_ifs at h with h1 h2
      obtain ⟨hf, rfl⟩ := busStep_next.mp h
      refine ⟨c, by simpa using h2, ?_, hf, rfl⟩
      cases hv : s.cfg.variant
      · exact absurd hv h1
      · rfl
    | intAck =>
      right; right
      simp only [serveIntAck] at h
      split_ifs at h with h1
      obtain ⟨hf, rfl⟩ := busStep_next.mp h
      exact ⟨rfl, Bool.eq_true_of_not_eq_false fun hv => h1 ⟨hf, hv⟩, hf, rfl⟩

end Sys2Proof.Machine
end

