-- ==== Sys2Proof/Tests/Slice0.lean ====
section
/-! SUPPORT. Tests: the well-formedness smoke, one decoded word per row, small steps whose expected values are the
spec's own vectors (95_test_vectors; the vector's name stands in the comment), and for every statement with hypotheses
a concrete state and operands that meet them. -/

namespace Sys2Proof.Tests

open Sys2Proof Sys2Proof.Machine

/-! ### Helpers -/

/-- The state of an answer that is a next state. -/
def next? : Result → Option State
  | .next t => some t
  | _ => none

/-- What a next state holds, by a reader of it. -/
def look {α : Type} (r : Result) (f : State → α) : Option α := (next? r).map f

/-- The value returned last. -/
def last (s : State) : Option Reply := s.replies.getLast?

/-- The state at power-on. -/
def start : State := State.reset

/-- The start state of 95_test_vectors 2.1. -/
def busStart : State :=
  { start with rom := [(0, 0xF3), (0x3FFF, 0xC9)], ram := [(0, 0x11), (0x3FFF, 0x22), (0x4000, 0x33)] }

/-- The debugger variant at power-on, with DEBUGGER_ADVANCES_VIDEO = never. -/
def dbg : State := { start with cfg := { Config.referenceDebugger with debuggerVideo := .never } }

/-- The debugger variant at power-on, with DEBUGGER_ADVANCES_VIDEO = per_instruction. -/
def dbgVideo : State := { start with cfg := { Config.referenceDebugger with debuggerVideo := .perInstruction } }

/-- The VDP at ports that have no row of their own. -/
def elsewhere : State :=
  { start with cfg := { Config.reference with vdpDataPort := 0x20, vdpCtrlPort := 0x21 } }

/-- The VDP's ports the wrong way round: data at 0x99 and control at 0x98. -/
def swapped : State := { start with cfg := { Config.reference with vdpDataPort := 0x99, vdpCtrlPort := 0x98 } }

/-- The VDP's ports the wrong way round at the debugger's numbers: data at 0x41 and control at 0x40. -/
def swappedDbg : State := { dbg with cfg := { Config.referenceDebugger with vdpDataPort := 0x41, vdpCtrlPort := 0x40 } }

/-- F and IE set, with the interrupt connected. -/
def requesting : State :=
  { start with cfg := { Config.reference with irqMode := .levelFAndIe }, status := 0x80,
               reg := #v[0, 0x60, 0, 0, 0, 0, 0, 0] }

/-- An image of 1024 bytes is attached. -/
def attached : State := { start with cfPresent := true, cfImage := [(512, 0xAA), (1023, 0x55)], cfSize := 1024 }

/-- A read transfer of sector 1, before its last byte. -/
def reading : State := { attached with cfMode := .read, cfBase := 512, cfPos := 511 }

/-- A write transfer of sector 4, past the image's end, before its first byte. -/
def writing : State := { attached with cfMode := .write, cfBase := 2048, cfPos := 0 }

/-- A governor runs. -/
def governed : State := { start with govRunning := true }

/-- The CPU Core has failed. -/
def failed : State := { start with fault := some .cpuCoreFailure, govRunning := true }

/-- The CPU Core has failed in the debugger variant. -/
def failedDbg : State := { dbg with fault := some .cpuCoreFailure }

/-- A state that one word is asked of next, the lock held. -/
def asked (s : State) (w : Word) (b : Beside) : State := { s with pending := [.word w b true] }

/-! ### The well-formedness checks refuse -/

theorem test_wf_cfCmdOther_read : (Instr.cfCmdOther 0x20).wf = false := by decide
theorem test_wf_cfCmdOther_write : (Instr.cfCmdOther 0x30).wf = false := by decide
theorem test_wf_pageOff_one : (Instr.pageOff 0x01).wf = false := by decide
theorem test_wf_unmappedRead_mapped : (Instr.unmappedRead 0x17).wf = false := by decide
theorem test_wf_unmappedWrite_mapped : (Instr.unmappedWrite 0x38 0x00).wf = false := by decide
theorem test_wf_rasterAdvance_negative : (Instr.rasterAdvance (-1)).wf = false := by decide
theorem test_wf_cfAttach_past_size : (Instr.cfAttach [(512, 0x7E)] 512).wf = false := by decide
theorem test_wf_cfAttach_zero_byte : (Instr.cfAttach [(3, 0x00)] 512).wf = false := by decide
theorem test_wf_cfAttach_unordered : (Instr.cfAttach [(3, 0x01), (2, 0x01)] 512).wf = false := by decide

/-! ### One word per row, written from the row's match and mask, ignored address bits set -/

/-- Operands beside the word, each with a value of its own. -/
def beside : Beside where
  dns := 63500
  target := 1002
  cpu := [.fails none none 0]
  ramAddr := 0xC0DE
  vramAddr := 0x3ABC
  regIx := 5
  row := 239
  col := 319
  image := [(3, 0x7E)]
  size := 512

theorem test_decode_fetch : decode 0x0123400 {} = .ok (.fetch 0x1234) := by decide
theorem test_decode_mread : decode 0x1BEEF00 {} = .ok (.mread 0xBEEF) := by decide
theorem test_decode_mwrite : decode 0x280015C {} = .ok (.mwrite 0x8001 0x5C) := by decide
theorem test_decode_cfDataRd : decode 0x3AB1000 {} = .ok .cfDataRd := by decide
theorem test_decode_cfDataWr : decode 0x4AB105C {} = .ok (.cfDataWr 0x5C) := by decide
theorem test_decode_cfErrRd : decode 0x3AB1100 {} = .ok .cfErrRd := by decide
theorem test_decode_cfFeatWr : decode 0x4AB115C {} = .ok (.cfFeatWr 0x5C) := by decide
theorem test_decode_cfCountRd : decode 0x3AB1200 {} = .ok .cfCountRd := by decide
theorem test_decode_cfCountWr : decode 0x4AB125C {} = .ok (.cfCountWr 0x5C) := by decide
theorem test_decode_cfLba0Rd : decode 0x3AB1300 {} = .ok .cfLba0Rd := by decide
theorem test_decode_cfLba0Wr : decode 0x4AB135C {} = .ok (.cfLba0Wr 0x5C) := by decide
theorem test_decode_cfLba1Rd : decode 0x3AB1400 {} = .ok .cfLba1Rd := by decide
theorem test_decode_cfLba1Wr : decode 0x4AB145C {} = .ok (.cfLba1Wr 0x5C) := by decide
theorem test_decode_cfLba2Rd : decode 0x3AB1500 {} = .ok .cfLba2Rd := by decide
theorem test_decode_cfLba2Wr : decode 0x4AB155C {} = .ok (.cfLba2Wr 0x5C) := by decide
theorem test_decode_cfLba3Rd : decode 0x3AB1600 {} = .ok .cfLba3Rd := by decide
theorem test_decode_cfLba3Wr : decode 0x4AB165C {} = .ok (.cfLba3Wr 0x5C) := by decide
theorem test_decode_cfStatusRd : decode 0x3AB1700 {} = .ok .cfStatusRd := by decide
theorem test_decode_cfCmdRead : decode 0x4AB1720 {} = .ok .cfCmdRead := by decide
theorem test_decode_cfCmdWrite : decode 0x4AB1730 {} = .ok .cfCmdWrite := by decide
theorem test_decode_cfCmdOther : decode 0x4AB175C {} = .ok (.cfCmdOther 0x5C) := by decide
theorem test_decode_pageOn : decode 0x4AB3801 {} = .ok .pageOn := by decide
theorem test_decode_pageOff : decode 0x4AB385C {} = .ok (.pageOff 0x5C) := by decide
theorem test_decode_pageRd : decode 0x3AB3800 {} = .ok .pageRd := by decide
theorem test_decode_uartACtrlRd : decode 0x3AB8000 {} = .ok .uartACtrlRd := by decide
theorem test_decode_uartACtrlWr : decode 0x4AB805C {} = .ok (.uartACtrlWr 0x5C) := by decide
theorem test_decode_uartADataRd : decode 0x3AB8100 {} = .ok .uartADataRd := by decide
theorem test_decode_uartADataWr : decode 0x4AB815C {} = .ok (.uartADataWr 0x5C) := by decide
theorem test_decode_uartBCtrlRd : decode 0x3AB8200 {} = .ok .uartBCtrlRd := by decide
theorem test_decode_uartBCtrlWr : decode 0x4AB825C {} = .ok (.uartBCtrlWr 0x5C) := by decide
theorem test_decode_uartBDataRd : decode 0x3AB8300 {} = .ok .uartBDataRd := by decide
theorem test_decode_uartBDataWr : decode 0x4AB835C {} = .ok (.uartBDataWr 0x5C) := by decide
theorem test_decode_vdpDataWr : decode 0x4AB985C {} = .ok (.vdpDataWr 0x5C) := by decide
theorem test_decode_vdpDataRd : decode 0x3AB9800 {} = .ok .vdpDataRd := by decide
theorem test_decode_vdpCtrlWr : decode 0x4AB995C {} = .ok (.vdpCtrlWr 0x5C) := by decide
theorem test_decode_vdpStatusRd : decode 0x3AB9900 {} = .ok .vdpStatusRd := by decide
theorem test_decode_vdpDataWrDbg : decode 0x4AB405C {} = .ok (.vdpDataWrDbg 0x5C) := by decide
theorem test_decode_vdpDataRdDbg : decode 0x3AB4000 {} = .ok .vdpDataRdDbg := by decide
theorem test_decode_vdpCtrlWrDbg : decode 0x4AB415C {} = .ok (.vdpCtrlWrDbg 0x5C) := by decide
theorem test_decode_vdpStatusRdDbg : decode 0x3AB4100 {} = .ok .vdpStatusRdDbg := by decide
theorem test_decode_unmappedRead : decode 0x3AB1800 {} = .ok (.unmappedRead 0x18) := by decide
theorem test_decode_unmappedWrite : decode 0x4AB845C {} = .ok (.unmappedWrite 0x84 0x5C) := by decide
theorem test_decode_rasterAdvance : decode 0x5000100 beside = .ok (.rasterAdvance 63500) := by decide
theorem test_decode_redrawFrame : decode 0x5000200 beside = .ok .redrawFrame := by decide
theorem test_decode_reset : decode 0x5000300 beside = .ok .reset := by decide
theorem test_decode_govIteration : decode 0x5000400 beside = .ok (.govIteration 1002 [.fails none none 0]) := by decide
theorem test_decode_govStop : decode 0x5000500 beside = .ok .govStop := by decide
theorem test_decode_govStart : decode 0x5000600 beside = .ok .govStart := by decide
theorem test_decode_hostRamRead : decode 0x5001000 beside = .ok (.hostRamRead 0xC0DE) := by decide
theorem test_decode_hostRamWrite : decode 0x500115C beside = .ok (.hostRamWrite 0xC0DE 0x5C) := by decide
theorem test_decode_hostVramRead : decode 0x5001200 beside = .ok (.hostVramRead 0x3ABC) := by decide
theorem test_decode_hostVramWrite : decode 0x500135C beside = .ok (.hostVramWrite 0x3ABC 0x5C) := by decide
theorem test_decode_hostRegRead : decode 0x5001400 beside = .ok (.hostRegRead 5) := by decide
theorem test_decode_hostRegWrite : decode 0x500155C beside = .ok (.hostRegWrite 5 0x5C) := by decide
theorem test_decode_hostFbRead : decode 0x5001600 beside = .ok (.hostFbRead 239 319) := by decide
theorem test_decode_uartRxPushA : decode 0x500205C beside = .ok (.uartRxPushA 0x5C) := by decide
theorem test_decode_uartRxPushB : decode 0x500215C beside = .ok (.uartRxPushB 0x5C) := by decide
theorem test_decode_cfAttach : decode 0x5003000 beside = .ok (.cfAttach [(3, 0x7E)] 512) := by decide
theorem test_decode_cfDetach : decode 0x5003100 beside = .ok .cfDetach := by decide

-- R90: K = 6, K = 7 and K = 5 with an unlisted op code; log entry 2: a container of more than 27 bits.
theorem test_decode_kind6 : decode 0x6000000 {} = .error .reservedKind := by decide
theorem test_decode_kind7 : decode 0x7000000 {} = .error .reservedKind := by decide
theorem test_decode_op0 : decode 0x5000000 {} = .error .reservedOpCode := by decide
theorem test_decode_op100 : decode 0x5010000 {} = .error .reservedOpCode := by decide
theorem test_decode_wide : decode 0x8000000 {} = .error .wideWord := by decide

/-! ### Steps -/

-- B1, B2, B3, B8
theorem test_fetch_rom : look (exec (.fetch 0) busStart) (fun t => (last t, t.tstates)) = some (some (.bus 0xF3), 4) := by
  decide
theorem test_mread_last_rom_byte : look (exec (.mread 0x3FFF) busStart) last = some (some (.bus 0xC9)) := by decide
theorem test_mread_first_ram_byte : look (exec (.mread 0x4000) busStart) last = some (some (.bus 0x33)) := by decide
theorem test_fetch_without_rom :
    look (exec (.fetch 0) { busStart with cfg := { Config.reference with romLen := 0 } }) last
      = some (some (.bus 0x11)) := by decide
-- B4, B5
theorem test_mwrite_under_rom :
    look (exec (.mwrite 0 0x77) busStart) (fun t => (Mem.read t.ram 0, t.tstates)) = some (0x77, 3) := by decide
theorem test_mwrite_discard :
    look (exec (.mwrite 0 0x77) { busStart with cfg := { Config.reference with writeUnderRom := .discard } })
      (fun t => Mem.read t.ram 0) = some 0x11 := by decide
-- P2, P3, E6, P4, P5, P6, P9
theorem test_pageOn : look (exec .pageOn start) (·.paged) = some true := by decide
theorem test_pageOff : look (exec (.pageOff 0x81) { start with paged := true }) (·.paged) = some false := by decide
theorem test_pageRd : look (exec .pageRd start) last = some (some (.bus (Config.unmappedRead 0))) := rfl
theorem test_unmappedRead : look (exec (.unmappedRead 0) start) last = some (some (.bus (Config.unmappedRead 0))) := rfl
theorem test_unmappedWrite : exec (.unmappedWrite 0xFE 0x12) start = .next { start with tstates := 4 } := rfl
theorem test_vdp_port_of_the_machine_in_debugger :
    look (exec (.vdpDataWr 0x00) dbg) (fun t => (t.ptr, t.tstates)) = some (0, 4) := by decide
-- V10, V2, V4
theorem test_vdpCtrlWr_first :
    look (exec (.vdpCtrlWr 0x10) start) (fun t => (t.latchFull, t.latchByte, t.ptr)) = some (true, 0x10, 0) := by decide
theorem test_vdpCtrlWr_register :
    look (exec (.vdpCtrlWr 0xFF) { start with latchFull := true, latchByte := 0xF4 })
      (fun t => (t.reg, t.latchFull, t.ptr)) = some (#v[0, 0, 0, 0, 0, 0, 0, 0xF4], false, 0) := by decide
theorem test_vdpCtrlWrDbg_pointer :
    look (exec (.vdpCtrlWrDbg 0x7F) { dbg with latchFull := true, latchByte := 0xFF })
      (fun t => (t.ptr, t.latchFull)) = some (0x3FFF, false) := by decide
-- V5, V7
theorem test_vdpDataWr_wraps :
    look (exec (.vdpDataWr 0xAA) { start with ptr := 0x3FFF }) (fun t => (Mem.read t.vram 0x3FFF, t.ptr))
      = some (0xAA, 0) := by decide
theorem test_vdpDataWrDbg :
    look (exec (.vdpDataWrDbg 0x41) { dbg with ptr := 0x0800 }) (fun t => (Mem.read t.vram 0x0800, t.ptr))
      = some (0x41, 0x0801) := by decide
-- E2: no read-ahead
theorem test_vdpDataRd :
    look (exec .vdpDataRd { start with vram := [(0x1234, 0x5A)], ptr := 0x1234 }) (fun t => (last t, t.ptr))
      = some (some (.bus 0x5A), 0x1235) := by decide
theorem test_vdpDataRdDbg :
    look (exec .vdpDataRdDbg { dbg with vram := [(0x1234, 0x5A)], ptr := 0x1234 }) last
      = some (some (.bus 0x5A)) := by decide
-- V12, V8, P10
theorem test_vdpStatusRd_clears_F :
    look (exec .vdpStatusRd { start with status := 0x80, latchFull := true }) (fun t => (t.status, t.latchFull))
      = some (0, true) := by decide
theorem test_vdpStatusRd_latch_parameter :
    look (exec .vdpStatusRd { start with cfg := { Config.reference with latchResetOnRead := true }, latchFull := true })
      (·.latchFull) = some false := by decide
theorem test_vdpStatusRdDbg : look (exec .vdpStatusRdDbg { dbg with status := 0x80 }) (·.status) = some 0 := by decide
-- RS2, RS8
theorem test_rasterAdvance_completes_a_row :
    look (exec (.rasterAdvance 1) { start with accNs := 63499 }) (fun t => (t.line, t.accNs, t.flagF))
      = some (1, 0, false) := by decide +kernel
theorem test_rasterAdvance_wraps_pal :
    look (exec (.rasterAdvance 1)
        { start with cfg := { Config.reference with videoStd := .pal }, line := 311, accNs := 63999 })
      (fun t => (t.line, t.flagF, t.events)) = some (0, true, [.vsync]) := by decide +kernel
-- IRQ1, IRQ2
theorem test_vdpInt_level : requesting.vdpInt = true := by decide
theorem test_vdpInt_needs_IE : { requesting with reg := #v[0, 0x40, 0, 0, 0, 0, 0, 0] }.vdpInt = false := by decide

/-- One pixel of a rendered row, with SPRITE_Y_OFFSET = 1. -/
def px (r : Regs) (vram : Mem) (row col : Nat) : Option Colour := (rowPixels 1 r vram row)[col]?

/-- The sprite vectors' registers, with R1 = `r1`. -/
def spriteRegs (r1 : Byte) : Regs := #v[0, r1, 0x06, 0x80, 0, 0x36, 0x07, 0x04]

-- G1, G2b, MC, TX
theorem test_graphics1 :
    let m : Mem := [(0x0048, 0xF0), (0x1800, 0x09), (0x1B00, 0xD0), (0x2001, 0x61)]
    [0, 3, 4, 7, 8].map (fun x => graphics1Pixel (spriteRegs 0x40) m x 0) = [6, 6, 1, 1, 4] := by decide
theorem test_graphics2 :
    let m : Mem := [(0x0800, 0x3C), (0x1B00, 0xD0), (0x2800, 0xF0)]
    [0, 3, 4, 7].map (fun x => graphics2Pixel #v[2, 0x40, 6, 0x7F, 4, 0x36, 0, 4] m x 64) = [3, 3, 12, 12] := by decide
theorem test_multicolor :
    let m : Mem := [(0x0010, 0x3C), (0x0011, 0x70), (0x1800, 0x02), (0x1B00, 0xD0)]
    [(3, 3), (4, 3), (0, 4), (7, 7)].map (fun p => multicolorPixel #v[0, 0x48, 6, 0, 0, 0x36, 0, 4] m p.1 p.2)
      = [3, 12, 7, 4] := by decide
theorem test_text :
    let m : Mem := [(0x0000, 0x41), (0x0A08, 0xA8)]
    [0, 1, 2, 3, 4, 5, 6].map (fun c => textPixel #v[0, 0x50, 0, 0, 1, 0, 0, 0xF4] m c 0) = [15, 4, 15, 4, 15, 4, 4] := by
  decide
-- S5 (EC), S6 (the fifth sprite), S8 (priority), S10 (0xD0), S14 (16 x 16), S15 (magnified, 90_conflicts C8)
theorem test_sprite_early_clock :
    px (spriteRegs 0x40) [(0x1B00, 0x0F), (0x1B01, 0x25), (0x1B02, 1), (0x1B03, 0x8F), (0x1B04, 0xD0), (0x3808, 0x80)]
      40 37 = some 15 := by decide +kernel
theorem test_sprite_fifth_is_not_visible :
    visibleSprites (spriteRegs 0x40) [(0x1B00, 0x0F), (0x1B04, 0x0F), (0x1B08, 0x0F), (0x1B0C, 0x0F), (0x1B10, 0x0F),
      (0x1B14, 0xD0)] 1 16 = [0, 1, 2, 3] := by decide
theorem test_sprite_priority :
    px (spriteRegs 0x40) [(0x1B00, 0x0F), (0x1B01, 0x10), (0x1B02, 1), (0x1B03, 2), (0x1B04, 0x0F), (0x1B05, 0x10),
      (0x1B06, 1), (0x1B07, 9), (0x1B08, 0xD0), (0x3808, 0x80)] 40 48 = some 2 := by decide +kernel
theorem test_sprite_terminator :
    visibleSprites (spriteRegs 0x40) [(0x1B00, 0xD0), (0x1B04, 0x0F)] 1 16 = [] := by decide
theorem test_sprite_16_columns :
    let m : Mem := [(0x1B00, 0x0F), (0x1B01, 0x10), (0x1B02, 5), (0x1B03, 0x0F), (0x3820, 0x01), (0x3830, 0x80)]
    [6, 7, 8, 9].map (spriteBit (spriteRegs 0x42) m 0 0) = [false, true, true, false] := by decide
theorem test_sprite_magnified_corner :
    let m : Mem := [(0x1B00, 0xE0), (0x1B03, 0x0F), (0x1B04, 0xD0), (0x380F, 0xFF)]
    spriteDy (spriteRegs 0x43) m 1 0 0 = 31 ∧ spriteCovers (spriteRegs 0x43) m 1 0 0 = true
    ∧ spriteCovers (spriteRegs 0x43) m 1 1 0 = false ∧ spriteBit (spriteRegs 0x43) m 0 15 7 = true
    ∧ spriteBit (spriteRegs 0x43) m 0 15 8 = false := by decide
-- G0, H7
theorem test_redrawFrame_display_off :
    look (exec .redrawFrame { start with reg := #v[0, 0, 0, 0, 0, 0, 0, 5] }) (fun t => (t.pixel? 239 319, t.tstates))
      = some (some 5, 0) := by decide +kernel

-- U2, U3, U4, U6, U7, U8, U9
theorem test_uartACtrlRd : look (exec .uartACtrlRd { start with rxqA := [0x41] }) last = some (some (.bus 0x05)) := by
  decide
theorem test_uartBCtrlRd : look (exec .uartBCtrlRd { start with rxqA := [0x41] }) last = some (some (.bus 0x04)) := by
  decide
theorem test_uartADataRd :
    look (exec .uartADataRd { start with rxqA := [0x41] }) (fun t => (last t, t.rxqA)) = some (some (.bus 0x41), []) := by
  decide
theorem test_uartBDataRd_empty : look (exec .uartBDataRd start) last = some (some (.bus 0x00)) := by decide
theorem test_uartADataWr : look (exec (.uartADataWr 0x48) start) (·.events) = some [.uartTx .a 0x48] := by decide
theorem test_uartBDataWr : look (exec (.uartBDataWr 0x00) start) (·.events) = some [.uartTx .b 0x00] := by decide
theorem test_uartACtrlWr : exec (.uartACtrlWr 0x18) start = .next { start with tstates := 4 } := rfl
theorem test_uartBCtrlWr : exec (.uartBCtrlWr 0x18) start = .next { start with tstates := 4 } := rfl
theorem test_uartRxPushA : look (exec (.uartRxPushA 0x41) start) (·.rxqA) = some [0x41] := by decide
theorem test_uartRxPushB :
    look (exec (.uartRxPushB 0x32) { start with rxqB := [0x31] }) (·.rxqB) = some [0x31, 0x32] := by decide

-- C1, C2, C3, C4, C5, C6, C7, C9, C10, C13, C14, C15, C17, C19
theorem test_cfStatusRd : look (exec .cfStatusRd reading) last = some (some (.bus 0x48)) := by decide
theorem test_cfStatusRd_no_image : look (exec .cfStatusRd start) last = some (some (.bus 0x00)) := by decide
theorem test_cfLba3Wr_full_byte : look (exec (.cfLba3Wr 0xE3) start) (·.cfLba) = some #v[0, 0, 0, 0xE3] := by decide
theorem test_cfLba0Wr : look (exec (.cfLba0Wr 0x05) start) (·.cfLba) = some #v[0x05, 0, 0, 0] := by decide
theorem test_cfLba1Wr : look (exec (.cfLba1Wr 0x05) start) (·.cfLba) = some #v[0, 0x05, 0, 0] := by decide
theorem test_cfLba2Wr : look (exec (.cfLba2Wr 0x05) start) (·.cfLba) = some #v[0, 0, 0x05, 0] := by decide
theorem test_cfCountWr : look (exec (.cfCountWr 0x04) start) (·.cfCount) = some 0x04 := by decide
theorem test_cfFeatWr : look (exec (.cfFeatWr 0x01) start) (·.cfFeat) = some 0x01 := by decide

/-- A task file with a different byte in every register. -/
def filled : State := { start with cfLba := #v[1, 2, 3, 0xE3], cfCount := 4, cfFeat := 5 }

theorem test_cfLba0Rd : look (exec .cfLba0Rd filled) last = some (some (.bus 1)) := by decide
theorem test_cfLba1Rd : look (exec .cfLba1Rd filled) last = some (some (.bus 2)) := by decide
theorem test_cfLba2Rd : look (exec .cfLba2Rd filled) last = some (some (.bus 3)) := by decide
theorem test_cfLba3Rd : look (exec .cfLba3Rd filled) last = some (some (.bus 0xE3)) := by decide
theorem test_cfCountRd : look (exec .cfCountRd filled) last = some (some (.bus 4)) := by decide
theorem test_cfErrRd : look (exec .cfErrRd filled) last = some (some (.bus 0)) := by decide
theorem test_cfCmdRead :
    look (exec .cfCmdRead { attached with cfLba := #v[2, 0, 0, 0xE0] }) (fun t => (t.cfBase, t.cfMode, t.cfPos))
      = some (1024, .read, 0) := by decide
theorem test_cfCmdRead_largest_lba :
    look (exec .cfCmdRead { attached with cfLba := #v[0xFF, 0xFF, 0xFF, 0xFF] }) (·.cfBase) = some 137438952960 := by
  decide
theorem test_cfCmdWrite_no_image : look (exec .cfCmdWrite start) (fun t => (t.cfMode, t.tstates)) = some (.idle, 4) := by
  decide
theorem test_cfCmdOther : exec (.cfCmdOther 0xEC) reading = .next { reading with tstates := 4 } := rfl
theorem test_cfDataRd_last_byte :
    look (exec .cfDataRd reading) (fun t => (last t, t.cfMode, t.cfPos)) = some (some (.bus 0x55), .idle, 0) := by decide
theorem test_cfDataRd_past_end :
    look (exec .cfDataRd { reading with cfSize := 1000 }) last = some (some (.bus (Config.cfEofRead 0))) := rfl
theorem test_cfDataWr_grows_the_image :
    look (exec (.cfDataWr 0x99) writing) (fun t => (Mem.read t.cfImage 2048, Mem.read t.cfImage 2000, t.cfSize))
      = some (0x99, 0, 2049) := by decide
theorem test_cfDataWr_idle : exec (.cfDataWr 0x77) attached = .next { attached with tstates := 4 } := rfl
theorem test_cfAttach :
    look (exec (.cfAttach [(3, 0x7E)] 512) reading) (fun t => (t.cfImage, t.cfSize, t.cfPresent, t.cfMode))
      = some ([(3, 0x7E)], 512, true, .idle) := by decide
theorem test_cfDetach : look (exec .cfDetach reading) (fun t => (t.cfPresent, t.cfMode)) = some (false, .idle) := by decide

-- H3, H4, H5, H6
theorem test_govIteration_overshoots :
    look (exec (.govIteration 1002 [.runs none 0 [] 0]) { governed with tstates := 1000, govMark := 1000 })
      (fun t => (t.tstates, t.govMark, t.accNs)) = some (1004, 1004, 78125 / 144) := by decide +kernel
theorem test_govIteration_without_governor : exec (.govIteration 10 []) start = .refused .governorNotRunning := rfl
theorem test_govStop :
    look (exec .govStop { reading with govRunning := true }) (fun t => (t.govRunning, t.cfPresent))
      = some (false, false) := by decide
theorem test_govStart : look (exec .govStart { start with tstates := 9 }) (fun t => (t.govRunning, t.govMark))
      = some (true, 9) := by decide
theorem test_govStart_debugger : exec .govStart dbg = .refused .noGovernorInDebugger := rfl
-- H8, H9, H10, H11, H12
theorem test_hostRamWrite :
    look (exec (.hostRamWrite 0 0x12) busStart) (fun t => (Mem.read t.ram 0, t.tstates)) = some (0x12, 0) := by decide
theorem test_hostRamRead_sees_ram : look (exec (.hostRamRead 0) busStart) last = some (some (.host 0x11)) := by decide
theorem test_hostVramWrite :
    look (exec (.hostVramWrite 0x1234 0x5A) start) (fun t => (Mem.read t.vram 0x1234, t.ptr)) = some (0x5A, 0) := by
  decide
theorem test_hostVramRead :
    look (exec (.hostVramRead 0x3FFF) { start with vram := [(0x3FFF, 7)] }) last = some (some (.host 7)) := by decide
theorem test_hostRegWrite :
    look (exec (.hostRegWrite 7 0x1F) start) (·.reg) = some #v[0, 0, 0, 0, 0, 0, 0, 0x1F] := by decide
theorem test_hostRegRead : look (exec (.hostRegRead 1) requesting) last = some (some (.host 0x60)) := by decide
theorem test_hostFbRead : look (exec (.hostFbRead 239 319) start) last = some (some (.pixel 0)) := by decide +kernel
theorem test_hostFbRead_out_of_range : exec (.hostFbRead 240 0) start = .refused .pixelOutOfRange := by rfl
-- 2.9
theorem test_reset :
    look (exec .reset { reading with
        status := 0x80, vram := [(0x10, 0x77)], paged := true, tstates := 99999, ptr := 0x1234, rxqA := [0x41] })
      (fun t => (Mem.read t.vram 0x10, t.paged, t.tstates, t.cfMode, t.rxqA))
      = some (0x77, false, 0, .idle, [0x41]) := by decide
theorem test_reset_parameters :
    look (exec .reset { start with
        cfg := { Config.reference with vramClearedOnReset := true, pagedClearedOnReset := false }
        vram := [(0x10, 0x77)], paged := true }) (fun t => (Mem.read t.vram 0x10, t.paged)) = some (0, true) := by decide
-- FT1, FT3
theorem test_cpu_failure_ends_the_iteration :
    look (exec (.govIteration 8 [.runs none 0 [] 0, .fails none none 0]) governed) (fun t => (t.fault, t.tstates, t.govMark))
      = some (some .cpuCoreFailure, 4, 0) := by decide +kernel
-- R234, R229: an acknowledge with one push, and the failure before the next fetch
theorem test_cpu_failure_after_an_acknowledge :
    look (exec (.govIteration 8 [.fails (some [.mwrite 0xFFFE 0x12]) none 0]) { requesting with govRunning := true })
      (fun t => (t.fault, t.tstates, t.draws, Mem.read t.ram 0xFFFE)) = some (some .cpuCoreFailure, 3, 1, 0x12) := by
  decide +kernel
-- R110: extra t-states of an instruction the Core fails in, where they are reported
theorem test_cpu_failure_reports_extra :
    look (exec (.govIteration 8 [.fails none (some (0, [])) 2])
        { governed with cfg := { Config.reference with cpuReportsExtra := true } })
      (fun t => (t.fault, t.tstates)) = some (some .cpuCoreFailure, 6) := by decide +kernel
-- R229: after the fault an acknowledge answers it, request or none
theorem test_intAck_after_a_failure : step { failed with pending := [.intAck] } = .fault .cpuCoreFailure := by rfl
theorem test_intAck_reads_a_free_byte :
    look (step { requesting with pending := [.intAck] }) last = some (some (.bus (Config.unmappedRead 0))) := by rfl

/-! ### The hypotheses of the statements are met -/

theorem test_witness_DecodeOfEncodeIsIdentity :
    ([.unmappedRead 0x18, .unmappedWrite 0xFF 0xFF, .pageOff 0x00, .pageOff 0xFF, .cfCmdOther 0x21, .cfCmdOther 0x31,
      .rasterAdvance 0, .cfAttach [(511, 0xFF)] 512, .hostFbRead 240 320] : List Instr).all (·.wf) = true := by decide

theorem test_witness_DecodeKeepsKindAddressAndData :
    decode 0x0FFFFFF {} = .ok (.fetch 0xFFFF) ∧ wordKind 0x0FFFFFF = 0
    ∧ decode 0x1000000 {} = .ok (.mread 0) ∧ wordKind 0x1000000 = 1
    ∧ decode 0x2FFFFFF {} = .ok (.mwrite 0xFFFF 0xFF) ∧ wordKind 0x2FFFFFF = 2
    ∧ decode 0x300FF00 {} = .ok (.unmappedRead 0xFF) ∧ wordKind 0x300FF00 = 3
    ∧ decode 0x4FFFFFF {} = .ok (.unmappedWrite 0xFF 0xFF) ∧ wordKind 0x4FFFFFF = 4
    ∧ decode 0x5000100 {} = .ok (.rasterAdvance 0) ∧ wordKind 0x5000100 = 5
    ∧ decode 0x50011FF {} = .ok (.hostRamWrite 0 0xFF) ∧ (wordAddr 0x50011FF).toNat = 0x11
    ∧ decode 0x50021FF {} = .ok (.uartRxPushB 0xFF) ∧ (wordAddr 0x50021FF).toNat = 0x21 := by decide

theorem test_witness_StepRunsTheDecodedInstruction :
    (asked start 0x5000600 {}).pending = [.word 0x5000600 {} true] ∧ start.cfg.admissible = true
    ∧ decode 0x5000600 {} = .ok .govStart ∧ Instr.govStart.wf = true ∧ wordKind 0x5000600 = 5
    ∧ decode 0x0FFFF00 {} = .ok (.fetch 0xFFFF) ∧ wordKind 0x0FFFF00 ≠ 5 := by decide

theorem test_witness_StepRefusesWhatIsNotAdmitted :
    start.pending = [] ∧ (asked start 0x0000000 {}).pending ≠ []
    ∧ { Config.reference with romLen := 16385 }.admissible = false ∧ start.cfg.admissible = true
    ∧ decode 0x6000000 {} = .error .reservedKind ∧ decode 0x5FFFF00 {} = .error .reservedOpCode
    ∧ decode 0x5000200 {} = .ok .redrawFrame ∧ wordKind 0x5000200 = 5 := by decide

theorem test_witness_AdmittedConfigurationsHaveDistinctPorts :
    0 ≤ Config.reference.clockPeriodNs ∧ Config.reference.admissible = true
    ∧ { Config.reference with vdpDataPort := 0x18, romLen := 16384 }.admissible = true
    ∧ { Config.reference with vdpDataPort := 0x17 }.admissible = false
    ∧ { Config.reference with vdpCtrlPort := 0x38 }.admissible = false
    ∧ { Config.reference with vdpCtrlPort := 0x98 }.admissible = false := by decide +kernel

theorem test_witness_StepKeepsTheInvariant :
    (asked start 0x0000000 {}).inv = true ∧ ∃ t, step (asked start 0x0000000 {}) = .next t := ⟨by decide +kernel, _, rfl⟩

theorem test_witness_StepsNeverChangeRomOrConfiguration : ∃ t, step (asked busStart 0x2000077 {}) = .next t := ⟨_, rfl⟩

theorem test_witness_EventsOnlyGrowAndFaultsStay :
    (∃ t, step (asked start 0x4008148 {}) = .next t)
    ∧ (∃ t, step (asked failed 0x5001000 {}) = .next t) ∧ (asked failed 0x5001000 {}).fault ≠ none :=
  ⟨⟨_, rfl⟩, ⟨_, rfl⟩, by decide⟩

theorem test_witness_EachKindAddsItsTstates :
    (∃ t, exec (.fetch 0) start = .next t) ∧ (∃ t, exec (.mread 0) start = .next t)
    ∧ (∃ t, exec (.mwrite 0 0) start = .next t) ∧ (∃ t, exec .pageRd start = .next t)
    ∧ (∃ t, exec .pageOn start = .next t) ∧ (∃ t, exec .govStart start = .next t) :=
  ⟨⟨_, rfl⟩, ⟨_, rfl⟩, ⟨_, rfl⟩, ⟨_, rfl⟩, ⟨_, rfl⟩, ⟨_, rfl⟩⟩

theorem test_witness_PagingAndRamChangeOnlyByTheirOperations :
    Instr.pageOn.wf = true ∧ (∃ t, exec .pageOn start = .next t ∧ t.paged ≠ start.paged)
    ∧ (Instr.mwrite 0xFFFF 1).wf = true ∧ (∃ t, exec (.mwrite 0xFFFF 1) start = .next t ∧ t.ram ≠ start.ram) :=
  ⟨rfl, ⟨_, rfl, by decide⟩, rfl, ⟨_, rfl, by decide⟩⟩

theorem test_witness_OnlyTheRasterSetsF :
    ∃ t, exec (.rasterAdvance 63500) { start with line := 261 } = .next t ∧ start.flagF = false ∧ t.flagF = true :=
  ⟨_, rfl, by decide, by decide +kernel⟩

theorem test_witness_CpuTransactionsDoNotMoveTheRaster :
    (requesting.busTxns [.fetch 0, .iowrite 0xFF38 1, .ioread 0x0000]).flagF = true := by decide

theorem test_witness_CfRowsLeaveTheOtherUnitsAlone :
    (∃ t, exec .cfDataRd reading = .next t) ∧ (∃ t, exec (.cfDataWr 1) writing = .next t)
    ∧ (∃ t, exec (.cfCmdOther 0xEC) start = .next t) ∧ (∃ t, exec (.cfAttach [] 0) start = .next t)
    ∧ ∃ t, exec .cfDetach reading = .next t := ⟨⟨_, rfl⟩, ⟨_, rfl⟩, ⟨_, rfl⟩, ⟨_, rfl⟩, ⟨_, rfl⟩⟩

theorem test_witness_TableRowsAgreeWithThePortDispatch :
    (wordKind 0x4009941).toNat ≤ 4 ∧ decode 0x4009941 {} = .ok (.vdpCtrlWr 0x41) ∧ start.cfg.admissible = true
    ∧ dbg.cfg.admissible = true ∧ (wordKind 0x0000000).toNat = 0 := by decide

theorem test_witness_FetchAndReadReturnTheSelectedByte :
    busStart.fault = none ∧ busStart.paged = false ∧ (0x3FFF : Addr).toNat < busStart.cfg.romLen
    ∧ ¬ (0x4000 : Addr).toNat < busStart.cfg.romLen := by decide

theorem test_witness_MemoryWriteGoesToRam :
    busStart.fault = none ∧ Mem.wf busStart.ram 65536 = true ∧ busStart.cfg.romLen ≤ (0x4000 : Addr).toNat
    ∧ ¬ (busStart.paged = true ∨ busStart.cfg.romLen ≤ (0x3FFF : Addr).toNat)
    ∧ busStart.cfg.writeUnderRom = .ram := by decide

theorem test_witness_WriteUnderRomIsHiddenUntilPaged :
    busStart.fault = none ∧ Mem.wf busStart.ram 65536 = true ∧ busStart.paged = false
    ∧ (0x3FFF : Addr).toNat < busStart.cfg.romLen ∧ busStart.cfg.writeUnderRom = .ram := by decide

theorem test_witness_PagingPortWrites : start.fault = none ∧ (0x00 : Byte) ≠ 0x01 ∧ (0x02 : Byte) ≠ 0x01 := by decide

theorem test_witness_UnmappedPortsAreNeutral :
    start.fault = none ∧ (0x18 : Port) ∉ readPorts ∧ (0x18 : Port) ≠ start.cfg.vdpDataPort
    ∧ (0x18 : Port) ≠ start.cfg.vdpCtrlPort := by decide

theorem test_witness_VdpRowsOffTheVdpPortsAreUnmapped :
    dbg.fault = none ∧ (0x98 : Port) ≠ dbg.cfg.vdpDataPort ∧ (0x98 : Port) ≠ dbg.cfg.vdpCtrlPort
    ∧ (0x99 : Port) ≠ dbg.cfg.vdpDataPort ∧ (0x99 : Port) ≠ dbg.cfg.vdpCtrlPort
    ∧ start.fault = none ∧ (0x40 : Port) ≠ start.cfg.vdpDataPort ∧ (0x40 : Port) ≠ start.cfg.vdpCtrlPort
    ∧ (0x41 : Port) ≠ start.cfg.vdpDataPort ∧ (0x41 : Port) ≠ start.cfg.vdpCtrlPort := by decide

/-- Every VDP row and an unmapped row is a row of the data port in some admitted configuration, and of the control port in
another. -/
theorem test_admitted_ports :
    [start, dbg, elsewhere, swapped, swappedDbg].all (fun s => s.cfg.admissible && decide (s.fault = none)
      && decide (s.cfg.vdpDataPort ≠ s.cfg.vdpCtrlPort)) = true := by decide

theorem test_witness_VdpDataWriteStoresAtThePointer :
    let s := { start with ptr := 0x3FFF }
    s.fault = none ∧ Mem.wf s.vram 16384 = true ∧ ioWriteRow (.vdpDataWr 1) s.cfg.vdpDataPort 1
    ∧ ioWriteRow (.vdpDataWrDbg 1) dbg.cfg.vdpDataPort 1 ∧ ioWriteRow (.vdpCtrlWr 1) swapped.cfg.vdpDataPort 1
    ∧ ioWriteRow (.vdpCtrlWrDbg 1) swappedDbg.cfg.vdpDataPort 1
    ∧ ioWriteRow (.unmappedWrite 0x20 1) elsewhere.cfg.vdpDataPort 1 := by decide

theorem test_witness_VdpDataReadReturnsByteAtThePointer :
    start.fault = none ∧ ioReadRow .vdpDataRd start.cfg.vdpDataPort ∧ ioReadRow .vdpDataRdDbg dbg.cfg.vdpDataPort
    ∧ ioReadRow .vdpStatusRd swapped.cfg.vdpDataPort ∧ ioReadRow .vdpStatusRdDbg swappedDbg.cfg.vdpDataPort
    ∧ ioReadRow (.unmappedRead 0x20) elsewhere.cfg.vdpDataPort := by decide

theorem test_witness_VdpControlWriteFollowsTheLatch :
    let s := { start with latchFull := true }
    start.fault = none ∧ start.cfg.vdpDataPort ≠ start.cfg.vdpCtrlPort ∧ start.latchFull = false
    ∧ s.fault = none ∧ s.cfg.vdpDataPort ≠ s.cfg.vdpCtrlPort ∧ s.latchFull = true
    ∧ ioWriteRow (.vdpCtrlWr 0x80) start.cfg.vdpCtrlPort 0x80 ∧ 128 ≤ (0x80 : Byte).toNat
    ∧ ioWriteRow (.vdpCtrlWr 0x7F) start.cfg.vdpCtrlPort 0x7F ∧ (0x7F : Byte).toNat < 128 := by decide

theorem test_witness_VdpControlWriteFollowsTheLatch_rows :
    ioWriteRow (.vdpCtrlWrDbg 1) dbg.cfg.vdpCtrlPort 1
    ∧ ioWriteRow (.vdpDataWr 1) swapped.cfg.vdpCtrlPort 1 ∧ ioWriteRow (.vdpDataWrDbg 1) swappedDbg.cfg.vdpCtrlPort 1
    ∧ ioWriteRow (.unmappedWrite 0x21 1) elsewhere.cfg.vdpCtrlPort 1 := by decide

theorem test_witness_StatusReadReturnsAndClearsF :
    requesting.fault = none ∧ requesting.cfg.vdpDataPort ≠ requesting.cfg.vdpCtrlPort ∧ requesting.flagF = true
    ∧ ioReadRow .vdpStatusRd requesting.cfg.vdpCtrlPort ∧ ioReadRow .vdpStatusRdDbg dbg.cfg.vdpCtrlPort
    ∧ ioReadRow .vdpDataRd swapped.cfg.vdpCtrlPort ∧ ioReadRow .vdpDataRdDbg swappedDbg.cfg.vdpCtrlPort
    ∧ ioReadRow (.unmappedRead 0x21) elsewhere.cfg.vdpCtrlPort := by decide

theorem test_witness_PointerCountsDataAccesses :
    start.fault = none
    ∧ ∀ i ∈ [Instr.vdpDataRd, .vdpDataWr 0xFF],
        ioReadRow i start.cfg.vdpDataPort ∨ ∃ v, ioWriteRow i start.cfg.vdpDataPort v :=
  ⟨rfl, fun i h => by
    rcases List.mem_pair.mp h with rfl | rfl
    · exact .inl (.inl ⟨rfl, rfl⟩)
    · exact .inr ⟨_, .inl ⟨rfl, rfl⟩⟩⟩

theorem test_witness_InterruptOutputIsFAndIe :
    requesting.cfg.irqMode = .levelFAndIe ∧ requesting.vdpInt = true
    ∧ { Config.reference with irqMode := .off }.irqMode = .off := by decide

theorem test_witness_RasterAdvanceCompletesWholeRows :
    start.fault = none ∧ ¬ (start.cfg.variant = .debugger ∧ start.cfg.debuggerVideo = .never)
    ∧ { start with line := 261, accNs := 63499 }.rasterWf = true ∧ (0 : Rat) ≤ 0 ∧ (0 : Rat) ≤ 1 :=
  ⟨rfl, by decide, by decide +kernel, by decide +kernel, by decide +kernel⟩

theorem test_witness_RasterAdvanceRendersTheRowsItPasses :
    { start with line := 239 }.rasterWf = true ∧ (0 : Rat) ≤ 127000
    ∧ ∃ t, exec (.rasterAdvance 127000) { start with line := 239 } = .next t :=
  ⟨by decide +kernel, by decide +kernel, _, rfl⟩

theorem test_witness_RedrawRendersEveryRow : start.fault = none := rfl

theorem test_witness_UncoveredPixelsAreBackdrop :
    (spriteRegs 0x00)[1].toNat / 64 % 2 = 0 ∧ 23 < 24 ∧ 216 ≤ 216 ∧ (31 : Fin 320).val < 32 ∧ 288 ≤ (288 : Fin 320).val
    ∧ (spriteRegs 0x50)[1].toNat / 16 % 2 = 1 ∧ (39 : Fin 320).val < 40 ∧ 280 ≤ (280 : Fin 320).val := by decide

theorem test_witness_TextRowsShowGlyphs :
    239 < 240 ∧ 191 < 192 ∧ (spriteRegs 0x50)[1].toNat / 64 % 2 = 1 ∧ (spriteRegs 0x50)[1].toNat / 16 % 2 = 1 := by decide

theorem test_witness_ActiveRowsShowSpritesOverBackground :
    255 < 256 ∧ 191 < 192 ∧ (spriteRegs 0x40)[1].toNat / 64 % 2 = 1 ∧ (spriteRegs 0x40)[1].toNat / 16 % 2 = 0 := by decide

theorem test_witness_UnusedRegisterBitsChangeNoPixel :
    let r : Regs := #v[0x00, 0x40, 0x06, 0x80, 0x03, 0x36, 0x07, 0xF4]
    let r' : Regs := #v[0xFD, 0xE4, 0xF6, 0x80, 0xFB, 0xB6, 0xFF, 0xF4]
    let agree := fun (m a b : Byte) => a &&& m = b &&& m
    r ≠ r' ∧ agree 0x02 r[0] r'[0] ∧ agree 0x5B r[1] r'[1] ∧ agree 0x0F r[2] r'[2] ∧ r[3] = r'[3]
    ∧ agree 0x07 r[4] r'[4] ∧ agree 0x7F r[5] r'[5] ∧ agree 0x07 r[6] r'[6] ∧ r[7] = r'[7] := by decide

theorem test_witness_UartControlAndTransmit : start.fault = none := rfl

theorem test_witness_UartReceiveQueues : { start with rxqA := [0x41], rxqB := [] }.fault = none := rfl

theorem test_witness_CfRegisterReads :
    reading.fault = none ∧ reading.cfPresent = true ∧ reading.cfMode ≠ .idle ∧ start.cfPresent = false := by decide

theorem test_witness_CfRegisterWrites : reading.fault = none := rfl

theorem test_witness_CfCommandsSeekAndStage :
    attached.fault = none ∧ attached.cfPresent = true ∧ start.cfPresent = false ∧ (0x21 : Byte) ≠ 0x20
    ∧ (0x21 : Byte) ≠ 0x30 := by decide

theorem test_witness_CfDataReadStreamsTheImage :
    reading.fault = none ∧ reading.cfMode = .read ∧ reading.cfIoDrawFails = false
    ∧ reading.cfBase + reading.cfPos < reading.cfSize ∧ attached.cfMode ≠ .read := by decide

theorem test_witness_CfDataWriteReachesTheImageAtOnce :
    writing.fault = none ∧ Mem.wf writing.cfImage writing.cfSize = true ∧ writing.cfMode = .write
    ∧ writing.cfIoDrawFails = false ∧ writing.cfSize ≤ writing.cfBase + writing.cfPos ∧ attached.cfMode ≠ .write := by
  decide

theorem test_witness_CfSectorReadReturnsTheImage :
    let s := { attached with cfLba := #v[1, 0, 0, 0xE0] }
    s.fault = none ∧ s.cfPresent = true ∧ s.cfg.cfIoFaults = false ∧ lbaOffset s + 512 ≤ s.cfSize := by decide

theorem test_witness_CfAttachAndDetach :
    reading.fault = none ∧ Mem.wf [] 0 = true ∧ Mem.wf [(511, 0xFF)] 512 = true := by decide

theorem test_witness_GovernorStartAndStop :
    start.fault = none ∧ start.cfg.variant = .machine ∧ governed.govRunning = true ∧ dbg.cfg.variant = .debugger := by
  decide

theorem test_witness_GovIterationReachesItsTarget :
    governed.inv = true ∧ governed.cfg.admissible = true ∧ governed.cfg.variant = .machine
    ∧ governed.govRunning = true ∧ governed.fault = none := by decide +kernel

theorem test_witness_GovIterationWithNothingToRun :
    start.cfg.variant = .machine ∧ start.govRunning = false ∧ governed.govRunning = true ∧ governed.fault = none
    ∧ 0 ≤ governed.tstates ∧ failed.govRunning = true ∧ failed.fault ≠ none := by decide

theorem test_witness_GovIterationRunsItsInstructionsInOrder :
    governed.cfg.variant = .machine ∧ governed.govRunning = true ∧ governed.fault = none ∧ governed.tstates < 1 := by decide

theorem test_witness_DebuggerRunsOneInstruction :
    let c : CpuInstr := .runs none 0 [] 0
    { dbg with pending := [.debuggerInstr c false] }.pending = [.debuggerInstr c false]
    ∧ start.cfg.admissible = true ∧ start.cfg.variant = .machine
    ∧ dbg.cfg.admissible = true ∧ dbg.cfg.variant = .debugger ∧ dbg.fault = none ∧ dbg.cfg.debuggerVideo = .never
    ∧ failedDbg.cfg.admissible = true ∧ failedDbg.cfg.variant = .debugger ∧ failedDbg.fault = some .cpuCoreFailure
    ∧ dbgVideo.cfg.admissible = true ∧ dbgVideo.cfg.debuggerVideo = .perInstruction
    ∧ (cpuEffect dbgVideo c).fault = none ∧ (cpuEffect dbgVideo (.fails none none 0)).fault ≠ none := by decide

theorem test_witness_DebuggerNeverVideoFreezesTheRaster :
    dbg.cfg.variant = .debugger ∧ dbg.cfg.debuggerVideo = .never ∧ decode 0x0000000 {} ≠ .ok .reset
    ∧ (∃ t, step (asked dbg 0x0000000 {}) = .next t ∧ t.flagF = false)
    ∧ (∃ t, step (asked { dbg with status := 0x80 } 0x0000000 {}) = .next t ∧ t.flagF = true)
    ∧ decode 0x5000200 {} ≠ .ok .reset
    ∧ ∃ t, step (asked { dbg with reg := #v[0, 0, 0, 0, 0, 0, 0, 4] } 0x5000200 {}) = .next t ∧ t.fb ≠ dbg.fb :=
  ⟨rfl, rfl, by decide, ⟨_, rfl, by decide⟩, ⟨_, rfl, by decide⟩, by decide, _, rfl, fun h =>
    absurd (congrArg (fun fb : Vector Row 240 => fb[0][0]) h) (by decide +kernel)⟩

theorem test_witness_InterruptAcknowledgeReadsAFreeByte :
    { requesting with pending := [.intAck] }.pending = [.intAck] ∧ requesting.cfg.admissible = true
    ∧ requesting.fault = none ∧ requesting.vdpInt = true ∧ { requesting with status := 0 }.vdpInt = false
    ∧ failed.cfg.admissible = true ∧ failed.fault = some .cpuCoreFailure := by decide

theorem test_witness_ResetReinitialisesTheController : { reading with status := 0x80 }.fault = none := rfl

theorem test_witness_FaultLeavesOnlyTheHostReads :
    failed.fault = some .cpuCoreFailure ∧ failed.cfg.variant = .machine
    ∧ failedDbg.fault = some .cpuCoreFailure ∧ failedDbg.cfg.variant = .debugger ∧ failedDbg.cfg.debuggerVideo = .never
    ∧ wordKind (encode .govStart).1 = 5 ∧ wordKind (encode (.rasterAdvance 0)).1 = 5
    ∧ (wordKind (encode (.unmappedWrite 0xFF 0)).1).toNat ≤ 4 ∧ wordKind (encode .reset).1 = 5 := by decide

theorem test_witness_HostReadsReturnRawState : 239 < 240 ∧ 319 < 320 ∧ 240 ≤ 240 ∧ 320 ≤ 320 := by decide

theorem test_witness_HostWritesChangeOneByte :
    start.fault = none ∧ Mem.wf busStart.ram 65536 = true ∧ Mem.wf start.vram 16384 = true := by decide

end Sys2Proof.Tests
end

