-- ==== Sys2Proof/Proofs/BusMemoryReads.lean ====
section
/-! PROOFS. The bus memory reads (40_bus_memory R105, R106): what FETCH and MREAD answer and what they leave unchanged. -/

namespace Sys2Proof.Machine

/-- A unit's read that ends moves the counter and adds one reply; the unit's own state stays as the read left it. -/
theorem State.finishRead_eq (cost : Nat) (v : Byte) (s : State) :
    State.finishRead cost (v, s) = { s with tstates := s.tstates + cost, replies := s.replies ++ [.bus v] } := rfl

/-- FETCH completes without a fault, at 4 t-states (R105). -/
theorem exec_fetch {s : State} (a : Addr) (hf : s.fault = none) :
    exec (.fetch a) s = .next { s with tstates := s.tstates + 4, replies := s.replies ++ [.bus (s.readSel a)] } := by
  have completes : exec (.fetch a) s = .next (s.busFetch a) := busStep_ok (fun s => s.busFetch a) hf
  rw [completes, State.busFetch, State.finishRead_eq, tFetch]

/-- MREAD completes without a fault, at 3 t-states (R106). -/
theorem exec_mread {s : State} (a : Addr) (hf : s.fault = none) :
    exec (.mread a) s = .next { s with tstates := s.tstates + 3, replies := s.replies ++ [.bus (s.readSel a)] } := by
  have completes : exec (.mread a) s = .next (s.busMread a) := busStep_ok (fun s => s.busMread a) hf
  rw [completes, State.busMread, State.finishRead_eq, tMem]

/-- Settles O19: the words' fields are what the encoder put in, and both reads answer the selector's byte (R60). -/
theorem fetchAndReadReturnTheSelectedByte : Obligations.FetchAndReadReturnTheSelectedByte := by
  intro a s hf v
  have selected : s.readSel a = v := rfl
  refine ⟨wordKind_mkWord 0 a 0, wordAddr_mkWord 0 a 0, wordKind_mkWord 1 a 0, wordAddr_mkWord 1 a 0, ?_, ?_⟩
  · rw [exec_fetch a hf, selected]
  · rw [exec_mread a hf, selected]

end Sys2Proof.Machine
end

