-- ==== Sys2Proof/Proofs/VdpControlWrite.lean ====
section
/-! PROOFS. The writes of the VDP's control port (30_encoding R93, 42_vdp_ports R128): what each byte of a pair does, at
whatever port the configuration puts it. -/

namespace Sys2Proof.Machine

/-- The register a second byte selects, as a number: 0x88 to 0xFF fold onto R0 to R7 (R93). -/
theorem pairReg_toNat (v : Byte) : (pairReg v).toNat = v.toNat % 8 := by
  simp [pairReg]

/-- The pointer a pair sets, from the numbers of its bytes (R131). -/
theorem pairPtr_eq_ofNat (v f : Byte) : pairPtr v f = BitVec.ofNat 14 ((v.toNat * 256 + f.toNat) % 16384) := by
  rw [← pairPtr_toNat, BitVec.ofNat_toNat, BitVec.setWidth_eq]

/-- The dispatch hands a write of the control port to the latch pair, at the 4 t-states of an I/O cycle (R117). -/
theorem State.ioWrite_ctrlPort {s : State} (v : Byte) (hfix : s.cfg.vdpCtrlPort ∉ fixedPorts)
    (hne : s.cfg.vdpDataPort ≠ s.cfg.vdpCtrlPort) :
    s.ioWrite s.cfg.vdpCtrlPort v = (s.vdpCtrlWrite v).tick 4 := by
  rw [State.ioWrite, State.portWrite, portUnit_ctrl hfix hne, tIo]

/-- Settles O27: the row reaches the latch pair, whose three cases are a first byte, a register write and a pointer set. -/
theorem vdpControlWriteFollowsTheLatch : Obligations.VdpControlWriteFollowsTheLatch := by
  intro v i s hf hne hrow
  obtain ⟨word, completes, hfix⟩ := exec_ioWriteRow hf hrow
  rw [State.ioWrite_ctrlPort v hfix hne] at completes
  rw [word, completes]
  refine ⟨wordKind_mkWord _ _ _, wordPort_mkWord _ _ _, wordData_mkWord _ _ _, ?first, ?register, ?pointer⟩
  case first =>
    intro empty
    rw [State.vdpCtrlWrite_first v empty]
    rfl
  case register =>
    intro full bit7
    refine ⟨_, rfl, ?_⟩
    rw [State.vdpCtrlWrite_register full ((pairIsReg_iff v).mpr bit7)]
    refine ⟨rfl, fun k => ?_⟩
    rw [← pairReg_toNat]
    exact Regs.get_set3 s.reg (pairReg v) s.latchByte k
  case pointer =>
    intro full low
    have sets : pairIsReg v = false := by
      rw [← Bool.not_eq_true, pairIsReg_iff]
      omega
    rw [State.vdpCtrlWrite_pointer full sets, pairPtr_eq_ofNat]
    rfl

end Sys2Proof.Machine
end

