-- ==== Sys2Proof/Proofs/BusMemoryWrite.lean ====
section
/-! PROOFS. The bus memory write (40_bus_memory R107): where MWRITE puts its byte and what it leaves unchanged. -/

namespace Sys2Proof.Machine

/-- MWRITE completes without a fault, at 3 t-states; the selector decides whether main RAM takes the byte (R107, R62). -/
theorem exec_mwrite {s : State} (a : Addr) (v : Byte) (hf : s.fault = none) :
    exec (.mwrite a v) s = .next { s with
      ram := if s.paged = true ∨ s.cfg.romLen ≤ a.toNat ∨ s.cfg.writeUnderRom = .ram then Mem.write s.ram a.toNat v
             else s.ram,
      tstates := s.tstates + 3 } := by
  have completes : exec (.mwrite a v) s = .next (s.busMwrite a v) := busStep_ok (fun s => s.busMwrite a v) hf
  rw [completes, State.busMwrite, State.writeSel_eq, State.tick, tMem]

/-- Settles O20: the word's fields are what the encoder put in, and the selector either writes RAM at the one address
or, under the visible ROM with the write discarded, leaves RAM as it was (R62). -/
theorem memoryWriteGoesToRam : Obligations.MemoryWriteGoesToRam := by
  intro a v s hf hram
  refine ⟨wordKind_mkWord 2 a v, wordAddr_mkWord 2 a v, wordData_mkWord 2 a v, _, exec_mwrite a v hf, rfl, ?_⟩
  by_cases reaches : s.paged = true ∨ s.cfg.romLen ≤ a.toNat ∨ s.cfg.writeUnderRom = .ram
  · simp only [if_pos reaches]
    exact ⟨Mem.read_write_same hram a.toNat v, fun _ other => Mem.read_write_other s.ram a.toNat v other⟩
  · simp only [if_neg reaches, implies_true, and_self]

end Sys2Proof.Machine
end

