-- ==== Sys2Proof/Proofs/PagingPort.lean ====
section
/-! PROOFS. The writes of the paging port (41_io_dispatch R118, R119): their words and what they do to `paged`. -/

namespace Sys2Proof.Machine

/-- The high byte of a port's address field is ignored (R89, R115). -/
theorem decodedPort_append (high : Byte) (p : Port) : decodedPort (high ++ p) = p :=
  BitVec.extractLsb'_append_eq_right

/-- An IOWRITE word is the row of its decoded port and its data byte, whatever the rest of its address field (R88). -/
theorem decode_mkWord_iowrite (a : Addr) (v : Byte) (b : Beside) :
    decode (mkWord 4 a v) b = .ok (decodeWrite (decodedPort a) v) := by
  simp [decode, ← decodedPort_wordAddr]

/-- On the paging port the exact value 1 is its own row (R118). -/
theorem decodeWrite_page_one : decodeWrite 0x38#8 0x01 = .pageOn := rfl

/-- On the paging port every value but 1 is PAGE_OFF (R119). -/
theorem decodeWrite_page_other {v : Byte} (hv : v ≠ 0x01) : decodeWrite 0x38#8 v = .pageOff v := if_neg hv

/-- PAGE_ON completes without a fault, at the 4 t-states of an I/O cycle (R118). -/
theorem exec_pageOn {s : State} (hf : s.fault = none) :
    exec .pageOn s = .next { s with paged := true, tstates := s.tstates + 4 } :=
  busStep_ok (fun s => State.tick { s with paged := true } tIo) hf

/-- PAGE_OFF completes without a fault, at the 4 t-states of an I/O cycle; its byte no longer matters (R119). -/
theorem exec_pageOff {s : State} (v : Byte) (hf : s.fault = none) :
    exec (.pageOff v) s = .next { s with paged := false, tstates := s.tstates + 4 } :=
  busStep_ok (fun s => State.tick { s with paged := false } tIo) hf

/-- Settles O22: the word's port is its address field's low byte, the decoder sets the value 1 apart, and each row
writes the flag. -/
theorem pagingPortWrites : Obligations.PagingPortWrites := by
  intro v s hf
  refine ⟨fun high => ⟨?one, fun hv => ?other⟩, exec_pageOn hf, fun _ => exec_pageOff v hf⟩
  case one => rw [decode_mkWord_iowrite, decodedPort_append, decodeWrite_page_one]
  case other => rw [decode_mkWord_iowrite, decodedPort_append, decodeWrite_page_other hv]

end Sys2Proof.Machine
end

