-- ==== Sys2Proof/Proofs/VdpDataPort.lean ====
section
/-! PROOFS. The VDP's data port (42_vdp_ports R125, R126), at whatever port the configuration puts it: what a write
stores, what a read returns, and what each leaves unchanged. -/

namespace Sys2Proof.Machine

/-- The pointer's increment wraps at 16384 by the width of its field (R125, R126). -/
theorem ptr_add_one_eq_ofNat (p : BitVec 14) : p + 1 = BitVec.ofNat 14 ((p.toNat + 1) % 16384) := by
  apply BitVec.eq_of_toNat_eq
  simp

/-- The dispatch hands a write of the data port to the VDP, at the 4 t-states of an I/O cycle (R117). -/
theorem State.ioWrite_dataPort {s : State} (v : Byte) (hfix : s.cfg.vdpDataPort ∉ fixedPorts) :
    s.ioWrite s.cfg.vdpDataPort v = (s.vdpDataWrite v).tick 4 := by
  rw [State.ioWrite, State.portWrite, portUnit_data hfix, tIo]

/-- The dispatch takes a read of the data port from the VDP, in the same way (R116). -/
theorem State.ioRead_dataPort {s : State} (hfix : s.cfg.vdpDataPort ∉ fixedPorts) :
    s.ioRead s.cfg.vdpDataPort = State.finishRead 4 s.vdpDataRead := by
  rw [State.ioRead, State.portRead, portUnit_data hfix, tIo]

/-- Settles O25: the row reaches the VDP's data write, which stores at the old pointer and there alone. -/
theorem vdpDataWriteStoresAtThePointer : Obligations.VdpDataWriteStoresAtThePointer := by
  intro v i s hf hvram hrow
  obtain ⟨word, completes, hfix⟩ := exec_ioWriteRow hf hrow
  rw [State.ioWrite_dataPort v hfix] at completes
  rw [word, ← ptr_add_one_eq_ofNat]
  refine ⟨wordKind_mkWord _ _ _, wordPort_mkWord _ _ _, wordData_mkWord _ _ _, _, completes, rfl, ?stored, ?others⟩
  case stored => exact Mem.read_write_same hvram s.ptr.toNat v
  case others => exact fun _ other => Mem.read_write_other s.vram s.ptr.toNat v other

/-- Settles O26: the row reaches the VDP's data read, which returns the byte at the old pointer. -/
theorem vdpDataReadReturnsByteAtThePointer : Obligations.VdpDataReadReturnsByteAtThePointer := by
  intro i s hf hrow
  obtain ⟨word, completes, hfix⟩ := exec_ioReadRow hf hrow
  rw [State.ioRead_dataPort hfix, State.vdpDataRead, State.finishRead_eq] at completes
  rw [word, ← ptr_add_one_eq_ofNat]
  exact ⟨wordKind_mkWord _ _ _, wordPort_mkWord _ _ _, completes⟩

end Sys2Proof.Machine
end

