-- ==== Sys2Proof/Proofs/VdpStatusRead.lean ====
section
/-! PROOFS. The status read of the VDP's control port (42_vdp_ports R133): the byte it returns and the flag it clears, at
whatever port the configuration puts it. -/

namespace Sys2Proof.Machine

/-- The returned byte as a number: F has the weight 128 and the seven drawn bits stand below it. -/
theorem statusByte_toNat (f : Bool) (low : BitVec 7) :
    (statusByte f low).toNat = (if f then 128 else 0) + low.toNat := by
  have fits : low.toNat % 256 = low.toNat := Nat.mod_eq_of_lt (by omega)
  cases f with
  | false => simp [statusByte, fits]
  | true =>
    have disjoint : 128 + low.toNat = 128 ||| low.toNat := Nat.two_pow_add_eq_or_of_lt (i := 7) low.isLt 1
    simp [statusByte, fits, disjoint]

/-- Clearing F drops bit 7 and keeps every other bit. -/
theorem statusClearF_getLsbD (st : Byte) (k : Nat) :
    (statusClearF st).getLsbD k = if k = 7 then false else st.getLsbD k := by
  split
  case isTrue bit7 => rw [bit7, (statusClearF_keeps st).1]
  case isFalse other =>
    by_cases inByte : k < 8
    · have mask : ∀ j < 8, j ≠ 7 → (0x7F : Byte).getLsbD j = true := by decide
      rw [statusClearF, BitVec.getLsbD_and, mask k inByte other, Bool.and_true]
    · rw [BitVec.getLsbD_of_ge _ _ (by omega), BitVec.getLsbD_of_ge _ _ (by omega)]

/-- The dispatch takes a read of the control port from the VDP's status, at the 4 t-states of an I/O cycle (R116). -/
theorem State.ioRead_ctrlPort {s : State} (hfix : s.cfg.vdpCtrlPort ∉ fixedPorts)
    (hne : s.cfg.vdpDataPort ≠ s.cfg.vdpCtrlPort) :
    s.ioRead s.cfg.vdpCtrlPort = State.finishRead 4 s.vdpStatusRead := by
  rw [State.ioRead, State.portRead, portUnit_ctrl hfix hne, tIo]

/-- Settles O28: the row reaches the VDP's status read, whose byte holds F as it was before the clear. -/
theorem statusReadReturnsAndClearsF : Obligations.StatusReadReturnsAndClearsF := by
  intro i s hf hne hrow
  obtain ⟨word, completes, hfix⟩ := exec_ioReadRow hf hrow
  rw [State.ioRead_ctrlPort hfix hne] at completes
  rw [word]
  refine ⟨wordKind_mkWord _ _ _, wordPort_mkWord _ _ _, _, s.vdpStatusRead.1, completes, rfl, ?returned, ?cleared⟩
  case returned => exact statusByte_toNat s.flagF (Config.statusLow s.draws)
  case cleared => exact statusClearF_getLsbD s.status

end Sys2Proof.Machine
end

