-- ==== Sys2Proof/Proofs/RenderBackdrop.lean ====
section
/-! PROOFS. The canvas pixels no mode pixel and no sprite pixel covers (R152): the rows `RenderRow` leaves blank, and the
columns outside a mode's window, which the sprites, clipped to the window (R171), cannot reach. -/

namespace Sys2Proof.Machine

variable {r : Regs} {vram : Mem} {yoff y row : Nat} {c : Fin 320}

theorem backdropRow_get (r : Regs) (c : Fin 320) : (backdropRow r)[c] = r.backdrop :=
  Vector.getElem_replicate c.isLt

theorem windowRow_outside {left width : Nat} (f : Nat → Colour) (outside : c.val < left ∨ left + width ≤ c.val) :
    (windowRow r left width f)[c] = r.backdrop := by
  rw [windowRow_get, if_neg (by omega)]

/-- The sprites' clip (R171) seen from the border: painting any list of sprites leaves a border column as it was. -/
theorem paintSprites_border (border : c.val < 32 ∨ 288 ≤ c.val) (is : List Nat) (l : Row) :
    (is.foldl (paintSprite r vram yoff y) l)[c] = l[c] := by
  induction is generalizing l with
  | nil => rfl
  | cons i is ih => rw [List.foldl_cons, ih, paintSprite_get, if_neg (by omega)]

theorem spriteLayer_border (border : c.val < 32 ∨ 288 ≤ c.val) (l : Row) :
    (spriteLayer r vram yoff y l)[c] = l[c] :=
  paintSprites_border border _ l

/-- With the display disabled, and on the top and bottom border rows, the whole row is backdrop. -/
theorem rowPixels_blank (blank : r[1].toNat / 64 % 2 = 0 ∨ row < 24 ∨ 216 ≤ row) :
    rowPixels yoff r vram row = backdropRow r := by
  rw [rowPixels, Regs.displayOn_eq]
  rcases blank with off | borderRow
  · exact if_pos (by simp [off])
  · rw [if_pos borderRow, ite_self]

/-- Settles O34: a blank row is backdrop everywhere; an active one is a window over backdrop, TEXT's without sprites and
the tile modes' with sprites that stay inside it. -/
theorem uncoveredPixelsAreBackdrop : Obligations.UncoveredPixelsAreBackdrop := by
  intro yoff r vram row c uncovered
  rw [← Regs.backdrop_toNat]
  congr 1
  by_cases blank : r[1].toNat / 64 % 2 = 0 ∨ row < 24 ∨ 216 ≤ row
  case pos => rw [rowPixels_blank blank, backdropRow_get]
  case neg =>
    rw [rowPixels_active (by omega) (by omega)]
    by_cases text : r[1].toNat / 16 % 2 = 1
    case pos =>
      rw [if_pos text]
      exact windowRow_outside _ (by omega)
    case neg =>
      have border : c.val < 32 ∨ 288 ≤ c.val := by omega
      rw [if_neg text, spriteLayer_border border]
      split_ifs <;> exact windowRow_outside _ border

end Sys2Proof.Machine
end

