-- ==== Sys2Proof/Proofs/RedrawFrame.lean ====
section
/-! PROOFS. REDRAW_FRAME (R223): every canvas row comes from the current registers and VRAM, nothing else changes, and so
a second redraw stores the same pixels again. -/

namespace Sys2Proof.Machine

/-- Rendering the rows of a list gives each its pixels, in whatever order they come and however often, since no row's
pixels depend on the framebuffer. -/
theorem renderRows_fb (rows : List Nat) (s : State) (r : Fin 240) :
    (rows.foldl State.renderRow s).fb[r] =
      if r.val ∈ rows then rowPixels s.cfg.spriteYOffset s.reg s.vram r.val else s.fb[r] := by
  induction rows generalizing s with
  | nil => rfl
  | cons row rows ih =>
    rw [List.foldl_cons, ih]
    by_cases later : r.val ∈ rows
    · simp [later]
    · by_cases here : row = r.val
      · simp [here]
      · simp [later, here, Ne.symm here]

theorem State.redraw_fb (s : State) (r : Fin 240) :
    s.redraw.fb[r] = rowPixels s.cfg.spriteYOffset s.reg s.vram r.val := by
  have onCanvas : r.val ∈ List.range visibleRows := List.mem_range.mpr r.isLt
  rw [State.redraw, renderRows_fb, if_pos onCanvas]

theorem State.redraw_frame (s : State) : s.redraw = { s with fb := s.redraw.fb } := by
  obtain ⟨fb, onlyFb⟩ := s.redraw_eq
  rw [onlyFb]

/-- A redraw does not read the framebuffer it replaces. -/
theorem State.redraw_with_fb (s : State) (fb : Vector Row 240) : State.redraw { s with fb := fb } = s.redraw := by
  have samePixels : (State.redraw { s with fb := fb }).fb = s.redraw.fb := by
    refine Vector.ext fun i hi => ?_
    exact (State.redraw_fb { s with fb := fb } ⟨i, hi⟩).trans (State.redraw_fb s ⟨i, hi⟩).symm
  rw [State.redraw_frame { s with fb := fb }, samePixels, ← State.redraw_frame s]

theorem State.redraw_redraw (s : State) : s.redraw.redraw = s.redraw :=
  (congrArg State.redraw s.redraw_frame).trans (s.redraw_with_fb s.redraw.fb)

/-- REDRAW_FRAME completes with the redrawn state, unless the fault stands (R223, R229). -/
theorem exec_redrawFrame {s : State} (noFault : s.fault = none) : exec .redrawFrame s = .next s.redraw :=
  hostStep_ok State.redraw noFault

/-- Settles O33: the redrawn state shows every row's pixels, and redrawing it changes nothing. -/
theorem redrawRendersEveryRow : Obligations.RedrawRendersEveryRow := by
  intro s noFault
  have stillNoFault : s.redraw.fault = none := by rw [s.redraw_frame]; exact noFault
  have again : exec .redrawFrame s.redraw = .next s.redraw := by
    rw [exec_redrawFrame stillNoFault, s.redraw_redraw]
  exact ⟨rfl, s.redraw, exec_redrawFrame noFault, s.redraw_frame, s.redraw_fb, again⟩

end Sys2Proof.Machine
end

