-- ==== Sys2Proof/Proofs/Encoding.lean ====
section
/-! PROOFS. The decoder and the encoder (30_encoding R84 to R90): each well-formed row decodes back from its own word,
a decoded row keeps the fields its row uses, and exactly the listed words are rows. -/

namespace Sys2Proof

/-! ### What decodes, by kind -/

/-- The row a word decodes to, by its kind (R85, R88). -/
theorem decode_cases {w : Word} {b : Beside} {i : Instr} (h : decode w b = .ok i) : wordPad w = 0 ∧
    ((wordKind w = 0 ∧ i = .fetch (wordAddr w)) ∨ (wordKind w = 1 ∧ i = .mread (wordAddr w))
      ∨ (wordKind w = 2 ∧ i = .mwrite (wordAddr w) (wordData w)) ∨ (wordKind w = 3 ∧ i = decodeRead (wordPort w))
      ∨ (wordKind w = 4 ∧ i = decodeWrite (wordPort w) (wordData w))
      ∨ (wordKind w = 5 ∧ decodeOp (wordAddr w) (wordData w) b = .ok i)) := by
  unfold decode at h
  split_ifs at h with pad k0 k1 k2 k3 k4 k5 <;> simp_all [eq_comm]

/-- A K = 5 word without padding decodes as its op code does (R87). -/
theorem decode_op {w : Word} (b : Beside) (pad : wordPad w = 0) (kind : wordKind w = 5) :
    decode w b = decodeOp (wordAddr w) (wordData w) b := by
  simp [decode, pad, kind]

/-! ### Decoding an instruction's own word -/

theorem decode_encode_read {i : Instr} {p : Port} (word : encode i = readWord p) (row : decodeRead p = i) :
    decode (encode i).1 (encode i).2 = .ok i := by
  rw [word, decode_readWord, row]

theorem decode_encode_write {i : Instr} {p : Port} {v : Byte} (word : encode i = writeWord p v)
    (row : decodeWrite p v = i) : decode (encode i).1 (encode i).2 = .ok i := by
  rw [word, decode_writeWord, row]

theorem decode_encode_op {i : Instr} {a : Addr} {v : Byte} {b : Beside} (word : encode i = opWord a v b)
    (row : decodeOp a v b = .ok i) : decode (encode i).1 (encode i).2 = .ok i := by
  rw [word, decode_opWord, opWord_beside, row]

/-- A command other than the two transfers has a row of its own (R204). -/
theorem decodeWrite_command_other {v : Byte} (notRead : v ≠ 0x20) (notWrite : v ≠ 0x30) :
    decodeWrite 0x17 v = .cfCmdOther v :=
  (if_neg notRead).trans (if_neg notWrite)

/-- A port without a row of its own reads through the unmapped row (R121). -/
theorem decodeRead_unmapped {p : Port} (h : p ∉ readPorts) : decodeRead p = .unmappedRead p := by
  simp [readPorts] at h
  simp [decodeRead, h]

/-- A port without a row of its own is written through the unmapped row (R122). -/
theorem decodeWrite_unmapped {p : Port} (v : Byte) (h : p ∉ writePorts) : decodeWrite p v = .unmappedWrite p v := by
  simp [writePorts] at h
  simp [decodeWrite, h]

/-- Settles O1: every row's word has the row's kind and operands; only the rows whose byte or port the encoding leaves
to a more specific row need their well-formedness. -/
theorem decodeOfEncodeIsIdentity : Obligations.DecodeOfEncodeIsIdentity := by
  intro i wf
  cases i with
  | fetch a | mread a => simp [encode, decode]
  | mwrite a v => simp [encode, decode]
  | cfDataRd | cfErrRd | cfCountRd | cfLba0Rd | cfLba1Rd | cfLba2Rd | cfLba3Rd | cfStatusRd | pageRd | uartACtrlRd
  | uartADataRd | uartBCtrlRd | uartBDataRd | vdpDataRd | vdpStatusRd | vdpDataRdDbg | vdpStatusRdDbg =>
    exact decode_encode_read rfl rfl
  | cfDataWr v | cfFeatWr v | cfCountWr v | cfLba0Wr v | cfLba1Wr v | cfLba2Wr v | cfLba3Wr v | uartACtrlWr v
  | uartADataWr v | uartBCtrlWr v | uartBDataWr v | vdpDataWr v | vdpCtrlWr v | vdpDataWrDbg v | vdpCtrlWrDbg v =>
    exact decode_encode_write rfl rfl
  | cfCmdRead | cfCmdWrite | pageOn => exact decode_encode_write rfl rfl
  | cfCmdOther v =>
    obtain ⟨notRead, notWrite⟩ : v ≠ 0x20 ∧ v ≠ 0x30 := by simpa [Instr.wf] using wf
    exact decode_encode_write rfl (decodeWrite_command_other notRead notWrite)
  | pageOff v => exact decode_encode_write rfl (Machine.decodeWrite_page_other (of_decide_eq_true wf))
  | unmappedRead p => exact decode_encode_read rfl (decodeRead_unmapped (of_decide_eq_true wf))
  | unmappedWrite p v => exact decode_encode_write rfl (decodeWrite_unmapped v (of_decide_eq_true wf))
  | rasterAdvance _ | redrawFrame | reset | govIteration _ _ | govStop | govStart | hostRamRead _ | hostRamWrite _ _
  | hostVramRead _ | hostVramWrite _ _ | hostRegRead _ | hostRegWrite _ _ | hostFbRead _ _ | uartRxPushA _
  | uartRxPushB _ | cfAttach _ _ | cfDetach =>
    exact decode_encode_op rfl rfl

/-! ### The fields a decoded row keeps -/

/-- The K = 5 rows that carry an argument byte are encoded with it (R87). -/
theorem encode_decodeOp_data {a : Addr} {v : Byte} {b : Beside} {i : Instr} (h : decodeOp a v b = .ok i)
    (carries : a.toNat ∈ [0x11, 0x13, 0x15, 0x20, 0x21]) : wordData (encode i).1 = v := by
  have listed : a = 0x11 ∨ a = 0x13 ∨ a = 0x15 ∨ a = 0x20 ∨ a = 0x21 := by
    simpa [← BitVec.toNat_inj] using carries
  rcases listed with rfl | rfl | rfl | rfl | rfl <;> obtain rfl := Except.ok.inj h <;> exact wordData_mkWord _ _ _

/-- Settles O2: by the kind of the word; a port row keeps its port and byte, a K = 5 row its op code and argument. -/
theorem decodeKeepsKindAddressAndData : Obligations.DecodeKeepsKindAddressAndData := by
  intro w b i h
  obtain ⟨pad, ⟨k, rfl⟩ | ⟨k, rfl⟩ | ⟨k, rfl⟩ | ⟨k, rfl⟩ | ⟨k, rfl⟩ | ⟨k, op⟩⟩ := decode_cases h
  · simp [pad, k, encode]
  · simp [pad, k, encode]
  · simp [pad, k, encode]
  · simp [pad, k, encode_decodeRead, readWord]
  · simp [pad, k, encode_decodeWrite, writeWord]
  · obtain ⟨d, b', word⟩ := encode_decodeOp op
    refine ⟨pad, by simp [word, opWord, k], fun _ => by simp [word, opWord], ?port, ?data⟩
    case port => simp [k]
    case data =>
      intro uses
      have carries : (wordAddr w).toNat ∈ [0x11, 0x13, 0x15, 0x20, 0x21] := by simpa [k] using uses
      exact encode_decodeOp_data op carries

/-! ### Which words are rows -/

/-- The listed op codes are exactly the ones with a row (R87, R90). -/
theorem decodeOp_accepts_iff (a : Addr) (v : Byte) (b : Beside) : (∃ i, decodeOp a v b = .ok i) ↔ a.toNat ∈
    [0x01, 0x02, 0x03, 0x04, 0x05, 0x06, 0x10, 0x11, 0x12, 0x13, 0x14, 0x15, 0x16, 0x20, 0x21, 0x30, 0x31] := by
  constructor
  · rintro ⟨i, h⟩
    unfold decodeOp at h
    iterate 17
      rcases ok_of_ite h with ⟨rfl, -⟩ | h
      · decide
    cases h
  · intro listed
    simp only [List.mem_cons, List.not_mem_nil, or_false] at listed
    have code : ∀ {n}, a.toNat = n → a = BitVec.ofNat 16 n := fun h => by rw [← h]; simp
    rcases listed with n | n | n | n | n | n | n | n | n | n | n | n | n | n | n | n | n <;>
      obtain rfl := code n <;> exact ⟨_, rfl⟩

/-- Settles O3: kinds 0 to 4 always decode, kind 5 as its op code does, and kinds 6 and 7 never. -/
theorem decodeAcceptsExactlyTheListedWords : Obligations.DecodeAcceptsExactlyTheListedWords := by
  intro w b
  constructor
  · rintro ⟨i, h⟩
    obtain ⟨pad, row⟩ := decode_cases h
    refine ⟨pad, ?_⟩
    rcases row with ⟨k, -⟩ | ⟨k, -⟩ | ⟨k, -⟩ | ⟨k, -⟩ | ⟨k, -⟩ | ⟨k, op⟩
    iterate 5 exact .inl (by rw [k]; decide)
    exact .inr ⟨k, (decodeOp_accepts_iff _ _ b).mp ⟨i, op⟩⟩
  · rintro ⟨pad, low | ⟨k, listed⟩⟩
    · rcases kind_cases (wordKind w) with k | k | k | k | k | k | k | k <;> simp [k] at low <;> simp [decode, pad, k]
    · rw [decode_op b pad k]
      exact (decodeOp_accepts_iff _ _ b).mpr listed

/-- Settles O4: each word is decoded by evaluation. -/
theorem specWordsDecodeToTheirRows : Obligations.SpecWordsDecodeToTheirRows := by
  refine ⟨?_, ?_, ?_, ?_, ?_, ?_, ?_, ?_, ?_, ?_⟩ <;> rfl

end Sys2Proof
end

