-- ==== Sys2Proof/Proofs/Requests.lean ====
section
/-! PROOFS. How a step serves its next request (00_scope R8, R14; 20_memory R72, R73; 30_encoding R90): what runs, what
is refused before any meaning, and which configurations are admitted. -/

namespace Sys2Proof.Machine

/-- A step serves the request at the head of the queue, on the state without it (R72). -/
theorem step_request {s : State} {r : Request} {rest : List Request} (next : s.pending = r :: rest) :
    step s = serve r { s with pending := rest } := by
  rw [step, next]

/-- In an admitted configuration a step that is asked for a word serves the word (R8). -/
theorem step_word {s : State} {w : Word} {b : Beside} {locked : Bool} {rest : List Request}
    (next : s.pending = .word w b locked :: rest) (admitted : s.cfg.admissible = true) :
    step s = serveWord w b locked { s with pending := rest } := by
  rw [step_request next, serve, if_neg (by simp [admitted])]

/-- A reserved word is refused under its own name (R90). -/
theorem serveWord_reject {w : Word} {b : Beside} {e : Reject} (h : decode w b = .error e) (locked : Bool) (s : State) :
    serveWord w b locked s = .refused (refusalOf e) := by
  rw [serveWord, h]

/-- A K = 5 operation without the bus lock is refused (R73). -/
theorem serveWord_unlocked {w : Word} {b : Beside} {i : Instr} (h : decode w b = .ok i) (op : wordKind w = 5)
    (s : State) : serveWord w b false s = .refused .lockNotHeld := by
  simp [serveWord, h, op]

/-- A well-formed instruction with the lock it needs runs. -/
theorem serveWord_runs {w : Word} {b : Beside} {locked : Bool} {i : Instr} (h : decode w b = .ok i)
    (wf : i.wf = true) (lock : wordKind w = 5 → locked = true) (s : State) : serveWord w b locked s = exec i s := by
  have held : ¬ (wordKind w = 5 ∧ locked = false) := fun ⟨op, unlocked⟩ => by simp [lock op] at unlocked
  simp only [serveWord, h, if_neg held, if_pos wf]

/-- Settles O5: the next request is the word, and none of the checks before its meaning refuses it. -/
theorem stepRunsTheDecodedInstruction : Obligations.StepRunsTheDecodedInstruction := by
  intro s w b locked rest i next admitted decodes wf lock
  rw [step_word next admitted, serveWord_runs decodes wf lock]

/-- Settles O6: the checks before any meaning, in the order in which the step makes them. -/
theorem stepRefusesWhatIsNotAdmitted : Obligations.StepRefusesWhatIsNotAdmitted := by
  intro s w b locked rest
  refine ⟨?rests, ?inadmissible, fun next admitted => ?word⟩
  case rests => exact fun idle => by rw [step, idle]
  case inadmissible =>
    intro asked inadmissible
    obtain ⟨r, rest', next⟩ := List.exists_cons_of_ne_nil asked
    simp [step_request next, serve, inadmissible]
  case word =>
    rw [step_word next admitted]
    refine ⟨fun h => serveWord_reject h locked _, fun h => serveWord_reject h locked _, ?_⟩
    rintro ⟨i, decodes⟩ op rfl
    exact serveWord_unlocked decodes op _

/-- The ports of the map that are not configurable, by number (R86). -/
theorem mem_fixedPorts_iff (p : Port) : p ∈ fixedPorts ↔
    (0x10 ≤ p.toNat ∧ p.toNat ≤ 0x17) ∨ p.toNat = 0x38 ∨ (0x80 ≤ p.toNat ∧ p.toNat ≤ 0x83) := by
  revert p
  decide

/-- Settles O7: the fixed ports are distinct already, so only the two VDP ports are to be checked (R8). -/
theorem admittedConfigurationsHaveDistinctPorts : Obligations.AdmittedConfigurationsHaveDistinctPorts := by
  intro c clock
  have checks : c.admissible = true ↔ c.vdpDataPort ≠ c.vdpCtrlPort ∧ c.romLen ≤ 16384
      ∧ c.vdpDataPort ∉ fixedPorts ∧ c.vdpCtrlPort ∉ fixedPorts := by
    have := Rat.num_nonneg.mpr clock
    simp only [Config.admissible, Bool.and_eq_true, decide_eq_true_eq]
    tauto
  simp only [checks, mem_fixedPorts_iff, forall_eq_or_imp, forall_eq, not_or]

end Sys2Proof.Machine
end

