-- ==== Sys2Proof/Proofs/TransactionRows.lean ====
section
/-! PROOFS. The rows of K = 0 to 4 as bus transactions (41_io_dispatch R115 to R124; 30_encoding R85): a row does what
the dispatch does with the transaction of its word, costs what its kind costs, and moves no raster. -/

namespace Sys2Proof.Machine

/-! ### A port's rows and the dispatch -/

theorem exec_ite {c : Prop} [Decidable c] {i j : Instr} {s : State} {r : Result} (hi : c → exec i s = r)
    (hj : ¬c → exec j s = r) : exec (if c then i else j) s = r := by
  by_cases h : c
  · rw [if_pos h, hi h]
  · rw [if_neg h, hj h]

/-- A port's IOREAD row is the dispatch's read of that port (R116). -/
theorem exec_decodeRead (p : Port) (s : State) : exec (decodeRead p) s = busStep s fun s => s.ioRead p := by
  unfold decodeRead
  iterate 17 refine exec_ite (by rintro rfl; rfl) fun _ => ?_
  rfl

/-- A command without a meaning leaves the task file alone (R204). -/
theorem State.cfCommand_other {v : Byte} (notRead : v ≠ 0x20) (notWrite : v ≠ 0x30) (s : State) :
    s.cfCommand v = s := by
  rw [State.cfCommand, if_neg notRead, if_neg notWrite]

/-- A byte other than 1 enables the ROM (R119). -/
theorem State.pageWrite_other {v : Byte} (h : v ≠ 0x01) (s : State) : s.pageWrite v = { s with paged := false } := by
  rw [State.pageWrite, decide_eq_false h]

/-- The commands of the task file are the dispatch's writes of its port (R117, R204). -/
theorem exec_decodeWrite_command (v : Byte) (s : State) :
    exec (decodeWrite 0x17 v) s = busStep s fun s => s.ioWrite 0x17 v := by
  show exec (if v = 0x20 then .cfCmdRead else if v = 0x30 then .cfCmdWrite else .cfCmdOther v) s = _
  refine exec_ite (by rintro rfl; rfl) fun notRead => exec_ite (by rintro rfl; rfl) fun notWrite => ?_
  have noEffect : (fun s : State => s.ioWrite 0x17 v) = fun s => s.tick tIo :=
    funext fun s => congrArg (State.tick · tIo) (s.cfCommand_other notRead notWrite)
  rw [noEffect]
  rfl

/-- The paging rows are the dispatch's writes of the paging port (R117, R118, R119). -/
theorem exec_decodeWrite_page (v : Byte) (s : State) :
    exec (decodeWrite 0x38 v) s = busStep s fun s => s.ioWrite 0x38 v := by
  show exec (if v = 0x01 then .pageOn else .pageOff v) s = _
  refine exec_ite (by rintro rfl; rfl) fun other => ?_
  have clears : (fun s : State => s.ioWrite 0x38 v) = fun s => State.tick { s with paged := false } tIo :=
    funext fun s => congrArg (State.tick · tIo) (s.pageWrite_other other)
  rw [clears]
  rfl

/-- A port's IOWRITE row is the dispatch's write of that byte to that port (R117). -/
theorem exec_decodeWrite (p : Port) (v : Byte) (s : State) :
    exec (decodeWrite p v) s = busStep s fun s => s.ioWrite p v := by
  by_cases command : p = 0x17
  · rw [command, exec_decodeWrite_command]
  by_cases page : p = 0x38
  · rw [page, exec_decodeWrite_page]
  unfold decodeWrite
  iterate 7 refine exec_ite (by rintro rfl; rfl) fun _ => ?_
  refine exec_ite (fun h => absurd h command) fun _ => exec_ite (fun h => absurd h page) fun _ => ?_
  iterate 8 refine exec_ite (by rintro rfl; rfl) fun _ => ?_
  rfl

/-! ### Rows as transactions -/

/-- A decoded row of K = 0 to 4 is the transaction its word carries. -/
theorem exec_of_decode {w : Word} {b : Beside} {i : Instr} (bus : (wordKind w).toNat ≤ 4) (h : decode w b = .ok i)
    (s : State) : exec i s = busStep s fun s => s.busTxn (txnOfWord w) := by
  obtain ⟨-, ⟨k, rfl⟩ | ⟨k, rfl⟩ | ⟨k, rfl⟩ | ⟨k, rfl⟩ | ⟨k, rfl⟩ | ⟨k, -⟩⟩ := decode_cases h
  · simp only [txnOfWord, k]; rfl
  · simp only [txnOfWord, k]; rfl
  · simp only [txnOfWord, k]; rfl
  · rw [exec_decodeRead, ← decodedPort_wordAddr]
    simp only [txnOfWord, k]
    rfl
  · rw [exec_decodeWrite, ← decodedPort_wordAddr]
    simp only [txnOfWord, k]
    rfl
  · simp [k] at bus

/-- Settles O18: the dispatch follows the configuration by itself, admitted or not. -/
theorem tableRowsAgreeWithThePortDispatch : Obligations.TableRowsAgreeWithThePortDispatch :=
  fun _ _ _ s bus decodes _ => exec_of_decode bus decodes s

/-- A well-formed row of K = 0 to 4 is the transaction its own word carries. -/
theorem exec_eq_busTxn {i : Instr} (wf : i.wf = true) (bus : (wordKind (encode i).1).toNat ≤ 4) (s : State) :
    exec i s = busStep s fun s => s.busTxn (txnOfWord (encode i).1) :=
  exec_of_decode bus (decodeOfEncodeIsIdentity i wf) s

/-- The cost of a word's transaction is the cost of its kind (R85). -/
theorem txnCost_txnOfWord {w : Word} (bus : (wordKind w).toNat ≤ 4) :
    txnCost (txnOfWord w) = kindCost (wordKind w) := by
  unfold txnOfWord kindCost
  generalize (wordKind w).toNat = n at bus
  interval_cases n <;> rfl

/-- Any row of K = 0 to 4, well formed or not, is a transaction of its kind's cost. An ill-formed one is a write that
its port ignores, a write that clears the paging flag, or the dispatch of a port that has a row of its own. -/
theorem exec_is_txn {i : Instr} (bus : (wordKind (encode i).1).toNat ≤ 4) : ∃ x : Txn,
    txnCost x = kindCost (wordKind (encode i).1) ∧ ∀ s, exec i s = busStep s fun s => s.busTxn x := by
  by_cases wf : i.wf = true
  · exact ⟨txnOfWord (encode i).1, txnCost_txnOfWord bus, exec_eq_busTxn wf bus⟩
  · cases i
    case cfCmdOther v => exact ⟨.iowrite 0x17 0, by simp [encode, writeWord, txnCost, kindCost], fun _ => rfl⟩
    case pageOff v => exact ⟨.iowrite 0x38 0, by simp [encode, writeWord, txnCost, kindCost], fun _ => rfl⟩
    case unmappedRead p =>
      refine ⟨.ioread (0#8 ++ p), by simp [encode, readWord, txnCost, kindCost], fun s => ?_⟩
      simp only [State.busTxn, decodedPort_append]
      rfl
    case unmappedWrite p v =>
      refine ⟨.iowrite (0#8 ++ p) v, by simp [encode, writeWord, txnCost, kindCost], fun s => ?_⟩
      simp only [State.busTxn, decodedPort_append]
      rfl
    case rasterAdvance dns => exact absurd bus (by simp [encode, opWord])
    case cfAttach image size => exact absurd bus (by simp [encode, opWord])
    all_goals exact absurd rfl wf

/-! ### The raster under transactions -/

/-- Settles O16: the frame of a run of transactions says it, its new events holding no Vsync. -/
theorem cpuTransactionsDoNotMoveTheRaster : Obligations.CpuTransactionsDoNotMoveTheRaster := by
  intro ts s t
  have frame : BusFrame s t := State.busTxns_frame ts s
  obtain ⟨more, grown, noVsync⟩ := frame.events
  refine ⟨frame.line, frame.accNs, frame.fb, frame.govMark, ?_, frame.flagF⟩
  rw [grown, List.count_append, List.count_eq_zero.mpr noVsync, Nat.add_zero]

end Sys2Proof.Machine
end

