-- ==== Sys2Proof/Proofs/WholeSteps.lean ====
section
/-! PROOFS. What every step keeps: the invariant, the configuration and the ROM, the histories and the recorded fault
(10_state sections 2 to 6; 60_exceptions R229). Every instruction's outcomes are said once, in `Completes`, and each
rule is a case analysis of them. -/

namespace Sys2Proof.Machine

/-! ### What an instruction that completes has done -/

/-- The next states an instruction can answer: a row of K = 0 to 4 is a transaction, and a K = 5 row has an outcome of
its own. Each constructor holds what the row's completion says about the state before. -/
inductive Completes (s : State) : Instr → State → Prop
  | txn {i : Instr} (x : Txn) (bus : (wordKind (encode i).1).toNat ≤ 4)
      (cost : txnCost x = kindCost (wordKind (encode i).1)) : Completes s i (s.busTxn x)
  | rasterAdvance (dns : Rat) (issued : ¬ (s.cfg.variant = .debugger ∧ s.cfg.debuggerVideo = .never)) :
      Completes s (.rasterAdvance dns) (s.rasterAdvance dns)
  | redrawFrame : Completes s .redrawFrame s.redraw
  | reset : Completes s .reset s.resetOp
  | govIteration (target : Nat) (cpu : List CpuInstr) (machine : s.cfg.variant ≠ .debugger) :
      Completes s (.govIteration target cpu) (s.govIteration target cpu)
  | govStop : Completes s .govStop (State.cfClose { s with govRunning := false })
  | govStartAgain : Completes s .govStart s
  | govStart : Completes s .govStart { s with govRunning := true, govMark := s.tstates }
  | hostRead {i : Instr} (op : wordKind (encode i).1 = 5) (r : Reply) : Completes s i (s.reply r)
  | hostRamWrite (a : Addr) (v : Byte) : Completes s (.hostRamWrite a v) { s with ram := Mem.write s.ram a.toNat v }
  | hostVramWrite (a : VAddr) (v : Byte) :
      Completes s (.hostVramWrite a v) { s with vram := Mem.write s.vram a.toNat v }
  | hostRegWrite (k : BitVec 3) (v : Byte) : Completes s (.hostRegWrite k v) { s with reg := Regs.set3 s.reg k v }
  | uartRxPushA (v : Byte) : Completes s (.uartRxPushA v) (s.uartPush .a v)
  | uartRxPushB (v : Byte) : Completes s (.uartRxPushB v) (s.uartPush .b v)
  | cfAttach (image : List Host.Cell) (size : Nat) : Completes s (.cfAttach image size) (s.cfOpen image size)
  | cfDetach : Completes s .cfDetach s.cfClose

/-- A row that hands its effect to `hostStep` completes with that effect alone. -/
theorem Completes.of_hostStep {s t : State} {i : Instr} {k : State → State} (done : Completes s i (k s))
    (row : exec i s = hostStep s k) (h : exec i s = .next t) : Completes s i t := by
  rw [row] at h
  obtain ⟨-, rfl⟩ := hostStep_next.mp h
  exact done

theorem exec_completes {i : Instr} {s t : State} (h : exec i s = .next t) : Completes s i t := by
  by_cases bus : (wordKind (encode i).1).toNat ≤ 4
  · obtain ⟨x, cost, row⟩ := exec_is_txn bus
    rw [row s] at h
    obtain ⟨-, rfl⟩ := busStep_next.mp h
    exact .txn x bus cost
  cases i
  case rasterAdvance dns =>
    simp only [exec, execRasterAdvance] at h
    split_ifs at h with never
    obtain ⟨-, rfl⟩ := hostStep_next.mp h
    exact .rasterAdvance dns never
  case redrawFrame => exact .of_hostStep .redrawFrame rfl h
  case reset => exact .of_hostStep .reset rfl h
  case govIteration target cpu =>
    simp only [exec, execGovIteration] at h
    split_ifs at h with variant
    obtain rfl := Host.Outcome.next.inj h
    exact .govIteration target cpu variant
  case govStop =>
    simp only [exec, execGovStop] at h
    split_ifs at h
    obtain ⟨-, rfl⟩ := hostStep_next.mp h
    exact .govStop
  case govStart =>
    simp only [exec, execGovStart] at h
    split_ifs at h
    obtain ⟨-, rfl⟩ := hostStep_next.mp h
    split_ifs
    · exact .govStartAgain
    · exact .govStart
  case hostRamRead a =>
    simp only [exec, execHostRamRead, Host.Outcome.next.injEq] at h
    subst h
    exact .hostRead (by simp [encode, opWord]) _
  case hostVramRead a =>
    simp only [exec, execHostVramRead, Host.Outcome.next.injEq] at h
    subst h
    exact .hostRead (by simp [encode, opWord]) _
  case hostRegRead k =>
    simp only [exec, execHostRegRead, Host.Outcome.next.injEq] at h
    subst h
    exact .hostRead (by simp [encode, opWord]) _
  case hostFbRead r c =>
    simp only [exec, execHostFbRead] at h
    split at h
    · obtain rfl := Host.Outcome.next.inj h
      exact .hostRead (by simp [encode, opWord]) _
    · cases h
  case hostRamWrite a v => exact .of_hostStep (.hostRamWrite a v) (by rfl) h
  case hostVramWrite a v => exact .of_hostStep (.hostVramWrite a v) (by rfl) h
  case hostRegWrite k v => exact .of_hostStep (.hostRegWrite k v) (by rfl) h
  case uartRxPushA v => exact .of_hostStep (.uartRxPushA v) (by rfl) h
  case uartRxPushB v => exact .of_hostStep (.uartRxPushB v) (by rfl) h
  case cfAttach image size => exact .of_hostStep (.cfAttach image size) (by rfl) h
  case cfDetach => exact .of_hostStep .cfDetach rfl h
  all_goals exact absurd (by simp [encode, readWord, writeWord]) bus

/-- What no advance of the raster touches (R138, R148). -/
theorem State.rasterAdvance_frame (s : State) (dns : Rat) : ∃ k x, s.rasterAdvance dns =
    { s with fb := (s.rowSteps k).fb, line := (s.rowSteps k).line, status := (s.rowSteps k).status,
             events := (s.rowSteps k).events, accNs := x } := by
  obtain ⟨k, x, rows⟩ := s.rasterAdvance_rows dns
  exact ⟨k, x, by rw [rows, State.rowSteps_frame]⟩

/-! ### The invariant -/

/-- RESET keeps the stores it does not clear and puts every counter at its start (R221). -/
theorem State.resetOp_inv {s : State} (h : s.inv = true) : s.resetOp.inv = true := by
  rw [State.inv_iff, State.storesWf_iff] at h
  obtain ⟨⟨ram, vram, image⟩, -⟩ := h
  rw [State.inv_iff, State.storesWf_iff, State.rasterWf_iff, State.cfWf_iff]
  refine ⟨⟨ram, ?vram, image⟩, ⟨?line, le_refl 0, VideoStd.rowNs_pos _⟩, ?cf, le_refl 0, ?status⟩
  case vram =>
    show Mem.wf (if _ then _ else _) _ = true
    split_ifs
    · exact Mem.wf_nil _
    · exact vram
  case line => exact Nat.lt_trans (Nat.zero_lt_succ 239) (VideoStd.totalRows_pos s.cfg.videoStd)
  case cf => exact ⟨(by decide : 0 < cfSector), .inr rfl, .inl rfl, rfl, (by decide : 0 < 2 ^ 37)⟩
  case status => exact (by decide : (0 : Byte) &&& 0x7F = 0)

/-- Without a transfer the task file is sound, whatever image it holds. -/
theorem State.cfWf_idle {s t : State} (h : s.cfWf = true) (mode : t.cfMode = .idle) (pos : t.cfPos = 0)
    (base : t.cfBase = s.cfBase) : t.cfWf = true := by
  rw [State.cfWf_iff] at h ⊢
  rw [pos, base]
  exact ⟨by decide, .inr rfl, .inl mode, h.2.2.2⟩

theorem State.cfClose_inv {s : State} (h : s.inv = true) : s.cfClose.inv = true := by
  rw [State.inv_iff] at h ⊢
  obtain ⟨stores, raster, cf, rest⟩ := h
  exact ⟨stores, raster, State.cfWf_idle cf rfl rfl rfl, rest⟩

theorem State.cfOpen_inv {s : State} (image : List Host.Cell) (size : Nat) (h : s.inv = true) :
    (s.cfOpen image size).inv = true := by
  rw [State.inv_iff, State.storesWf_iff] at h ⊢
  obtain ⟨⟨ram, vram, -⟩, raster, cf, rest⟩ := h
  exact ⟨⟨ram, vram, Mem.wf_ofCells size image⟩, raster, State.cfWf_idle cf rfl rfl rfl, rest⟩

theorem State.hostRamWrite_inv {s : State} (a : Addr) (v : Byte) (h : s.inv = true) :
    State.inv { s with ram := Mem.write s.ram a.toNat v } = true := by
  rw [State.inv_iff, State.storesWf_iff] at h ⊢
  obtain ⟨⟨ram, stores⟩, rest⟩ := h
  exact ⟨⟨Mem.wf_write v a.isLt ram, stores⟩, rest⟩

theorem State.hostVramWrite_inv {s : State} (a : VAddr) (v : Byte) (h : s.inv = true) :
    State.inv { s with vram := Mem.write s.vram a.toNat v } = true := by
  rw [State.inv_iff, State.storesWf_iff] at h ⊢
  obtain ⟨⟨ram, vram, image⟩, rest⟩ := h
  exact ⟨⟨ram, Mem.wf_write v a.isLt vram, image⟩, rest⟩

theorem State.govStart_inv {s : State} (h : s.inv = true) :
    State.inv { s with govRunning := true, govMark := s.tstates } = true := by
  rw [State.inv_iff] at h ⊢
  obtain ⟨stores, raster, cf, -, status⟩ := h
  exact ⟨stores, raster, cf, le_refl s.tstates, status⟩

/-- The end of a batch keeps the invariant, with or without its raster advance. -/
theorem State.endBatch_inv {s : State} (h : s.inv = true) (clock : 0 ≤ s.cfg.clockPeriodNs) :
    s.endBatch.inv = true := by
  by_cases noFault : s.fault = none
  · rw [State.endBatch_ok noFault]
    exact State.checkpoint_inv h clock
  · rw [State.endBatch_failed noFault]
    exact h

/-- The end of a batch of whole instructions keeps it too. -/
theorem CpuFrame.endBatch_inv {s t : State} (frame : CpuFrame s t) (h : s.inv = true)
    (admitted : s.cfg.admissible = true) : t.endBatch.inv = true := by
  have sameCfg : t.cfg = s.cfg := frame.bus.cfg
  exact State.endBatch_inv (frame.inv h) (by rw [sameCfg]; exact Config.admissible_clock admitted)

theorem State.debuggerInstr_inv {s : State} (c : CpuInstr) (h : s.inv = true) (admitted : s.cfg.admissible = true) :
    (s.debuggerInstr c).inv = true := by
  have frame := s.cpuInstruction_frame c
  unfold State.debuggerInstr
  cases s.cfg.debuggerVideo with
  | never => exact frame.inv h
  | perInstruction => exact frame.endBatch_inv h admitted

theorem Completes.inv {s t : State} {i : Instr} (c : Completes s i t) (wf : i.wf = true)
    (admitted : s.cfg.admissible = true) (h : s.inv = true) : t.inv = true := by
  cases c with
  | txn x => exact (s.busTxn_frame x).inv h
  | rasterAdvance dns => exact State.rasterAdvance_inv h (Rat.num_nonneg.mp (of_decide_eq_true wf))
  | redrawFrame =>
    obtain ⟨fb, onlyFb⟩ := s.redraw_eq
    rw [onlyFb]
    exact h
  | reset => exact State.resetOp_inv h
  | govIteration target cpu => exact (State.govLoop_frame target _ cpu s).endBatch_inv h admitted
  | govStop => exact State.cfClose_inv (s := { s with govRunning := false }) h
  | govStartAgain => exact h
  | govStart => exact State.govStart_inv h
  | hostRead => exact h
  | hostRamWrite a v => exact State.hostRamWrite_inv a v h
  | hostVramWrite a v => exact State.hostVramWrite_inv a v h
  | hostRegWrite => exact h
  | uartRxPushA v => exact (s.setRxq_frame .a _).inv h
  | uartRxPushB v => exact (s.setRxq_frame .b _).inv h
  | cfAttach image size => exact State.cfOpen_inv image size h
  | cfDetach => exact State.cfClose_inv h

/-- Settles O8: whichever request a step served, its unit keeps the invariant; the queue is no part of it. -/
theorem stepKeepsTheInvariant : Obligations.StepKeepsTheInvariant := by
  intro s t h step
  obtain ⟨-, rfl⟩ | ⟨r, rest, -, admitted, served⟩ := step_cases step
  · exact h
  have h' : State.inv { s with pending := rest } = true := h
  rcases served with ⟨w, b, l, i, -, -, -, wf, runs⟩ | ⟨c, -, -, -, rfl⟩ | ⟨-, -, -, rfl⟩
  · exact (exec_completes runs).inv wf admitted h'
  · exact State.debuggerInstr_inv c h' admitted
  · exact (State.intAckCycle_frame _).inv h'

/-- Settles O9: by evaluation, every store of the power-on state being empty. -/
theorem powerOnMeetsTheInvariant : Obligations.PowerOnMeetsTheInvariant := by
  rw [Obligations.PowerOnMeetsTheInvariant, State.inv_iff, State.rasterWf_iff]
  exact ⟨by decide, ⟨by decide, by decide, by decide⟩, by decide, by decide, by decide⟩

/-! ### The configuration, the ROM, the histories and the fault -/

/-- What every step keeps: the configuration and the ROM, the events and replies so far, and a recorded fault. -/
structure HistoryFrame (s t : State) : Prop where
  cfg : t.cfg = s.cfg
  rom : t.rom = s.rom
  events : ∃ more, t.events = s.events ++ more
  replies : ∃ more, t.replies = s.replies ++ more
  fault : s.fault ≠ none → t.fault = s.fault

theorem HistoryFrame.refl (s : State) : HistoryFrame s s :=
  ⟨rfl, rfl, ⟨[], by simp⟩, ⟨[], by simp⟩, fun _ => rfl⟩

theorem HistoryFrame.trans {s t u : State} (h : HistoryFrame s t) (g : HistoryFrame t u) : HistoryFrame s u where
  cfg := g.cfg.trans h.cfg
  rom := g.rom.trans h.rom
  events := by
    obtain ⟨a, ha⟩ := h.events
    obtain ⟨b, hb⟩ := g.events
    exact ⟨a ++ b, by rw [hb, ha, List.append_assoc]⟩
  replies := by
    obtain ⟨a, ha⟩ := h.replies
    obtain ⟨b, hb⟩ := g.replies
    exact ⟨a ++ b, by rw [hb, ha, List.append_assoc]⟩
  fault := fun stuck => (g.fault (by rw [h.fault stuck]; exact stuck)).trans (h.fault stuck)

theorem BusFrame.history {s t : State} (h : BusFrame s t) : HistoryFrame s t where
  cfg := h.cfg
  rom := h.rom
  events := h.events.imp fun _ grown => grown.1
  replies := h.replies
  fault := fun _ => h.fault

/-- A whole instruction may record the fault, and only where none stands (R229). -/
theorem State.cpuInstruction_history (s : State) (c : CpuInstr) : HistoryFrame s (s.cpuInstruction c) := by
  have frame := (s.cpuInstruction_frame c).bus
  refine { cfg := frame.cfg, rom := frame.rom, events := frame.history.events, replies := frame.replies,
           fault := fun stuck => ?_ }
  cases c with
  | runs ack opcode rest extra => exact (s.cpuInstruction_runs ack opcode rest extra).1.fault
  | fails ack begun extra =>
    obtain ⟨f, recorded⟩ := Option.ne_none_iff_exists'.mp stuck
    rw [State.cpuInstruction_fails, recorded]

theorem State.govLoop_history (target : Nat) : ∀ (n : Nat) (cpu : List CpuInstr) (s : State),
    HistoryFrame s (State.govLoop target n cpu s)
  | 0, _, s => HistoryFrame.refl s
  | n + 1, cpu, s => by
    unfold State.govLoop
    split_ifs
    · cases cpu with
      | nil =>
        exact (s.drawn_frame.history.trans (State.cpuInstruction_history _ _)).trans
          (State.govLoop_history target n _ _)
      | cons c cs => exact (s.cpuInstruction_history c).trans (State.govLoop_history target n cs _)
    · exact HistoryFrame.refl s

theorem State.rasterAdvance_history (s : State) (dns : Rat) : HistoryFrame s (s.rasterAdvance dns) := by
  obtain ⟨k, x, advance⟩ := s.rasterAdvance_frame dns
  rw [advance]
  exact { HistoryFrame.refl s with events := s.rowSteps_events_grow k }

theorem State.endBatch_history (s : State) : HistoryFrame s s.endBatch := by
  by_cases noFault : s.fault = none
  · rw [State.endBatch_ok noFault, State.checkpoint_eq]
    have advance := State.rasterAdvance_history { s with govMark := s.tstates }
      (((s.tstates : Rat) - (s.govMark : Rat)) * s.cfg.clockPeriodNs)
    exact { advance with }
  · rw [State.endBatch_failed noFault]
    exact HistoryFrame.refl s

theorem State.debuggerInstr_history (s : State) (c : CpuInstr) : HistoryFrame s (s.debuggerInstr c) := by
  have instruction := s.cpuInstruction_history c
  unfold State.debuggerInstr
  cases s.cfg.debuggerVideo with
  | never => exact instruction
  | perInstruction => exact instruction.trans (State.endBatch_history _)

theorem Completes.history {s t : State} {i : Instr} (c : Completes s i t) : HistoryFrame s t := by
  cases c with
  | txn x => exact (s.busTxn_frame x).history
  | rasterAdvance dns => exact s.rasterAdvance_history dns
  | redrawFrame =>
    obtain ⟨fb, onlyFb⟩ := s.redraw_eq
    rw [onlyFb]
    exact { HistoryFrame.refl s with }
  | govIteration target cpu => exact (State.govLoop_history target _ cpu s).trans (State.endBatch_history _)
  | hostRead _ r => exact { HistoryFrame.refl s with replies := ⟨[r], rfl⟩ }
  | uartRxPushA v => exact (s.setRxq_frame .a _).history
  | uartRxPushB v => exact (s.setRxq_frame .b _).history
  | reset | govStop | govStartAgain | govStart | hostRamWrite | hostVramWrite | hostRegWrite | cfAttach | cfDetach =>
    exact { HistoryFrame.refl s with }

theorem step_history {s t : State} (h : step s = .next t) : HistoryFrame s t := by
  obtain ⟨-, rfl⟩ | ⟨r, rest, -, -, served⟩ := step_cases h
  · exact HistoryFrame.refl t
  have dequeued : HistoryFrame s { s with pending := rest } := { HistoryFrame.refl s with }
  refine dequeued.trans ?_
  rcases served with ⟨w, b, l, i, -, -, -, -, runs⟩ | ⟨c, -, -, -, rfl⟩ | ⟨-, -, -, rfl⟩
  · exact (exec_completes runs).history
  · exact State.debuggerInstr_history _ c
  · exact (State.intAckCycle_frame _).history

/-- Settles O11: part of what every step keeps. -/
theorem stepsNeverChangeRomOrConfiguration : Obligations.StepsNeverChangeRomOrConfiguration :=
  fun _ _ h => ⟨(step_history h).rom, (step_history h).cfg⟩

/-- Settles O12: part of what every step keeps. -/
theorem eventsOnlyGrowAndFaultsStay : Obligations.EventsOnlyGrowAndFaultsStay :=
  fun _ _ h => ⟨(step_history h).events, (step_history h).replies, (step_history h).fault⟩

end Sys2Proof.Machine
end

