-- ==== Sys2Proof/Proofs/CfFrames.lean ====
section
/-! PROOFS. The frame of the CF task file (46_cf_taskfile R210): no access, command, attach or detach reaches main RAM,
VRAM, the paging flag, the VDP, the UART or the event history. -/

namespace Sys2Proof.Machine

/-- `t` differs from `s` in the task file, the image, the counter and the model's own lists alone. -/
def CfOnly (s t : State) : Prop :=
  t = { s with tstates := t.tstates, cfFeat := t.cfFeat, cfCount := t.cfCount, cfLba := t.cfLba, cfMode := t.cfMode,
               cfPos := t.cfPos, cfBase := t.cfBase, cfPresent := t.cfPresent, cfSize := t.cfSize,
               cfImage := t.cfImage, replies := t.replies, draws := t.draws }

theorem CfOnly.refl (s : State) : CfOnly s s := rfl

theorem CfOnly.trans {s t u : State} (h : CfOnly s t) (g : CfOnly t u) : CfOnly s u := by
  unfold CfOnly at g
  rw [h] at g
  exact g

theorem CfOnly.ram {s t : State} (h : CfOnly s t) : t.ram = s.ram := by rw [h]

theorem CfOnly.paged {s t : State} (h : CfOnly s t) : t.paged = s.paged := by rw [h]

theorem CfOnly.tick {s t : State} (h : CfOnly s t) (n : Nat) : CfOnly s (t.tick n) := h.trans rfl

theorem CfOnly.finishRead {s : State} {r : Byte × State} (h : CfOnly s r.2) (n : Nat) :
    CfOnly s (State.finishRead n r) := h.trans rfl

theorem State.imageRead_cfOnly (s : State) (o : Nat) : CfOnly s (s.imageRead o).2 := by
  obtain ⟨n, onlyDraws⟩ := s.imageRead_snd o
  rw [onlyDraws]
  rfl

theorem State.imageWrite_cfOnly (s : State) (o : Nat) (v : Byte) : CfOnly s (s.imageWrite o v) := by
  cases outcome : (s.cfg.cfIoFaults && Config.ioFails s.draws) with
  | false => rw [State.imageWrite_ok o v outcome]; rfl
  | true => rw [State.imageWrite_fails o v outcome]; rfl

theorem State.cfAdvance_cfOnly (s : State) : CfOnly s s.cfAdvance := by
  rw [State.cfAdvance_eq]
  rfl

theorem State.cfDataRead_cfOnly (s : State) : CfOnly s s.cfDataRead.2 := by
  unfold State.cfDataRead
  split_ifs
  · exact (s.imageRead_cfOnly _).trans (State.cfAdvance_cfOnly _)
  · exact CfOnly.refl s

theorem State.cfDataWrite_cfOnly (s : State) (v : Byte) : CfOnly s (s.cfDataWrite v) := by
  unfold State.cfDataWrite
  split_ifs
  · exact (s.imageWrite_cfOnly _ v).trans (State.cfAdvance_cfOnly _)
  · exact CfOnly.refl s

theorem State.cfStage_cfOnly (s : State) (m : CfMode) : CfOnly s (s.cfStage m) := by
  unfold State.cfStage
  split_ifs <;> rfl

theorem State.cfCommand_cfOnly (s : State) (v : Byte) : CfOnly s (s.cfCommand v) := by
  unfold State.cfCommand
  split_ifs
  · exact s.cfStage_cfOnly .read
  · exact s.cfStage_cfOnly .write
  · exact CfOnly.refl s

/-- Settles O17: row by row, each the frame of what it does to the task file, and then its cost. -/
theorem cfRowsLeaveTheOtherUnitsAlone : Obligations.CfRowsLeaveTheOtherUnitsAlone := by
  intro i s t row h
  show CfOnly s t
  rcases row with rfl | ⟨v, rfl⟩ | rfl | ⟨v, rfl⟩ | rfl | ⟨v, rfl⟩ | rfl | ⟨v, rfl⟩ | rfl | ⟨v, rfl⟩ | rfl | ⟨v, rfl⟩
    | rfl | ⟨v, rfl⟩ | rfl | rfl | rfl | ⟨v, rfl⟩ | ⟨image, size, rfl⟩ | rfl
  all_goals
    simp only [exec, execCfDataRd, execCfDataWr, execCfErrRd, execCfFeatWr, execCfCountRd, execCfCountWr, execCfLba0Rd,
      execCfLba0Wr, execCfLba1Rd, execCfLba1Wr, execCfLba2Rd, execCfLba2Wr, execCfLba3Rd, execCfLba3Wr, execCfStatusRd,
      execCfCmdRead, execCfCmdWrite, execCfCmdOther, execCfAttach, execCfDetach, busStep_next, hostStep_next] at h
    obtain ⟨-, rfl⟩ := h
  · exact s.cfDataRead_cfOnly.finishRead tIo
  · exact (s.cfDataWrite_cfOnly v).tick tIo
  iterate 13 exact rfl
  · exact (s.cfStage_cfOnly .read).tick tIo
  · exact (s.cfStage_cfOnly .write).tick tIo
  iterate 3 exact rfl

end Sys2Proof.Machine
end

