-- ==== Sys2Proof/Proofs/WhoChangesWhat.lean ====
section
/-! PROOFS. Which operations may move the t-state counter, the paging flag, main RAM, F and, in a debugger that never
advances the video, the raster (30_encoding R85; 10_state R23, R25, R40; 47_governor_host R220). -/

namespace Sys2Proof.Machine

/-! ### The counter -/

theorem State.redraw_tstates (s : State) : s.redraw.tstates = s.tstates := by rw [s.redraw_frame]

theorem State.rasterAdvance_tstates (s : State) (dns : Rat) : (s.rasterAdvance dns).tstates = s.tstates := by
  obtain ⟨k, x, advance⟩ := s.rasterAdvance_frame dns
  rw [advance]

/-- A K = 5 word costs nothing (R85). -/
theorem kindCost_opWord (a : Addr) (v : Byte) (b : Beside) : kindCost (wordKind (opWord a v b).1) = 0 := by
  rw [opWord, wordKind_mkWord]
  rfl

/-- Settles O13: a transaction's cost is its kind's, and no K = 5 row that is left moves the counter. -/
theorem eachKindAddsItsTstates : Obligations.EachKindAddsItsTstates := by
  intro i s t notIteration notReset h
  cases exec_completes h with
  | txn x bus cost => rw [State.busTxn_tstates, cost]
  | rasterAdvance dns => rw [encode, kindCost_opWord, s.rasterAdvance_tstates, Nat.add_zero]
  | redrawFrame => rw [encode, kindCost_opWord, s.redraw_tstates, Nat.add_zero]
  | hostRead op r => rw [op]; rfl
  | govIteration target cpu => exact absurd rfl (notIteration target cpu)
  | reset => exact absurd rfl notReset
  | govStop | govStartAgain | govStart | hostRamWrite | hostVramWrite | hostRegWrite | uartRxPushA | uartRxPushB
  | cfAttach | cfDetach =>
    rw [encode, kindCost_opWord]
    rfl

/-! ### The paging flag and main RAM under transactions -/

theorem portUnit_ite {c : Prop} [Decidable c] {u v w : PortUnit} (h : (if c then u else v) = w) (other : u ≠ w) :
    v = w := by
  by_cases hc : c
  · exact absurd ((if_pos hc).symm.trans h) other
  · exact (if_neg hc).symm.trans h

/-- The paging port is the one port of the paging unit (R86). -/
theorem portUnit_page {c : Config} {p : Port} (h : portUnit c p = .page) : p = pagePort := by
  by_contra notPage
  unfold portUnit at h
  iterate 8 replace h := portUnit_ite h (by decide)
  rw [if_neg notPage] at h
  iterate 4 replace h := portUnit_ite h (by simp)
  cases h

theorem State.portRead_memory (s : State) (p : Port) :
    (s.portRead p).2.ram = s.ram ∧ (s.portRead p).2.paged = s.paged := by
  unfold State.portRead
  cases portUnit s.cfg p with
  | uartData ch =>
    simp only [State.uartDataRead]
    cases s.rxq ch with
    | nil => exact ⟨rfl, rfl⟩
    | cons v q => exact ⟨s.setRxq_ram ch q, s.setRxq_paged ch q⟩
  | cfData => exact ⟨s.cfDataRead_cfOnly.ram, s.cfDataRead_cfOnly.paged⟩
  | vdpData | vdpCtrl | uartCtrl | cfErrFeat | cfCount | cfLba | cfStatusCmd | page | unmapped => exact ⟨rfl, rfl⟩

theorem State.vdpCtrlWrite_memory (s : State) (v : Byte) :
    (s.vdpCtrlWrite v).ram = s.ram ∧ (s.vdpCtrlWrite v).paged = s.paged := by
  cases full : s.latchFull with
  | false => rw [State.vdpCtrlWrite_first v full]; exact ⟨rfl, rfl⟩
  | true =>
    cases register : pairIsReg v with
    | true => rw [State.vdpCtrlWrite_register full register]; exact ⟨rfl, rfl⟩
    | false => rw [State.vdpCtrlWrite_pointer full register]; exact ⟨rfl, rfl⟩

/-- No I/O write reaches main RAM, and only one to the paging port reaches the flag (R25, R118, R119). -/
theorem State.portWrite_memory (s : State) (p : Port) (v : Byte) :
    (s.portWrite p v).ram = s.ram ∧ (p ≠ pagePort → (s.portWrite p v).paged = s.paged) := by
  unfold State.portWrite
  cases unit : portUnit s.cfg p with
  | vdpCtrl => exact ⟨(s.vdpCtrlWrite_memory v).1, fun _ => (s.vdpCtrlWrite_memory v).2⟩
  | cfData => exact ⟨(s.cfDataWrite_cfOnly v).ram, fun _ => (s.cfDataWrite_cfOnly v).paged⟩
  | cfStatusCmd => exact ⟨(s.cfCommand_cfOnly v).ram, fun _ => (s.cfCommand_cfOnly v).paged⟩
  | page => exact ⟨rfl, fun other => absurd (portUnit_page unit) other⟩
  | vdpData | uartCtrl | uartData | cfErrFeat | cfCount | cfLba | unmapped => exact ⟨rfl, fun _ => rfl⟩

/-- A transaction that changes main RAM is a memory write (R23, R64). -/
theorem State.busTxn_ram {s : State} {x : Txn} (h : (s.busTxn x).ram ≠ s.ram) : ∃ a v, x = .mwrite a v := by
  cases x with
  | mwrite a v => exact ⟨a, v, rfl⟩
  | fetch | mread => exact absurd rfl h
  | ioread port => exact absurd (s.portRead_memory _).1 h
  | iowrite port v => exact absurd (s.portWrite_memory _ v).1 h

/-- A transaction that changes the paging flag is a write to the paging port (R25). -/
theorem State.busTxn_paged {s : State} {x : Txn} (h : (s.busTxn x).paged ≠ s.paged) :
    ∃ port v, x = .iowrite port v ∧ decodedPort port = pagePort := by
  cases x with
  | iowrite port v => exact ⟨port, v, rfl, by_contra fun other => h ((s.portWrite_memory _ v).2 other)⟩
  | fetch | mread => exact absurd rfl h
  | mwrite a v => exact absurd (by rw [State.busTxn, State.busMwrite, State.writeSel_eq]; rfl) h
  | ioread port => exact absurd (s.portRead_memory _).2 h

/-- The row whose word carries a memory write is MWRITE. -/
theorem row_of_mwrite {i : Instr} {a : Addr} {v : Byte} (wf : i.wf = true) (h : txnOfWord (encode i).1 = .mwrite a v) :
    ∃ a v, i = .mwrite a v := by
  obtain ⟨-, ⟨k, -⟩ | ⟨k, -⟩ | ⟨-, row⟩ | ⟨k, -⟩ | ⟨k, -⟩ | ⟨k, -⟩⟩ := decode_cases (decodeOfEncodeIsIdentity i wf)
  · simp [txnOfWord, k] at h
  · simp [txnOfWord, k] at h
  · exact ⟨_, _, row⟩
  · simp [txnOfWord, k] at h
  · simp [txnOfWord, k] at h
  · simp [txnOfWord, k] at h

/-- The rows of the paging port's writes (R118, R119). -/
theorem decodeWrite_page (v : Byte) : decodeWrite pagePort v = .pageOn ∨ decodeWrite pagePort v = .pageOff v := by
  by_cases one : v = 0x01
  · exact .inl (by rw [one]; rfl)
  · exact .inr (decodeWrite_page_other one)

/-- The rows whose word carries a write to the paging port are PAGE_ON and PAGE_OFF. -/
theorem row_of_page_write {i : Instr} {port : BitVec 16} {v : Byte} (wf : i.wf = true)
    (bus : (wordKind (encode i).1).toNat ≤ 4) (h : txnOfWord (encode i).1 = .iowrite port v)
    (page : decodedPort port = pagePort) : i = .pageOn ∨ ∃ v, i = .pageOff v := by
  obtain ⟨-, ⟨k, -⟩ | ⟨k, -⟩ | ⟨k, -⟩ | ⟨k, -⟩ | ⟨k, row⟩ | ⟨k, -⟩⟩ := decode_cases (decodeOfEncodeIsIdentity i wf)
  · simp [txnOfWord, k] at h
  · simp [txnOfWord, k] at h
  · simp [txnOfWord, k] at h
  · simp [txnOfWord, k] at h
  · obtain ⟨rfl, rfl⟩ : wordAddr (encode i).1 = port ∧ wordData (encode i).1 = v := by simpa [txnOfWord, k] using h
    rw [← decodedPort_wordAddr, page] at row
    rw [row]
    exact (decodeWrite_page _).imp_right fun off => ⟨_, off⟩
  · simp [k] at bus

/-- Settles O14: a transaction row changes the flag or RAM as its transaction does, and of the K = 5 rows only the named
ones touch them. -/
theorem pagingAndRamChangeOnlyByTheirOperations : Obligations.PagingAndRamChangeOnlyByTheirOperations := by
  intro i s t wf h
  cases exec_completes h with
  | txn x bus =>
    rw [exec_eq_busTxn wf bus] at h
    rw [(busStep_next.mp h).2]
    constructor
    · intro changed
      obtain ⟨port, v, carries, page⟩ := State.busTxn_paged changed
      exact (row_of_page_write wf bus carries page).imp_right .inl
    · intro changed
      obtain ⟨a, v, carries⟩ := State.busTxn_ram changed
      exact .inl (row_of_mwrite wf carries)
  | rasterAdvance dns =>
    obtain ⟨k, x, advance⟩ := s.rasterAdvance_frame dns
    rw [advance]
    exact ⟨absurd rfl, absurd rfl⟩
  | redrawFrame =>
    rw [s.redraw_frame]
    exact ⟨absurd rfl, absurd rfl⟩
  | reset => exact ⟨fun _ => .inr (.inr (.inl rfl)), absurd rfl⟩
  | govIteration target cpu =>
    exact ⟨fun _ => .inr (.inr (.inr ⟨target, cpu, rfl⟩)), fun _ => .inr (.inr ⟨target, cpu, rfl⟩)⟩
  | hostRamWrite a v => exact ⟨absurd rfl, fun _ => .inr (.inl ⟨a, v, rfl⟩)⟩
  | govStop | govStartAgain | govStart | hostRead | hostVramWrite | hostRegWrite | uartRxPushA | uartRxPushB | cfAttach
  | cfDetach =>
    exact ⟨absurd rfl, absurd rfl⟩

/-! ### F and the raster -/

/-- What leaves the raster where it is: the counter and the accumulator stay and F is not set. -/
structure RasterFrame (s t : State) : Prop where
  line : t.line = s.line
  accNs : t.accNs = s.accNs
  flagF : t.flagF = true → s.flagF = true

theorem BusFrame.raster {s t : State} (h : BusFrame s t) : RasterFrame s t := ⟨h.line, h.accNs, h.flagF⟩

theorem RasterFrame.of_eq {s t : State} (line : t.line = s.line) (accNs : t.accNs = s.accNs)
    (status : t.status = s.status) : RasterFrame s t :=
  ⟨line, accNs, fun set => by rw [State.flagF, ← status]; exact set⟩

theorem State.redraw_raster (s : State) : RasterFrame s s.redraw := by
  obtain ⟨fb, onlyFb⟩ := s.redraw_eq
  rw [onlyFb]
  exact .of_eq rfl rfl rfl

/-- The instructions that may set F are the advance and an iteration; RESET clears it (R139, R216, R221). -/
theorem Completes.flagF {s t : State} {i : Instr} (c : Completes s i t) : (t.flagF = true → s.flagF = true)
    ∨ (∃ dns, i = .rasterAdvance dns) ∨ ∃ target cpu, i = .govIteration target cpu := by
  cases c with
  | txn x => exact .inl (s.busTxn_frame x).flagF
  | rasterAdvance dns => exact .inr (.inl ⟨dns, rfl⟩)
  | redrawFrame => exact .inl s.redraw_raster.flagF
  | reset =>
    have clears : s.resetOp.flagF = false := by simp [State.flagF]
    exact .inl fun set => absurd (clears.symm.trans set) Bool.false_ne_true
  | govIteration target cpu => exact .inr (.inr ⟨target, cpu, rfl⟩)
  | govStop | govStartAgain | govStart | hostRead | hostRamWrite | hostVramWrite | hostRegWrite | uartRxPushA
  | uartRxPushB | cfAttach | cfDetach =>
    exact .inl (RasterFrame.of_eq rfl rfl rfl).flagF

/-- Settles O15: every other instruction that completes leaves a clear F clear. -/
theorem onlyTheRasterSetsF : Obligations.OnlyTheRasterSetsF := by
  intro i s t h clear set
  refine (exec_completes h).flagF.resolve_left fun stays => ?_
  exact Bool.false_ne_true (clear.symm.trans (stays set))

/-- Under `never` the debugger refuses what moves the raster, RESET apart, and the framebuffer is left to REDRAW_FRAME
(R220). -/
theorem exec_never {i : Instr} {s t : State} (debugger : s.cfg.variant = .debugger)
    (never : s.cfg.debuggerVideo = .never) (h : exec i s = .next t) (notReset : i ≠ .reset) :
    RasterFrame s t ∧ (t.fb = s.fb ∨ i = .redrawFrame) := by
  cases exec_completes h with
  | txn x => exact ⟨(s.busTxn_frame x).raster, .inl (s.busTxn_frame x).fb⟩
  | rasterAdvance dns issued => exact absurd ⟨debugger, never⟩ issued
  | redrawFrame => exact ⟨s.redraw_raster, .inr rfl⟩
  | reset => exact absurd rfl notReset
  | govIteration target cpu machine => exact absurd debugger machine
  | govStop | govStartAgain | govStart | hostRead | hostRamWrite | hostVramWrite | hostRegWrite | uartRxPushA
  | uartRxPushB | cfAttach | cfDetach =>
    exact ⟨.of_eq rfl rfl rfl, .inl rfl⟩

/-- Settles O55: whichever request a step served, the raster stays. -/
theorem debuggerNeverVideoFreezesTheRaster : Obligations.DebuggerNeverVideoFreezesTheRaster := by
  intro s debugger never
  refine ⟨fun dns => by simp [exec, execRasterAdvance, debugger, never], ?_⟩
  intro t h notReset
  obtain ⟨-, rfl⟩ | ⟨r, rest, next, -, served⟩ := step_cases h
  · exact ⟨rfl, rfl, id, absurd rfl⟩
  rcases served with ⟨w, b, l, i, rfl, decodes, -, -, runs⟩ | ⟨c, -, -, -, rfl⟩ | ⟨-, -, -, rfl⟩
  · have other : i ≠ .reset := by
      rintro rfl
      exact notReset w b l rest next decodes
    obtain ⟨raster, fb⟩ := exec_never (s := { s with pending := rest }) debugger never runs other
    refine ⟨raster.line, raster.accNs, raster.flagF, fun changed => ⟨w, b, l, rest, next, ?_⟩⟩
    rw [decodes, fb.resolve_left changed]
  · have frame := (State.cpuInstruction_frame { s with pending := rest } c).bus
    simp only [State.debuggerInstr, never]
    exact ⟨frame.line, frame.accNs, frame.flagF, absurd frame.fb⟩
  · have frame := State.intAckCycle_frame { s with pending := rest }
    exact ⟨frame.line, frame.accNs, frame.flagF, absurd frame.fb⟩

end Sys2Proof.Machine
end

