-- ==== Sys2Proof/Proofs/PortsAndRuns.lean ====
section
/-! PROOFS. Runs of several instructions (20_memory R63; 42_vdp_ports R135), the accesses to ports of no unit
(41_io_dispatch R121 to R123), the interrupt output (43_vdp_raster R145) and the power-on values (10_state R57). -/

namespace Sys2Proof.Machine

/-! ### Runs -/

/-- An instruction that completes hands its state to the rest of the run. -/
theorem execAll_cons {i : Instr} {is : List Instr} {s t : State} (h : exec i s = .next t) :
    execAll (i :: is) s = execAll is t := by
  rw [execAll, h]

/-- Settles O21: the write reaches RAM; the first read takes the ROM's byte, and the second, the ROM disabled, RAM's. -/
theorem writeUnderRomIsHiddenUntilPaged : Obligations.WriteUnderRomIsHiddenUntilPaged := by
  intro a v s noFault ramWf unpaged underRom toRam
  simp only [execAll, exec_mwrite, exec_mread, exec_pageOn, noFault]
  refine ⟨_, rfl, ?_⟩
  simp only [State.readSel, unpaged, underRom, toRam, or_true, if_true, and_self, Bool.true_eq_false, false_and,
    if_false, Mem.read_write_same ramWf, List.append_assoc, List.singleton_append]

/-! ### Ports of no unit -/

/-- A port that is neither fixed nor the VDP's belongs to no unit (R115). -/
theorem portUnit_unmapped {c : Config} {p : Port} (fixed : p ∉ fixedPorts) (data : p ≠ c.vdpDataPort)
    (ctrl : p ≠ c.vdpCtrlPort) : portUnit c p = .unmapped := by
  simp [fixedPorts] at fixed
  simp [portUnit, pagePort, fixed, data, ctrl]

/-- A read that no unit answers takes a free byte (R121). -/
theorem State.finishRead_unmapped (s : State) : State.finishRead 4 s.drawUnmapped =
    { s with tstates := s.tstates + 4, draws := s.draws + 1,
             replies := s.replies ++ [.bus (Config.unmappedRead s.draws)] } := rfl

theorem State.ioRead_unmapped {s : State} {p : Port} (h : portUnit s.cfg p = .unmapped) :
    s.ioRead p = { s with tstates := s.tstates + 4, draws := s.draws + 1,
                          replies := s.replies ++ [.bus (Config.unmappedRead s.draws)] } := by
  rw [State.ioRead, State.portRead, h, tIo]
  exact s.finishRead_unmapped

/-- A write that no unit takes costs its t-states alone (R122). -/
theorem State.ioWrite_unmapped {s : State} {p : Port} (v : Byte) (h : portUnit s.cfg p = .unmapped) :
    s.ioWrite p v = { s with tstates := s.tstates + 4 } := by
  rw [State.ioWrite, State.portWrite, h, tIo]
  rfl

theorem exec_pageRd {s : State} (noFault : s.fault = none) :
    exec .pageRd s = .next { s with tstates := s.tstates + 4, draws := s.draws + 1,
                                    replies := s.replies ++ [.bus (Config.unmappedRead s.draws)] } :=
  busStep_ok (fun s => State.finishRead tIo s.drawUnmapped) noFault

/-- Settles O23: the paging port answers as a port of no unit does, and the other rows go through the dispatch. -/
theorem unmappedPortsAreNeutral : Obligations.UnmappedPortsAreNeutral := by
  intro p v s noFault
  refine ⟨exec_pageRd noFault, fun noRow data ctrl => ?_⟩
  have readRow : ioReadRow (.unmappedRead p) p := .inr (.inr (.inr (.inr ⟨rfl, noRow⟩)))
  have writeRow : ioWriteRow (.unmappedWrite p v) p v := .inr (.inr (.inr (.inr ⟨rfl, noRow⟩)))
  obtain ⟨-, reads, fixed⟩ := exec_ioReadRow noFault readRow
  obtain ⟨-, writes, -⟩ := exec_ioWriteRow noFault writeRow
  have unit := portUnit_unmapped fixed data ctrl
  exact ⟨by rw [reads, State.ioRead_unmapped unit], by rw [writes, State.ioWrite_unmapped v unit]⟩

/-- Settles O24: the VDP rows go through the dispatch, which finds no unit at their port. -/
theorem vdpRowsOffTheVdpPortsAreUnmapped : Obligations.VdpRowsOffTheVdpPortsAreUnmapped := by
  intro v i p s noFault data ctrl
  constructor
  · intro row
    have writeRow : ioWriteRow i p v := by tauto
    obtain ⟨-, writes, fixed⟩ := exec_ioWriteRow noFault writeRow
    rw [writes, State.ioWrite_unmapped v (portUnit_unmapped fixed data ctrl)]
  · intro row
    have readRow : ioReadRow i p := by tauto
    obtain ⟨-, reads, fixed⟩ := exec_ioReadRow noFault readRow
    rw [reads, State.ioRead_unmapped (portUnit_unmapped fixed data ctrl)]

/-! ### The pointer over a run of data-port accesses -/

/-- A data-port access, in either direction, is a transaction that moves the pointer by one (R125, R126). -/
theorem exec_dataAccess {i : Instr} {s : State} (noFault : s.fault = none)
    (row : ioReadRow i s.cfg.vdpDataPort ∨ ∃ v, ioWriteRow i s.cfg.vdpDataPort v) :
    ∃ t, exec i s = .next t ∧ BusFrame s t ∧ t.ptr = s.ptr + 1 := by
  rcases row with read | ⟨v, write⟩
  · obtain ⟨-, completes, fixed⟩ := exec_ioReadRow noFault read
    refine ⟨_, completes, s.ioRead_frame _, ?_⟩
    rw [State.ioRead_dataPort fixed, State.finishRead_ptr, State.vdpDataRead_snd_ptr]
  · obtain ⟨-, completes, fixed⟩ := exec_ioWriteRow noFault write
    refine ⟨_, completes, s.ioWrite_frame _ v, ?_⟩
    rw [State.ioWrite_dataPort v fixed, State.tick_ptr, State.vdpDataWrite_ptr]

/-- Settles O29, by induction on the accesses: each moves the pointer by one and leaves the configuration. -/
theorem pointerCountsDataAccesses : Obligations.PointerCountsDataAccesses := by
  intro is
  induction is with
  | nil =>
    intro s _ _
    exact ⟨s, rfl, (Nat.mod_eq_of_lt s.ptr.isLt).symm⟩
  | cons i is ih =>
    intro s noFault rows
    obtain ⟨t, completes, frame, moved⟩ := exec_dataAccess noFault (rows i List.mem_cons_self)
    obtain ⟨u, rest, ptr⟩ := ih t (frame.fault.trans noFault) fun j hj => by
      rw [frame.cfg]
      exact rows j (List.mem_cons_of_mem i hj)
    refine ⟨u, by rw [execAll_cons completes, rest], ?_⟩
    rw [ptr, moved, BitVec.toNat_add, List.length_cons]
    simp only [BitVec.reduceToNat]
    omega

/-! ### The interrupt output -/

theorem Regs.ie_eq {r : Regs} : r.ie = decide (r[1].toNat / 32 % 2 = 1) := by
  simp [Regs.ie, BitVec.getLsbD, Nat.testBit_eq_decide_div_mod_eq]

/-- F as a number (R40). -/
theorem State.flagF_eq (s : State) : s.flagF = decide (128 ≤ s.status.toNat) := by
  have byte := s.status.isLt
  simp only [State.flagF, BitVec.getLsbD, Nat.testBit_eq_decide_div_mod_eq]
  exact decide_eq_decide.mpr (by omega)

/-- Settles O30: F and IE are bits 7 and 5 of their bytes. -/
theorem interruptOutputIsFAndIe : Obligations.InterruptOutputIsFAndIe := by
  intro s
  constructor
  · intro off
    rw [State.vdpInt, off]
  · intro connected
    rw [State.vdpInt, connected]
    simp only [State.flagF_eq, Regs.ie_eq, Bool.and_eq_true, decide_eq_true_eq]

/-! ### Power-on -/

/-- Settles O10: field by field, the registers and the framebuffer being vectors of zeros. -/
theorem powerOnValues : Obligations.PowerOnValues := by
  refine ⟨fun a => ⟨rfl, rfl⟩, rfl, rfl, ?reg, rfl, rfl, rfl, rfl, rfl, rfl, ?fb, rfl, rfl, rfl, rfl, ?lba, rfl, rfl,
    rfl, rfl, rfl, rfl, rfl⟩
  case reg => exact fun i => Vector.getElem_replicate i.isLt
  case fb =>
    intro r c
    show (Vector.replicate 240 (Vector.replicate 320 (0 : Colour)))[r][c] = 0
    simp
  case lba => exact fun i => Vector.getElem_replicate i.isLt

end Sys2Proof.Machine
end

