-- ==== Sys2Proof/Proofs/UartAndCfRegisters.lean ====
section
/-! PROOFS. The UART (45_uart R184 to R187, R226) and the registers, commands and image handle of the CF task file
(46_cf_taskfile R199 to R205, R212; 47_governor_host R228). -/

namespace Sys2Proof.Machine

/-! ### The UART -/

/-- RX_AVAIL is bit 0 and TX_EMPTY, always set, is bit 2 (R104, R184). -/
theorem uartStatusByte_eq (q : List Byte) : uartStatusByte q = if q = [] then 0x04 else 0x05 := by
  cases q with
  | nil => rfl
  | cons v q => simp [uartStatusByte]

/-- Settles O41: each row is one access of its channel, at the 4 t-states of an I/O cycle. -/
theorem uartControlAndTransmit : Obligations.UartControlAndTransmit := by
  intro v s noFault
  rw [← uartStatusByte_eq, ← uartStatusByte_eq]
  exact ⟨busStep_ok (fun s => State.finishRead tIo (s.uartStatus .a)) noFault,
    busStep_ok (fun s => State.finishRead tIo (s.uartStatus .b)) noFault,
    busStep_ok (fun s => (s.uartCtrlWrite .a v).tick tIo) noFault,
    busStep_ok (fun s => (s.uartCtrlWrite .b v).tick tIo) noFault,
    busStep_ok (fun s => (s.uartDataWrite .a v).tick tIo) noFault,
    busStep_ok (fun s => (s.uartDataWrite .b v).tick tIo) noFault⟩

/-- A data read of channel A takes the oldest byte, if there is one (R186). -/
theorem State.uartDataRead_a (s : State) :
    s.uartDataRead .a = (s.rxqA.headD 0x00, { s with rxqA := s.rxqA.tail }) := by
  unfold State.uartDataRead State.rxq
  cases queue : s.rxqA with
  | nil =>
    show ((0x00 : Byte), s) = (0x00, { s with rxqA := [] })
    rw [← queue]
  | cons v q => rfl

/-- A data read of channel B, in the same way (R186). -/
theorem State.uartDataRead_b (s : State) :
    s.uartDataRead .b = (s.rxqB.headD 0x00, { s with rxqB := s.rxqB.tail }) := by
  unfold State.uartDataRead State.rxq
  cases queue : s.rxqB with
  | nil =>
    show ((0x00 : Byte), s) = (0x00, { s with rxqB := [] })
    rw [← queue]
  | cons v q => rfl

/-- Settles O42: a read is the queue's head and tail, a delivery its append. -/
theorem uartReceiveQueues : Obligations.UartReceiveQueues := by
  intro v s noFault
  refine ⟨?readA, ?readB, hostStep_ok (fun s => s.uartPush .a v) noFault,
    hostStep_ok (fun s => s.uartPush .b v) noFault⟩
  case readA =>
    have completes : exec .uartADataRd s = .next (State.finishRead tIo (s.uartDataRead .a)) :=
      busStep_ok (fun s => State.finishRead tIo (s.uartDataRead .a)) noFault
    rw [completes, State.uartDataRead_a, State.finishRead_eq, tIo]
  case readB =>
    have completes : exec .uartBDataRd s = .next (State.finishRead tIo (s.uartDataRead .b)) :=
      busStep_ok (fun s => State.finishRead tIo (s.uartDataRead .b)) noFault
    rw [completes, State.uartDataRead_b, State.finishRead_eq, tIo]

/-! ### The registers of the task file -/

/-- DRDY with an image, DRQ with a transfer pending (R53, R203). -/
theorem cfStatusByte_eq (present : Bool) (m : CfMode) :
    cfStatusByte present m = if present = false then 0x00 else if m ≠ .idle then 0x48 else 0x40 := by
  rw [cfStatusByte, ite_not]

/-- Settles O43: each row reads one register and costs an I/O cycle. -/
theorem cfRegisterReads : Obligations.CfRegisterReads := by
  intro s noFault answer
  rw [← cfStatusByte_eq]
  exact ⟨busStep_ok (fun s => State.finishRead tIo (0x00, s)) noFault,
    busStep_ok (fun s => State.finishRead tIo (s.cfCount, s)) noFault,
    busStep_ok (fun s => State.finishRead tIo (s.cfLba[0], s)) noFault,
    busStep_ok (fun s => State.finishRead tIo (s.cfLba[1], s)) noFault,
    busStep_ok (fun s => State.finishRead tIo (s.cfLba[2], s)) noFault,
    busStep_ok (fun s => State.finishRead tIo (s.cfLba[3], s)) noFault,
    busStep_ok (fun s => State.finishRead tIo s.cfStatus) noFault⟩

/-- The LBA registers after a write of one of them, byte by byte (R202). -/
theorem cfLba_set (l : Vector Byte 4) (v : Byte) :
    l.set 0 v = #v[v, l[1], l[2], l[3]] ∧ l.set 1 v = #v[l[0], v, l[2], l[3]]
    ∧ l.set 2 v = #v[l[0], l[1], v, l[3]] ∧ l.set 3 v = #v[l[0], l[1], l[2], v] := by
  refine ⟨?_, ?_, ?_, ?_⟩ <;> refine Vector.ext fun i hi => ?_ <;> interval_cases i <;> simp

/-- Settles O44: each row writes one register and costs an I/O cycle. -/
theorem cfRegisterWrites : Obligations.CfRegisterWrites := by
  intro v s noFault
  obtain ⟨lba0, lba1, lba2, lba3⟩ := cfLba_set s.cfLba v
  rw [← lba0, ← lba1, ← lba2, ← lba3]
  exact ⟨busStep_ok (fun s => State.tick { s with cfFeat := v } tIo) noFault,
    busStep_ok (fun s => State.tick { s with cfCount := v } tIo) noFault,
    busStep_ok (fun s => (s.setCfLba 0 v).tick tIo) noFault, busStep_ok (fun s => (s.setCfLba 1 v).tick tIo) noFault,
    busStep_ok (fun s => (s.setCfLba 2 v).tick tIo) noFault, busStep_ok (fun s => (s.setCfLba 3 v).tick tIo) noFault⟩

/-! ### Commands and the image handle -/

/-- A transfer command with an image seeks LBA * 512 and stages the transfer (R204, R205). -/
theorem State.cfStage_present {s : State} (m : CfMode) (present : s.cfPresent = true) :
    s.cfStage m = { s with cfBase := lbaOffset s, cfPos := 0, cfMode := m } := by
  rw [State.cfStage, if_pos present, cfLbaOf_toNat]
  rfl

/-- Without an image it does nothing (R204). -/
theorem State.cfStage_absent {s : State} (m : CfMode) (absent : s.cfPresent = false) : s.cfStage m = s := by
  simp [State.cfStage, absent]

theorem exec_cfCmdRead {s : State} (noFault : s.fault = none) : exec .cfCmdRead s = .next ((s.cfStage .read).tick 4) :=
  busStep_ok (fun s => (s.cfStage .read).tick tIo) noFault

theorem exec_cfCmdWrite {s : State} (noFault : s.fault = none) :
    exec .cfCmdWrite s = .next ((s.cfStage .write).tick 4) :=
  busStep_ok (fun s => (s.cfStage .write).tick tIo) noFault

/-- Settles O45: with and without an image, for the two transfer commands and any other. -/
theorem cfCommandsSeekAndStage : Obligations.CfCommandsSeekAndStage := by
  intro v s noFault
  rw [exec_cfCmdRead noFault, exec_cfCmdWrite noFault]
  refine ⟨fun present => ?_, fun absent => ?_, fun _ _ => busStep_ok (fun s => s.tick tIo) noFault⟩
  · rw [State.cfStage_present .read present, State.cfStage_present .write present]
    exact ⟨rfl, rfl⟩
  · rw [State.cfStage_absent .read absent, State.cfStage_absent .write absent]
    exact ⟨rfl, rfl⟩

/-- Settles O49: a canonical list is the image it describes. -/
theorem cfAttachAndDetach : Obligations.CfAttachAndDetach := by
  intro image size s noFault
  refine ⟨fun canonical => ?_, hostStep_ok State.cfClose noFault⟩
  have completes : exec (.cfAttach image size) s = .next (s.cfOpen image size) :=
    hostStep_ok (fun s => s.cfOpen image size) noFault
  rw [completes, State.cfOpen, Mem.ofCells_of_wf canonical]

end Sys2Proof.Machine
end

