-- ==== Sys2Proof/Proofs/CfTransfers.lean ====
section
/-! PROOFS. The data port of the CF task file (46_cf_taskfile R197, R198, R206 to R208): one access inside and outside a
transfer, and a whole sector read. -/

namespace Sys2Proof.Machine

theorem exec_cfDataRd {s : State} (noFault : s.fault = none) :
    exec .cfDataRd s = .next (State.finishRead 4 s.cfDataRead) :=
  busStep_ok (fun s => State.finishRead tIo s.cfDataRead) noFault

theorem exec_cfDataWr {s : State} (v : Byte) (noFault : s.fault = none) :
    exec (.cfDataWr v) s = .next ((s.cfDataWrite v).tick 4) :=
  busStep_ok (fun s => (s.cfDataWrite v).tick tIo) noFault

/-! ### Reads -/

/-- What a data read inside a read transfer returns: 0x00 for a failed access, the image's byte, or a free one past its
end (R207, R208). -/
theorem State.imageRead_eq (s : State) (o : Nat) : s.imageRead o =
    (if s.cfIoDrawFails then 0x00 else if o < s.cfSize then Mem.read s.cfImage o
      else Config.cfEofRead (s.draws + if s.cfg.cfIoFaults then 1 else 0),
     { s with draws := s.draws + if s.cfIoDrawFails = true ∨ o < s.cfSize then if s.cfg.cfIoFaults then 1 else 0
                                 else (if s.cfg.cfIoFaults then 1 else 0) + 1 }) := by
  cases fails : s.cfIoDrawFails with
  | true => rw [State.imageRead_fails o fails]; simp
  | false =>
    by_cases inside : o < s.cfSize
    · rw [State.imageRead_inside fails inside]
      simp [inside]
    · rw [State.imageRead_pastEnd fails (Nat.not_lt.mp inside)]
      simp [inside, Nat.add_assoc]

theorem State.cfDataRead_reading {s : State} (reading : s.cfMode = .read) : s.cfDataRead =
    ((s.imageRead (s.cfBase + s.cfPos)).1, (s.imageRead (s.cfBase + s.cfPos)).2.cfAdvance) := if_pos reading

theorem State.cfDataRead_other {s : State} (other : s.cfMode ≠ .read) : s.cfDataRead = (0x00, s) := if_neg other

/-- Settles O46: inside a transfer the image's read and then the transfer's advance, outside one 0x00. -/
theorem cfDataReadStreamsTheImage : Obligations.CfDataReadStreamsTheImage := by
  intro s noFault o io
  rw [exec_cfDataRd noFault]
  constructor
  · intro other
    rw [State.cfDataRead_other other]
    rfl
  · intro reading
    rw [State.cfDataRead_reading reading, State.imageRead_eq, State.cfAdvance_eq, State.finishRead_eq, reading]

/-! ### Writes -/

/-- A canonical image reads 0x00 past its end (R51). -/
theorem Mem.read_within {m : Mem} {size : Nat} (canonical : Mem.wf m size = true) (a : Nat) :
    Mem.read m a = if a < size then Mem.read m a else 0 := by
  split_ifs with inside
  · rfl
  · exact Mem.read_above canonical (Nat.not_lt.mp inside)

/-- The image after a write that does not fail: canonical in its grown size, with the byte at its offset and 0x00
between the old end and it (R208). -/
theorem Mem.write_grown {m : Mem} {size : Nat} (canonical : Mem.wf m size = true) (o : Nat) (v : Byte) :
    Mem.wf (Mem.write m o v) (max size (o + 1)) = true
    ∧ ∀ a, Mem.read (Mem.write m o v) a = if a = o then v else if a < size then Mem.read m a else 0 := by
  constructor
  · exact Mem.wf_write v (by omega) (Mem.wf_widen (Nat.le_max_left _ _) canonical)
  · intro a
    rw [Mem.read_write canonical, ← Mem.read_within canonical]

/-- Settles O47: a failed access leaves the image, a good one stores the byte, and either way the transfer moves on. -/
theorem cfDataWriteReachesTheImageAtOnce : Obligations.CfDataWriteReachesTheImageAtOnce := by
  intro v s noFault canonical o
  rw [exec_cfDataWr v noFault, State.cfDataWrite]
  constructor
  · intro other
    rw [if_neg other]
    rfl
  intro writing
  rw [if_pos writing, State.cfAdvance_eq]
  refine ⟨_, rfl, ?_⟩
  cases fails : s.cfIoDrawFails with
  | true =>
    rw [State.imageWrite_fails o v fails]
    refine ⟨by rw [← writing]; rfl, canonical, fun a => ?_⟩
    simp only [Bool.true_eq_false, false_and, if_false]
    exact Mem.read_within canonical a
  | false =>
    rw [State.imageWrite_ok o v fails]
    obtain ⟨grown, reads⟩ := Mem.write_grown canonical o v
    refine ⟨by rw [← writing]; rfl, grown, fun a => ?_⟩
    simp only [true_and]
    exact reads a

/-! ### A whole sector -/

theorem execAll_append {is js : List Instr} {s t : State} (h : execAll is s = .next t) :
    execAll (is ++ js) s = execAll js t := by
  induction is generalizing s with
  | nil =>
    obtain rfl := Host.Outcome.next.inj h
    rfl
  | cons i is ih =>
    rw [execAll] at h
    rw [List.cons_append, execAll]
    split at h
    · exact ih h
    · cases h
    · cases h

/-- `s` after a read command, before the first data read. -/
def readStaged (s : State) : State :=
  { s with cfBase := lbaOffset s, cfPos := 0, cfMode := .read, tstates := s.tstates + 4 }

/-- `s` after `n` data reads of the sector at its `cfBase`, none of them the last. -/
def afterSectorReads (s : State) (n : Nat) : State :=
  { s with cfPos := n, tstates := s.tstates + n * 4,
           replies := s.replies ++ (List.range n).map fun k => .bus (Mem.read s.cfImage (s.cfBase + k)) }

section SectorRead

variable {s : State} (noFault : s.fault = none) (reading : s.cfMode = .read) (noIoFaults : s.cfg.cfIoFaults = false)
  (inside : s.cfBase + 512 ≤ s.cfSize)
include noFault reading noIoFaults inside

/-- The next data read of a sector inside the image returns its next byte. -/
theorem exec_sectorRead {n : Nat} (h : n < 512) : exec .cfDataRd (afterSectorReads s n) = .next
    { afterSectorReads s (n + 1) with cfMode := if n + 1 = 512 then .idle else .read,
                                      cfPos := if n + 1 = 512 then 0 else n + 1 } := by
  have works : (afterSectorReads s n).cfIoDrawFails = false := by
    simp [State.cfIoDrawFails, afterSectorReads, noIoFaults]
  have within : (afterSectorReads s n).cfBase + (afterSectorReads s n).cfPos < (afterSectorReads s n).cfSize :=
    show s.cfBase + n < s.cfSize by omega
  have noDraw : (afterSectorReads s n).cfg.cfIoFaults = false := noIoFaults
  rw [(cfDataReadStreamsTheImage (afterSectorReads s n) noFault).2 reading]
  simp only [works, within, noDraw, Bool.false_eq_true, if_false, if_true, or_true, Nat.add_zero]
  simp [afterSectorReads, List.range_succ, Nat.add_mul, Nat.add_assoc]

/-- The reads before the sector's last, by induction on their number. -/
theorem execAll_sectorReads : ∀ n < 512, execAll (List.replicate n .cfDataRd) (afterSectorReads s 0) =
    .next (afterSectorReads s n)
  | 0, _ => rfl
  | n + 1, h => by
    rw [List.replicate_succ', execAll_append (execAll_sectorReads n (by omega)),
      execAll_cons (exec_sectorRead noFault reading noIoFaults inside (by omega)), execAll]
    have notLast : n + 1 ≠ 512 := by omega
    rw [if_neg notLast, if_neg notLast, ← reading]
    rfl

end SectorRead

/-- Settles O48: the command stages the transfer, 511 reads move through the sector, and the 512th ends it. -/
theorem cfSectorReadReturnsTheImage : Obligations.CfSectorReadReturnsTheImage := by
  intro s noFault present noIoFaults inside
  have command : exec .cfCmdRead s = .next (afterSectorReads (readStaged s) 0) := by
    rw [exec_cfCmdRead noFault, State.cfStage_present .read present]
    simp [afterSectorReads, readStaged, State.tick]
  have reads := execAll_sectorReads (s := readStaged s) noFault rfl noIoFaults inside 511 (by decide)
  have last := exec_sectorRead (s := readStaged s) noFault rfl noIoFaults inside (n := 511) (by decide)
  refine ⟨_, ?_, rfl⟩
  rw [execAll_cons command, List.replicate_succ' (n := 511), execAll_append reads, execAll_cons last, execAll]
  rfl

end Sys2Proof.Machine
end

