-- ==== Sys2Proof/Proofs/RasterAdvance.lean ====
section
/-! PROOFS. RASTER_ADVANCE (43_vdp_raster R138 to R149): the rows an advance completes and the rows it renders. -/

namespace Sys2Proof.Machine

/-- RASTER_ADVANCE completes without a fault where it is issued at all (R138, R220). -/
theorem exec_rasterAdvance {s : State} (dns : Rat) (noFault : s.fault = none)
    (issued : ¬ (s.cfg.variant = .debugger ∧ s.cfg.debuggerVideo = .never)) :
    exec (.rasterAdvance dns) s = .next (s.rasterAdvance dns) :=
  (if_neg issued).trans (hostStep_ok (fun s => s.rasterAdvance dns) noFault)

theorem VideoStd.totalRows_eq (v : VideoStd) : v.totalRows = if v = .ntsc then 262 else 312 := by cases v <;> rfl

theorem VideoStd.rowNs_eq (v : VideoStd) : v.rowNs = if v = .ntsc then 63500 else 64000 := by cases v <;> rfl

/-- An advance, field by field: its whole rows in closed form, and the rest of its time (R138, R139, R144, R149). -/
theorem State.rasterAdvance_closed {s : State} {dns : Rat} (sound : s.rasterWf = true) (time : 0 ≤ dns) :
    s.rasterAdvance dns =
      { s with
        fb := (s.rowSteps ((s.accNs + dns) / s.rowNs).floor.toNat).fb
        line := (s.line + ((s.accNs + dns) / s.rowNs).floor.toNat) % s.totalRows
        accNs := s.accNs + dns - ((s.accNs + dns) / s.rowNs).floor.toNat * s.rowNs
        status := if s.totalRows ≤ s.line + ((s.accNs + dns) / s.rowNs).floor.toNat then statusSetF s.status
                  else s.status
        events := s.events ++
          List.replicate ((s.line + ((s.accNs + dns) / s.rowNs).floor.toNat) / s.totalRows) .vsync } := by
  obtain ⟨onScreen, pending, -⟩ := s.rasterWf_iff.mp sound
  rw [State.rasterAdvance_eq s dns (add_nonneg pending time), State.rowSteps_frame, State.rowSteps_line _ s onScreen,
    State.rowSteps_status _ s onScreen, State.rowSteps_events _ s onScreen]

/-- Settles O31: the closed form of an advance, with the numbers of the video standard. -/
theorem rasterAdvanceCompletesWholeRows : Obligations.RasterAdvanceCompletesWholeRows := by
  intro dns s noFault issued sound time total rowNs k
  have rows : s.totalRows = total := VideoStd.totalRows_eq s.cfg.videoStd
  have row : s.rowNs = rowNs := VideoStd.rowNs_eq s.cfg.videoStd
  refine ⟨_, exec_rasterAdvance dns noFault issued, ?_⟩
  rw [State.rasterAdvance_closed sound time, rows, row]
  rfl

/-- Settles O32: the advance's framebuffer is that of its row steps. -/
theorem rasterAdvanceRendersTheRowsItPasses : Obligations.RasterAdvanceRendersTheRowsItPasses := by
  intro dns s t sound time h total k r
  simp only [exec, execRasterAdvance] at h
  split_ifs at h
  obtain ⟨-, rfl⟩ := hostStep_next.mp h
  rw [State.rasterAdvance_closed sound time]
  exact s.rowSteps_fb k (s.rasterWf_iff.mp sound).1 r

end Sys2Proof.Machine
end

