-- ==== Sys2Proof/Proofs/GovernorAndDebugger.lean ====
section
/-! PROOFS. The governor, the debugger's call, the interrupt acknowledge, RESET and the fault (47_governor_host R216 to
R221; 60_exceptions R229, R234, R240). -/

namespace Sys2Proof.Machine

/-! ### The governor thread -/

theorem exec_govStart {s : State} (machine : s.cfg.variant = .machine) (noFault : s.fault = none) :
    exec .govStart s = .next (if s.govRunning then s else { s with govRunning := true, govMark := s.tstates }) := by
  have here : s.cfg.variant ≠ .debugger := by simp [machine]
  exact (if_neg here).trans (hostStep_ok _ noFault)

theorem exec_govStop {s : State} (machine : s.cfg.variant = .machine) (noFault : s.fault = none) :
    exec .govStop s = .next (State.cfClose { s with govRunning := false }) := by
  have here : s.cfg.variant ≠ .debugger := by simp [machine]
  exact (if_neg here).trans (hostStep_ok _ noFault)

/-- Settles O50: a second start finds the thread there and leaves its mark. -/
theorem governorStartAndStop : Obligations.GovernorStartAndStop := by
  intro s
  refine ⟨fun noFault machine => ⟨?_, exec_govStop machine noFault⟩, fun debugger target cpu => ?_⟩
  · rw [exec_govStart machine noFault]
    cases running : s.govRunning with
    | true => simp [← running]
    | false => simp
  · exact ⟨if_pos debugger, if_pos debugger, if_pos debugger⟩

/-! ### Iterations -/

theorem exec_govIteration {s : State} (target : Nat) (cpu : List CpuInstr) (machine : s.cfg.variant = .machine)
    (running : s.govRunning = true) : exec (.govIteration target cpu) s = .next (s.govIteration target cpu) := by
  have here : s.cfg.variant ≠ .debugger := by simp [machine]
  have thread : ¬ s.govRunning = false := by simp [running]
  exact (if_neg here).trans (if_neg thread)

/-- The loop runs nothing once its condition fails: at the target, or after a fault (R216, R229). -/
theorem State.govLoop_stop {target n : Nat} {cpu : List CpuInstr} {s : State}
    (stop : ¬ (s.tstates < target ∧ s.fault = none)) : State.govLoop target n cpu s = s := by
  cases n with
  | zero => rfl
  | succ n =>
    unfold State.govLoop
    exact if_neg stop

/-- Settles O52: no thread, the target reached, or the fault recorded; in the last two the loop stops at once. -/
theorem govIterationWithNothingToRun : Obligations.GovIterationWithNothingToRun := by
  intro target cpu s machine
  refine ⟨fun noThread => ?noThread, fun running noFault reached => ?reached, fun running failed => ?failed⟩
  case noThread =>
    have here : s.cfg.variant ≠ .debugger := by simp [machine]
    exact (if_neg here).trans (if_pos noThread)
  case reached =>
    have stop : ¬ (s.tstates < target ∧ s.fault = none) := fun h => absurd h.1 (Nat.not_lt.mpr reached)
    rw [exec_govIteration target cpu machine running, State.govIteration, State.govLoop_stop stop,
      State.endBatch_ok noFault, State.checkpoint_eq]
  case failed =>
    have stop : ¬ (s.tstates < target ∧ s.fault = none) := fun h => failed h.2
    rw [exec_govIteration target cpu machine running, State.govIteration, State.govLoop_stop stop,
      State.endBatch_failed failed]

/-- While the target is ahead, an iteration is the iteration with the rest, from the state after its next instruction:
the first listed one, or a free one when none is listed (R216; log entry 5). -/
theorem State.govIteration_next {target : Nat} {s : State} (noFault : s.fault = none) (ahead : s.tstates < target) :
    (∀ c cs, s.govIteration target (c :: cs) = (cpuEffect s c).govIteration target cs)
    ∧ s.govIteration target [] = (cpuEffect s.drawn (Config.cpuInstr s.draws)).govIteration target [] := by
  obtain ⟨n, fuel⟩ : ∃ n, target - s.tstates = n + 1 := ⟨target - s.tstates - 1, by omega⟩
  have enough : ∀ (s' : State) (c : CpuInstr), s'.tstates = s.tstates → (s'.cpuInstruction c).fault = none →
      target - (s'.cpuInstruction c).tstates ≤ n := by
    intro s' c same runs
    have := State.cpuInstruction_progress runs
    omega
  constructor
  · intro c cs
    rw [State.govIteration, fuel, State.govLoop, if_pos ⟨ahead, noFault⟩]
    rw [State.govLoop_endBatch (enough s c rfl), State.cpuInstruction_eq noFault]
  · rw [State.govIteration, fuel, State.govLoop, if_pos ⟨ahead, noFault⟩]
    rw [State.govLoop_endBatch (enough s.drawn _ rfl), State.cpuInstruction_eq (s := s.drawn) noFault]

/-- A whole instruction leaves the variant and the governor thread. -/
theorem cpuEffect_governor {s : State} (noFault : s.fault = none) (c : CpuInstr) :
    (cpuEffect s c).cfg = s.cfg ∧ (cpuEffect s c).govRunning = s.govRunning := by
  have frame := (s.cpuInstruction_frame c).bus
  rw [State.cpuInstruction_eq noFault] at frame
  exact ⟨frame.cfg, frame.govRunning⟩

/-- Settles O53: the state after an instruction still has its running governor, so both sides are whole iterations. -/
theorem govIterationRunsItsInstructionsInOrder : Obligations.GovIterationRunsItsInstructionsInOrder := by
  intro target c cs s machine running noFault ahead
  obtain ⟨listed, free⟩ := State.govIteration_next noFault ahead
  obtain ⟨cfg, thread⟩ := cpuEffect_governor noFault c
  obtain ⟨cfgFree, threadFree⟩ := cpuEffect_governor (s := s.drawn) noFault (Config.cpuInstr s.draws)
  constructor
  · rw [exec_govIteration target _ machine running, listed,
      exec_govIteration target cs (by rw [cfg]; exact machine) (thread.trans running)]
  · rw [exec_govIteration target _ machine running, free]
    exact (exec_govIteration target [] (by rw [cfgFree]; exact machine) (threadFree.trans running)).symm

/-- The checkpoint of a sound state, seen from the raster: the time since the mark becomes whole rows and a remainder
(R216). -/
theorem State.checkpoint_raster {s : State} (sound : s.rasterWf = true) (mark : s.govMark ≤ s.tstates)
    (clock : 0 ≤ s.cfg.clockPeriodNs) : ∃ k : Nat,
    s.checkpoint.line = (s.line + k) % s.cfg.videoStd.totalRows
    ∧ s.checkpoint.accNs + k * s.cfg.videoStd.rowNs =
        s.accNs + ((s.tstates : Rat) - (s.govMark : Rat)) * s.cfg.clockPeriodNs
    ∧ 0 ≤ s.checkpoint.accNs ∧ s.checkpoint.accNs < s.cfg.videoStd.rowNs := by
  have marked : State.rasterWf { s with govMark := s.tstates } = true := sound
  have time := State.sinceMark_nonneg mark clock
  have rows := State.rasterAdvance_closed marked time
  obtain ⟨-, remainder, belowRow⟩ := (State.rasterWf_iff _).mp (State.rasterAdvance_rasterWf marked time)
  rw [← State.checkpoint_eq] at rows remainder belowRow
  have sameRow : s.checkpoint.rowNs = s.cfg.videoStd.rowNs := by rw [State.rowNs, rows]
  rw [sameRow] at belowRow
  refine ⟨_, congrArg State.line rows, ?_, remainder, belowRow⟩
  rw [congrArg State.accNs rows]
  exact sub_add_cancel _ _

/-- The checkpoint moves the mark to the counter and leaves counter and fault (R216). -/
theorem State.checkpoint_counters (s : State) : s.checkpoint.fault = s.fault ∧ s.checkpoint.tstates = s.tstates
    ∧ s.checkpoint.govMark = s.tstates := by
  obtain ⟨k, x, advance⟩ := State.rasterAdvance_frame { s with govMark := s.tstates }
    (((s.tstates : Rat) - (s.govMark : Rat)) * s.cfg.clockPeriodNs)
  rw [State.checkpoint_eq, advance]
  exact ⟨rfl, rfl, rfl⟩

/-- Settles O51: the loop ends at the target or at a fault, and only the first is followed by the checkpoint. -/
theorem govIterationReachesItsTarget : Obligations.GovIterationReachesItsTarget := by
  intro target cpu s sound admitted machine running noFault
  refine ⟨_, exec_govIteration target cpu machine running, ?_⟩
  have frame := State.govLoop_frame target (target - s.tstates) cpu s
  have ends := State.govLoop_ends target (target - s.tstates) cpu s (le_refl _)
  rw [State.govIteration]
  generalize State.govLoop target (target - s.tstates) cpu s = u at frame ends
  have bus := frame.bus
  by_cases works : u.fault = none
  case neg =>
    obtain ⟨f, fault⟩ := Option.ne_none_iff_exists'.mp works
    rw [State.endBatch_failed works]
    exact .inl ⟨by rw [fault, fault_cases f], bus.govMark, bus.line, bus.accNs, bus.fb⟩
  case pos =>
    obtain ⟨-, raster, -, mark, -⟩ := (State.inv_iff u).mp (frame.inv sound)
    have cfg : u.cfg = s.cfg := bus.cfg
    have clock : 0 ≤ u.cfg.clockPeriodNs := by rw [cfg]; exact Config.admissible_clock admitted
    obtain ⟨fault, tstates, marked⟩ := u.checkpoint_counters
    have reached := ends.resolve_right (not_not_intro works)
    have rows := State.checkpoint_raster raster mark clock
    rw [cfg, show u.line = s.line from bus.line, show u.accNs = s.accNs from bus.accNs,
      show u.govMark = s.govMark from bus.govMark] at rows
    rw [State.endBatch_ok works, tstates, marked, fault]
    exact .inr ⟨works, reached, bus.tstates, rfl, rows⟩

end Sys2Proof.Machine
end

