-- ==== Sys2Proof/Proofs/DebuggerResetFault.lean ====
section
/-! PROOFS. The debugger's call, the interrupt acknowledge, RESET and the stops after the fault (47_governor_host R220,
R221; 60_exceptions R229, R234, R240). -/

namespace Sys2Proof.Machine

/-! ### The debugger's call -/

/-- A debugger call that is asked for next is served, in an admitted configuration. -/
theorem step_debuggerInstr {s : State} {c : CpuInstr} {inFlight : Bool} {rest : List Request}
    (next : s.pending = .debuggerInstr c inFlight :: rest) (admitted : s.cfg.admissible = true) :
    step s = serveDebuggerInstr c inFlight { s with pending := rest } := by
  rw [step_request next, serve, if_neg (by simp [admitted])]

/-- Settles O54: the checks in their order, and then the instruction, with the end of its batch where the debugger
advances the video. -/
theorem debuggerRunsOneInstruction : Obligations.DebuggerRunsOneInstruction := by
  intro s c inFlight rest next admitted
  rw [step_debuggerInstr next admitted]
  refine ⟨fun machine => if_pos machine, fun debugger busy => ?busy, fun debugger idle f fault => ?failed,
    fun debugger idle noFault => ?runs⟩
  case busy =>
    simp [serveDebuggerInstr, debugger, busy]
  case failed =>
    simp [serveDebuggerInstr, debugger, idle, busStep, fault]
  case runs =>
    intro t
    have runs : State.cpuInstruction { s with pending := rest } c = t :=
      State.cpuInstruction_eq (s := { s with pending := rest }) noFault c
    have served : serveDebuggerInstr c inFlight { s with pending := rest } =
        .next (State.debuggerInstr { s with pending := rest } c) := by
      simp [serveDebuggerInstr, debugger, idle, busStep, noFault]
    rw [served]
    refine ⟨fun never => ?_, fun video failed => ?_, fun video works => ?_⟩
    · simp only [State.debuggerInstr, never, runs]
    · simp only [State.debuggerInstr, video, runs, State.endBatch_failed failed]
    · simp only [State.debuggerInstr, video, runs, State.endBatch_ok works, State.checkpoint_eq]

/-! ### The interrupt acknowledge -/

theorem step_intAck {s : State} {rest : List Request} (next : s.pending = .intAck :: rest)
    (admitted : s.cfg.admissible = true) : step s = serveIntAck { s with pending := rest } := by
  rw [step_request next, serve, if_neg (by simp [admitted])]

/-- While the VDP requests an interrupt the acknowledge cycle runs (R234). -/
theorem serveIntAck_requested {s : State} (noFault : s.fault = none) (requested : s.vdpInt = true) :
    serveIntAck s = .next s.intAckCycle := by
  simp only [serveIntAck, requested, Bool.true_eq_false, and_false, if_false, busStep_ok _ noFault]

theorem serveIntAck_silent {s : State} (noFault : s.fault = none) (silent : s.vdpInt = false) :
    serveIntAck s = .refused .noInterruptRequest := if_pos ⟨noFault, silent⟩

theorem serveIntAck_fault {s : State} {f : Fault} (fault : s.fault = some f) : serveIntAck s = .fault f := by
  have failed : ¬ (s.fault = none ∧ s.vdpInt = false) := by simp [fault]
  exact (if_neg failed).trans (busStep_fault _ fault)

/-- Settles O56: an acknowledge looks at the fault first, then at the request. -/
theorem interruptAcknowledgeReadsAFreeByte : Obligations.InterruptAcknowledgeReadsAFreeByte := by
  intro s rest next admitted
  rw [step_intAck next admitted]
  exact ⟨fun noFault requested => serveIntAck_requested (s := { s with pending := rest }) noFault requested,
    fun noFault silent => serveIntAck_silent (s := { s with pending := rest }) noFault silent,
    fun f fault => serveIntAck_fault (s := { s with pending := rest }) fault⟩

/-! ### RESET -/

/-- Settles O57: the registers and the framebuffer are whole vectors of zeros. -/
theorem resetReinitialisesTheController : Obligations.ResetReinitialisesTheController := by
  intro s noFault
  refine ⟨s.resetOp, hostStep_ok State.resetOp noFault, rfl, fun k => ?_, fun r c => ?_⟩
  · exact Vector.getElem_replicate k.isLt
  · simp

/-! ### After the fault -/

/-- A row of K = 0 to 4 answers the fault (R229). -/
theorem exec_bus_fault {i : Instr} {s : State} {f : Fault} (bus : (wordKind (encode i).1).toNat ≤ 4)
    (fault : s.fault = some f) : exec i s = .fault f := by
  obtain ⟨x, -, row⟩ := exec_is_txn bus
  rw [row, busStep_fault _ fault]

/-- Settles O58: by the kind of the row; the K = 5 rows that are left hand their effect to `hostStep`, which refuses. -/
theorem faultLeavesOnlyTheHostReads : Obligations.FaultLeavesOnlyTheHostReads := by
  intro i s fault
  have stuck : ∀ k, hostStep s k = .refused .stuckAfterFault := fun k => hostStep_refused k fault
  refine ⟨fun bus => exec_bus_fault bus fault, fun op ram vram reg fb iteration machine video => ?refuses,
    fun debugger => ⟨if_pos debugger, if_pos debugger, fun never dns => if_pos ⟨debugger, never⟩⟩⟩
  cases i with
  | rasterAdvance dns => exact (if_neg (video ⟨dns, rfl⟩)).trans (stuck _)
  | govStart =>
    have here : s.cfg.variant ≠ .debugger := by simp [machine (.inl rfl)]
    exact (if_neg here).trans (stuck _)
  | govStop =>
    have here : s.cfg.variant ≠ .debugger := by simp [machine (.inr rfl)]
    exact (if_neg here).trans (stuck _)
  | redrawFrame => exact stuck _
  | reset => exact stuck _
  | hostRamWrite a v => exact stuck fun s => { s with ram := Mem.write s.ram a.toNat v }
  | hostVramWrite a v => exact stuck fun s => { s with vram := Mem.write s.vram a.toNat v }
  | hostRegWrite k v => exact stuck fun s => { s with reg := Regs.set3 s.reg k v }
  | uartRxPushA v => exact stuck fun s => s.uartPush .a v
  | uartRxPushB v => exact stuck fun s => s.uartPush .b v
  | cfAttach image size => exact stuck fun s => s.cfOpen image size
  | cfDetach => exact stuck _
  | hostRamRead a => exact absurd rfl (ram a)
  | hostVramRead a => exact absurd rfl (vram a)
  | hostRegRead k => exact absurd rfl (reg k)
  | hostFbRead r c => exact absurd rfl (fb r c)
  | govIteration target cpu => exact absurd rfl (iteration target cpu)
  | _ => exact absurd op (by simp [encode, readWord, writeWord])

/-! ### The host's accessors -/

/-- The pixels of the canvas are there to read (R43, R227). -/
theorem State.pixel?_inside (s : State) {r c : Nat} (hr : r < 240) (hc : c < 320) : s.pixel? r c = some s.fb[r][c] := by
  simp [State.pixel?, hr, hc]

theorem State.pixel?_outside (s : State) {r c : Nat} (h : 240 ≤ r ∨ 320 ≤ c) : s.pixel? r c = none := by
  unfold State.pixel?
  rcases h with row | column
  · simp [row]
  · cases s.fb[r]? with
    | none => rfl
    | some l => simp [column]

/-- The number of the register a host access names (R225). -/
theorem regIx_toNat (k : Fin 8) : (BitVec.ofNat 3 k.val).toNat = k.val := by simp

theorem Regs.get3_ofNat (r : Regs) (k : Fin 8) : Regs.get3 r (BitVec.ofNat 3 k.val) = r[k] := by
  simp only [Regs.get3, regIx_toNat]
  rfl

/-- Settles O59. -/
theorem hostReadsReturnRawState : Obligations.HostReadsReturnRawState := by
  intro a va k r c s
  refine ⟨rfl, rfl, ?reg, fun hr hc => ?pixel, fun outside => ?refused⟩
  case reg =>
    rw [← Regs.get3_ofNat]
    rfl
  case pixel =>
    simp only [exec, execHostFbRead, s.pixel?_inside hr hc]
    rfl
  case refused => simp only [exec, execHostFbRead, s.pixel?_outside outside]

/-- Settles O60: a store reads back the byte written to it and every other byte as before. -/
theorem hostWritesChangeOneByte : Obligations.HostWritesChangeOneByte := by
  intro a va k v s noFault ramWf vramWf
  refine ⟨⟨_, hostStep_ok (fun s => { s with ram := Mem.write s.ram a.toNat v }) noFault, rfl, ?ram⟩,
    ⟨_, hostStep_ok (fun s => { s with vram := Mem.write s.vram va.toNat v }) noFault, rfl, ?vram⟩,
    ⟨_, hostStep_ok (fun s => { s with reg := Regs.set3 s.reg (BitVec.ofNat 3 k.val) v }) noFault, rfl, ?reg⟩⟩
  case ram => exact Mem.read_write ramWf a.toNat v
  case vram => exact Mem.read_write vramWf va.toNat v
  case reg =>
    intro j
    have written := Regs.get_set3 s.reg (BitVec.ofNat 3 k.val) v j
    rw [regIx_toNat] at written
    simpa only [Fin.ext_iff] using written

end Sys2Proof.Machine
end

