-- ==== Sys2Proof/Proofs/RenderPixels.lean ====
section
/-! PROOFS. The pixels of a row (44_vdp_render R152 to R162): TEXT's glyphs and the backgrounds of the three tile modes,
in arithmetic on the VRAM bytes and the registers' numbers. -/

namespace Sys2Proof.Machine

variable {r : Regs} {vram : Mem} {yoff y x : Nat}

/-! ### Colours -/

theorem Regs.textColour_toNat : r.textColour.toNat = r[7].toNat / 16 := colourHi_toNat r[7]

/-- A pattern bit picks one of two colours, and colour 0 shows the backdrop (R101, R154). -/
theorem Regs.col_pick_toNat (p : Byte) (k : Nat) (one zero : Colour) :
    (r.col (if patternBit p k then one else zero)).toNat =
      (if (if p.toNat / 2 ^ (7 - k) % 2 = 1 then one.toNat else zero.toNat) = 0 then r[7].toNat % 16
       else if p.toNat / 2 ^ (7 - k) % 2 = 1 then one.toNat else zero.toNat) := by
  rw [Regs.col_toNat, patternBit_eq]
  simp only [decide_eq_true_eq, apply_ite BitVec.toNat]

/-! ### TEXT -/

/-- A glyph's bit shows the foreground, unless that is 0; everything else is backdrop (R155). -/
theorem textPixel_toNat (c : Nat) :
    let name := (Mem.read vram (((r[2].toNat % 16) * 1024 + (y / 8) * 40 + c / 6) % 16384)).toNat
    let pat := (Mem.read vram (((r[4].toNat % 8) * 2048 + name * 8 + y % 8) % 16384)).toNat
    (textPixel r vram c y).toNat =
      if pat / 2 ^ (7 - c % 6) % 2 = 1 ∧ r[7].toNat / 16 ≠ 0 then r[7].toNat / 16 else r[7].toNat % 16 := by
  intro name pat
  have glyph : (textPixel r vram c y).toNat =
      (if (if pat / 2 ^ (7 - c % 6) % 2 = 1 then r[7].toNat / 16 else r[7].toNat % 16) = 0 then r[7].toNat % 16
       else if pat / 2 ^ (7 - c % 6) % 2 = 1 then r[7].toNat / 16 else r[7].toNat % 16) := by
    simp only [textPixel, Regs.col_pick_toNat, Regs.textColour_toNat, Regs.backdrop_toNat, Regs.nameBase_eq,
      Regs.patternBase_eq]
    rfl
  rw [glyph]
  split_ifs <;> tauto

/-- A column inside a window shows the window's pixel. -/
theorem windowRow_inside {left width : Nat} (f : Nat → Colour) (hx : x < width) (h : left + x < 320) :
    (windowRow r left width f)[left + x] = f x := by
  have column := windowRow_get (r := r) left width f ⟨left + x, h⟩
  rw [if_pos ⟨Nat.le_add_right left x, Nat.add_lt_add_left hx left⟩, Nat.add_sub_cancel_left] at column
  exact column

/-- Settles O35: an active row with M1 set is TEXT's window, without a sprite layer. -/
theorem textRowsShowGlyphs : Obligations.TextRowsShowGlyphs := by
  intro yoff r vram y x hx hy display text name pat
  have active : ¬ (24 + y < 24 ∨ 216 ≤ 24 + y) := by omega
  have pixels : rowPixels yoff r vram (24 + y) = windowRow r 40 240 fun c => textPixel r vram c y := by
    rw [rowPixels_active display active, if_pos text, Nat.add_sub_cancel_left]
  simp only [pixels]
  rw [windowRow_inside _ hx]
  exact textPixel_toNat x

/-! ### The tile modes -/

/-- The Graphics II colour table stands at R3[7] * 0x2000 (R97). -/
theorem Regs.colourBase2_eq : r.colourBase2 = (r[3].toNat / 128) * 8192 := by
  have field : ∀ b : Byte, (b &&& 0x80).toNat <<< 6 = (b.toNat / 128) * 8192 := by decide
  exact field r[3]

/-- The Graphics II pattern generator stands at R4[2] * 0x2000 (R96). -/
theorem Regs.patternBase2_eq : r.patternBase2 = (r[4].toNat / 4 % 2) * 8192 := by
  have field : ∀ b : Byte, (b &&& 0x04).toNat <<< 11 = (b.toNat / 4 % 2) * 8192 := by decide
  exact field r[4]

/-- The line of a Multicolor cell's half (R161). -/
theorem cell_half (y : Nat) : y / 4 % 2 = if y % 8 < 4 then 0 else 1 := by
  split_ifs <;> omega

/-- Settles O37: each background decoder is a colour byte's nibble, picked by a pattern bit or by the cell's half. -/
theorem backgroundPixelsOfTheTileModes : Obligations.BackgroundPixelsOfTheTileModes := by
  intro r vram x y at14 name show0 pick line2
  refine ⟨?graphics1, ?graphics2, ?multicolor⟩
  case graphics1 =>
    simp only [graphics1Pixel, Regs.col_pick_toNat, colourHi_toNat, colourLo_toNat, Regs.nameBase_eq,
      Regs.patternBase_eq, Regs.colourBase_eq]
    rfl
  case graphics2 =>
    have line : ∀ base n : Nat, base + y / 64 * 0x800 + n * 8 + y % 8 = base + ((y / 64) * 2048 + n * 8 + y % 8) :=
      fun base n => by omega
    simp only [graphics2Pixel, Regs.col_pick_toNat, colourHi_toNat, colourLo_toNat, Regs.nameBase_eq,
      Regs.patternBase2_eq, Regs.colourBase2_eq, line]
    rfl
  case multicolor =>
    simp only [multicolorPixel, Regs.col_toNat, apply_ite BitVec.toNat, colourHi_toNat, colourLo_toNat,
      Regs.nameBase_eq, Regs.patternBase_eq, cell_half, Nat.mul_comm (y / 8 % 4) 2]
    rfl

end Sys2Proof.Machine
end

