-- ==== Sys2Proof/Proofs/RenderSprites.lean ====
section
/-! PROOFS. The sprite layer (44_vdp_render R163 to R174): which sprites are visible on a line, which of them a column
shows, and so what an active row of the tile modes shows. -/

namespace Sys2Proof.Machine

variable {r : Regs} {vram : Mem} {yoff y : Nat}

/-! ### The scan -/

/-- The terminator of the sprites' table, as a number (R165). -/
theorem spriteAttr_terminator (i : Nat) : spriteAttr r vram i 0 = 0xD0 ↔ attrNat r vram i 0 = 0xD0 := by
  rw [← spriteAttr_toNat, ← BitVec.toNat_inj]
  rfl

/-- The scan adds, to what it has found, the covering entries before the terminator while there are fewer than four, by
induction on the entries left (R165, R167, R174). -/
theorem spriteScan_eq (is vis : List Nat) (room : vis.length ≤ 4) : spriteScan r vram yoff y is vis =
    vis ++ (((is.takeWhile fun i => decide (attrNat r vram i 0 ≠ 0xD0)).filter
      fun i => decide (dyNat r vram yoff y i < sizeNat r)).take (4 - vis.length)) := by
  induction is generalizing vis with
  | nil => simp [spriteScan]
  | cons i is ih =>
    rw [spriteScan, spriteCovers_eq]
    by_cases ends : attrNat r vram i 0 = 0xD0
    · rw [if_pos (spriteAttr_terminator i |>.mpr ends), List.takeWhile_cons_of_neg (by simp [ends])]
      simp
    rw [if_neg fun h => ends ((spriteAttr_terminator i).mp h), List.takeWhile_cons_of_pos (by simp [ends])]
    by_cases covers : dyNat r vram yoff y i < sizeNat r
    · rw [if_pos (decide_eq_true covers), List.filter_cons_of_pos (by simpa using covers)]
      by_cases full : vis.length = 4
      · simp [full]
      · obtain ⟨n, left⟩ : ∃ n, 4 - vis.length = n + 1 := ⟨3 - vis.length, by omega⟩
        have found : (vis ++ [i]).length = vis.length + 1 := by simp
        rw [if_neg full, ih _ (by omega), left, List.take_succ_cons, found, show 4 - (vis.length + 1) = n by omega,
          List.append_assoc, List.singleton_append]
    · rw [if_neg (by simpa using covers), List.filter_cons_of_neg (by simpa using covers)]
      exact ih vis room

theorem visibleSprites_eq : visibleSprites r vram yoff y = spritesOnLine r vram yoff y :=
  spriteScan_eq (List.range 32) [] (Nat.zero_le 4)

/-- Settles O38: the entries' Y bytes stand at the table's base, and a remainder mod 256 is its own natural number. -/
theorem visibleSpritesAreTheFirstFourCovering : Obligations.VisibleSpritesAreTheFirstFourCovering := by
  intro r vram yoff y yByte size
  have covers : ∀ i, dyNat r vram yoff y i < sizeNat r ↔ ((y : Int) - yByte i - yoff) % 256 < (size : Nat) := by
    intro i
    show (((y : Int) - yByte i - yoff) % 256).toNat < size ↔ _
    omega
  rw [visibleSprites_eq, spritesOnLine]
  simp only [covers]
  rfl

/-! ### Priority -/

/-- Painting sprites from the highest index down leaves each column with the first of them that shows there, by
induction on the list: the head is painted last (R173, R174). -/
theorem paintSprites_first (is : List Nat) (row : Row) (c : Fin 320) :
    ((is.reverse.foldl (paintSprite r vram yoff y) row)[c]).toNat =
      (is.find? fun i => spriteShows r vram yoff y i c.val).elim (row[c]).toNat fun i => attrNat r vram i 3 % 16 := by
  induction is with
  | nil => rfl
  | cons i is ih =>
    rw [List.reverse_cons, List.foldl_append, List.foldl_cons, List.foldl_nil, paintSprite_toNat, ih, List.find?_cons]
    cases spriteShows r vram yoff y i c.val <;> simp

/-- The sprite layer at a column: the first visible sprite that shows there, else the row below (R172, R173). -/
theorem spriteLayer_first (row : Row) (c : Fin 320) : ((spriteLayer r vram yoff y row)[c]).toNat =
    ((spritesOnLine r vram yoff y).find? fun i => spriteShows r vram yoff y i c.val).elim (row[c]).toNat
      fun i => attrNat r vram i 3 % 16 := by
  rw [spriteLayer, visibleSprites_eq, paintSprites_first]

/-- Settles O39: the layer at a column is the first visible sprite that shows there. -/
theorem lowestSpriteIndexWins : Obligations.LowestSpriteIndexWins := by
  intro r vram yoff y row c
  rw [spriteLayer_first]
  cases (spritesOnLine r vram yoff y).find? fun i => spriteShows r vram yoff y i c.val <;> rfl

/-! ### Active rows -/

/-- The background pixel of a tile mode, the first match of M2 and M3 (R94, R153). -/
def tilePixel (r : Regs) (vram : Mem) (y x : Nat) : Colour :=
  if r[1].toNat / 8 % 2 = 1 then multicolorPixel r vram x y
  else if r[0].toNat / 2 % 2 = 1 then graphics2Pixel r vram x y
  else graphics1Pixel r vram x y

/-- With M1 clear an active row is the sprite layer over the window of the mode (R151). -/
theorem rowPixels_tiles {row : Nat} (display : r[1].toNat / 64 % 2 = 1) (active : ¬ (row < 24 ∨ 216 ≤ row))
    (tiles : r[1].toNat / 16 % 2 = 0) : rowPixels yoff r vram row =
      spriteLayer r vram yoff (row - 24) (windowRow r 32 256 (tilePixel r vram (row - 24))) := by
  have window : windowRow r 32 256 (tilePixel r vram (row - 24)) =
      if r[1].toNat / 8 % 2 = 1 then windowRow r 32 256 fun x => multicolorPixel r vram x (row - 24)
      else if r[0].toNat / 2 % 2 = 1 then windowRow r 32 256 fun x => graphics2Pixel r vram x (row - 24)
      else windowRow r 32 256 fun x => graphics1Pixel r vram x (row - 24) := by
    unfold tilePixel
    split_ifs <;> rfl
  rw [rowPixels_active display active, if_neg (by omega), window]

/-- Settles O36: canvas column `32 + x` shows the window's pixel `x` where no sprite shows. -/
theorem activeRowsShowSpritesOverBackground : Obligations.ActiveRowsShowSpritesOverBackground := by
  intro yoff r vram y x hx hy display tiles
  have active : ¬ (24 + y < 24 ∨ 216 ≤ 24 + y) := by omega
  have column := spriteLayer_first (r := r) (vram := vram) (yoff := yoff) (y := y)
    (windowRow r 32 256 (tilePixel r vram y)) ⟨32 + x, by omega⟩
  simp only [Fin.getElem_fin, windowRow_inside (tilePixel r vram y) hx] at column
  simp only [rowPixels_tiles display active tiles, Nat.add_sub_cancel_left, column]
  cases (spritesOnLine r vram yoff y).find? fun i => spriteShows r vram yoff y i (32 + x) with
  | some i => rfl
  | none => simp only [Option.elim_none, tilePixel, apply_ite BitVec.toNat]

end Sys2Proof.Machine
end

