-- ==== Sys2Proof/Proofs/RenderRegisterBits.lean ====
section
/-! PROOFS. The register bits a rendered row depends on (44_vdp_render R179): the renderer reads the registers through
their fields alone, and each field through its mask. -/

namespace Sys2Proof.Machine

variable {r r' : Regs}

/-- Two register files show the renderer the same fields (R30 to R37). -/
structure SameFields (r r' : Regs) : Prop where
  displayOn : r.displayOn = r'.displayOn
  mode : r.mode = r'.mode
  size16 : r.size16 = r'.size16
  mag : r.mag = r'.mag
  nameBase : r.nameBase = r'.nameBase
  colourBase : r.colourBase = r'.colourBase
  colourBase2 : r.colourBase2 = r'.colourBase2
  patternBase : r.patternBase = r'.patternBase
  patternBase2 : r.patternBase2 = r'.patternBase2
  spriteAttrBase : r.spriteAttrBase = r'.spriteAttrBase
  spritePatBase : r.spritePatBase = r'.spritePatBase
  textColour : r.textColour = r'.textColour
  backdrop : r.backdrop = r'.backdrop

/-! ### From masks to fields -/

/-- Two bytes agree under a mask. -/
def Agree (m a b : Byte) : Prop := a &&& m = b &&& m

/-- They agree in each of its bits. -/
theorem Agree.getLsbD {m a b : Byte} (agree : Agree m a b) {k : Nat} (inMask : m.getLsbD k = true) :
    a.getLsbD k = b.getLsbD k := by
  have bit : (a &&& m).getLsbD k = (b &&& m).getLsbD k := congrArg (BitVec.getLsbD · k) agree
  simpa only [BitVec.getLsbD_and, inMask, Bool.and_true] using bit

/-- They agree under a smaller mask. -/
theorem Agree.smaller {m n a b : Byte} (agree : Agree m a b) (smaller : m &&& n = n) : Agree n a b := by
  have masked : a &&& m = b &&& m := agree
  rw [Agree, ← smaller, ← BitVec.and_assoc, masked, BitVec.and_assoc]

/-- So a table's base, a masked and shifted register, is the same. -/
theorem Agree.base {m a b : Byte} (agree : Agree m a b) (k : Nat) : (a &&& m).toNat <<< k = (b &&& m).toNat <<< k :=
  congrArg (fun masked : Byte => masked.toNat <<< k) agree

/-- The masks of R179 hold every field. -/
theorem sameFields_of_agree (r0 : Agree 0x02 r[0] r'[0]) (r1 : Agree 0x5B r[1] r'[1]) (r2 : Agree 0x0F r[2] r'[2])
    (r3 : r[3] = r'[3]) (r4 : Agree 0x07 r[4] r'[4]) (r5 : Agree 0x7F r[5] r'[5]) (r6 : Agree 0x07 r[6] r'[6])
    (r7 : r[7] = r'[7]) :
    SameFields r r' where
  displayOn := r1.getLsbD (by decide)
  mode := by
    have m1 : r.m1 = r'.m1 := r1.getLsbD (by decide)
    have m2 : r.m2 = r'.m2 := r1.getLsbD (by decide)
    have m3 : r.m3 = r'.m3 := r0.getLsbD (by decide)
    rw [Regs.mode, m1, m2, m3, Regs.mode]
  size16 := r1.getLsbD (by decide)
  mag := r1.getLsbD (by decide)
  nameBase := r2.base 10
  colourBase := by rw [Regs.colourBase, r3, Regs.colourBase]
  colourBase2 := by rw [Regs.colourBase2, r3, Regs.colourBase2]
  patternBase := r4.base 11
  patternBase2 := (r4.smaller (n := 0x04) (by decide)).base 11
  spriteAttrBase := r5.base 7
  spritePatBase := r6.base 11
  textColour := by rw [Regs.textColour, r7, Regs.textColour]
  backdrop := by rw [Regs.backdrop, r7, Regs.backdrop]

/-! ### From fields to pixels -/

section

variable (same : SameFields r r') (vram : Mem) (yoff y : Nat)
include same

theorem SameFields.col (c : Colour) : r.col c = r'.col c := by rw [Regs.col, Regs.col, same.backdrop]

theorem SameFields.textPixel (c : Nat) : Machine.textPixel r vram c y = Machine.textPixel r' vram c y := by
  simp only [Machine.textPixel, same.col, same.nameBase, same.patternBase, same.textColour, same.backdrop]

theorem SameFields.graphics1Pixel (x : Nat) :
    Machine.graphics1Pixel r vram x y = Machine.graphics1Pixel r' vram x y := by
  simp only [Machine.graphics1Pixel, same.col, same.nameBase, same.patternBase, same.colourBase]

theorem SameFields.graphics2Pixel (x : Nat) :
    Machine.graphics2Pixel r vram x y = Machine.graphics2Pixel r' vram x y := by
  simp only [Machine.graphics2Pixel, same.col, same.nameBase, same.patternBase2, same.colourBase2]

theorem SameFields.multicolorPixel (x : Nat) :
    Machine.multicolorPixel r vram x y = Machine.multicolorPixel r' vram x y := by
  simp only [Machine.multicolorPixel, same.col, same.nameBase, same.patternBase]

theorem SameFields.spriteAttr (i k : Nat) : Machine.spriteAttr r vram i k = Machine.spriteAttr r' vram i k := by
  rw [Machine.spriteAttr, Machine.spriteAttr, same.spriteAttrBase]

theorem SameFields.spriteM : r.spriteM = r'.spriteM := by rw [Regs.spriteM, Regs.spriteM, same.mag]

theorem SameFields.spriteS : r.spriteS = r'.spriteS := by
  rw [Regs.spriteS, Regs.spriteS, Regs.spriteH, Regs.spriteH, same.size16, same.spriteM]

theorem SameFields.spriteDy (i : Nat) : Machine.spriteDy r vram yoff y i = Machine.spriteDy r' vram yoff y i := by
  rw [Machine.spriteDy, Machine.spriteDy, same.spriteAttr]

theorem SameFields.spriteBit (i k q : Nat) : Machine.spriteBit r vram i k q = Machine.spriteBit r' vram i k q := by
  simp only [Machine.spriteBit, same.spriteAttr, same.size16, same.spritePatBase]

theorem SameFields.spriteColour (i : Nat) : Machine.spriteColour r vram i = Machine.spriteColour r' vram i := by
  rw [Machine.spriteColour, Machine.spriteColour, same.spriteAttr]

theorem SameFields.spriteX0 (i : Nat) : Machine.spriteX0 r vram i = Machine.spriteX0 r' vram i := by
  have ec : spriteEc r vram i = spriteEc r' vram i := by rw [spriteEc, spriteEc, same.spriteAttr]
  rw [Machine.spriteX0, Machine.spriteX0, same.spriteAttr, ec]

theorem SameFields.spriteScan (is : List Nat) : ∀ vis,
    Machine.spriteScan r vram yoff y is vis = Machine.spriteScan r' vram yoff y is vis := by
  induction is with
  | nil => exact fun _ => rfl
  | cons i is ih =>
    intro vis
    have covers : spriteCovers r vram yoff y i = spriteCovers r' vram yoff y i := by
      rw [spriteCovers, spriteCovers, same.spriteDy, same.spriteS]
    rw [Machine.spriteScan, Machine.spriteScan, same.spriteAttr, covers, ih vis, ih (vis ++ [i])]

theorem SameFields.paintSprite :
    Machine.paintSprite r vram yoff y = Machine.paintSprite r' vram yoff y := by
  funext row i
  have column : paintSpriteColumn r vram yoff y i = paintSpriteColumn r' vram yoff y i := by
    funext l j
    simp only [paintSpriteColumn, same.spriteX0, same.spriteBit, same.spriteDy, same.spriteM, same.spriteColour]
  simp only [Machine.paintSprite, column, same.spriteColour, same.spriteS]

theorem SameFields.spriteLayer : Machine.spriteLayer r vram yoff y = Machine.spriteLayer r' vram yoff y := by
  funext row
  simp only [Machine.spriteLayer, visibleSprites, same.spriteScan, same.paintSprite]

theorem SameFields.windowRow (left width : Nat) (f : Nat → Colour) :
    Machine.windowRow r left width f = Machine.windowRow r' left width f := by
  rw [Machine.windowRow, Machine.windowRow, same.backdrop]

theorem SameFields.rowPixels (row : Nat) : Machine.rowPixels yoff r vram row = Machine.rowPixels yoff r' vram row := by
  simp only [Machine.rowPixels, backdropRow, same.displayOn, same.mode, same.backdrop, same.windowRow, same.textPixel,
    same.graphics1Pixel, same.graphics2Pixel, same.multicolorPixel, same.spriteLayer]

end

/-- Settles O40: files that agree under the masks show the same fields, and so the same pixels. -/
theorem unusedRegisterBitsChangeNoPixel : Obligations.UnusedRegisterBitsChangeNoPixel := by
  intro yoff r r' vram row agree r0 r1 r2 r3 r4 r5 r6 r7
  exact (sameFields_of_agree r0 r1 r2 r3 r4 r5 r6 r7).rowPixels vram yoff row

end Sys2Proof.Machine
end
